-- ==== Sys2Proof/Word.lean ====
section
/-! DEFINITION. The word types of the Huffman tree builder block: the widths of rule R5 of spec/00_scope.md
that the block stores or moves as bits. -/

namespace Sys2Proof

/-- A register, an argument or a frequency count: REG_BITS = FREQ_BITS = 32 (R5). -/
abbrev Word := BitVec 32

/-- A symbol or a byte of MEM: SYM_BITS = 8 (R5). -/
abbrev Byte := BitVec 8

/-- A node index, the leaf count or NO_NODE: NODE_IDX_BITS = 9 (R5). -/
abbrev NodeIdx := BitVec 9

/-- A stored node frequency: NODE_FREQ_BITS = 40 (R5). -/
abbrev NodeFreq := BitVec 40

/-- A byte offset on the host port: 17 bits (R39). -/
abbrev HostOffset := BitVec 17

/-- A bit-string (R8). The head is bit 0, the first bit; `true` is the bit 1. -/
abbrev Bits := List Bool

end Sys2Proof
end

