-- ==== Sys2Proof/Config.lean ====
section
/-! DEFINITION. What an implementation of the block fixes (spec/00_scope.md R5), the constants the spec decides, and
the free values. The two open parameters that no rule reads, HOST_BUS_PROTOCOL and CMD_LATENCY, have no
counterpart here: the port is modelled at transaction level, and the moment at which the engine takes its step is
said by the order of `State.hostQueue` (log entries 2 and 3). -/

namespace Sys2Proof

/-- MEM_BYTES (R5, D11): OPEN, a power of two with 4096 ≤ MEM_BYTES ≤ 65536; the spec's default is 65536. -/
inductive MemSize where
  | bytes4096
  | bytes8192
  | bytes16384
  | bytes32768
  | bytes65536
deriving DecidableEq, Repr

namespace Config

/-- log2(MEM_BYTES), a value from 12 to 16 (R17). -/
def log2MemBytes : MemSize → Nat
  | .bytes4096 => 12
  | .bytes8192 => 13
  | .bytes16384 => 14
  | .bytes32768 => 15
  | .bytes65536 => 16

/-- MEM_BYTES. -/
def memBytes (m : MemSize) : Nat := 2 ^ log2MemBytes m

/-- NSYM: the alphabet has 256 symbols (R5, D2). -/
def nsym : Nat := 256

/-- MAX_NODES: indices 0..510 (R5, D9). -/
def maxNodes : Nat := 511

/-- NO_NODE = 0x1FF (R5, D9). -/
def noNode : NodeIdx := 0x1FF#9

/-- MAX_CODE_LEN (R5, D10). -/
def maxCodeLen : Nat := 255

/-- The value of the register ID, the bytes "HUFF" (R16). -/
def idValue : Word := 0x48554646#32

/-- FREE VALUE (log entry 4): the k-th byte the hardware leaves unspecified, the `draw` of R10 for a byte of MEM
(R123, R140; U1 and U2 of spec/93_implementation_defined.md). It has no body, so nothing can be proved of its value;
`State.drawCount` says which k is next. -/
opaque drawByte : Nat → Byte

/-- FREE VALUE (log entry 4): the k-th 32-bit value the hardware leaves unspecified, the `draw` that a conflicting host
read returns (R112; U3). It has no body. -/
opaque drawWord : Nat → Word

end Config

end Sys2Proof
end

