-- ==== Sys2Proof/Syntax.lean ====
section
/-! DEFINITION. The commands, one constructor per row of spec/opcode_table.json (R1, R59 of spec/30_encoding.md). A
command word carries no operands and no immediates (R58, R66), so no constructor has a field: the operands are the
arguments captured in the command latch. -/

namespace Sys2Proof

/-- The six commands of the block (R12, R59). -/
inductive Instr where
  /-- BUILD_TREE, word 0x00000001 (R77). -/
  | buildTree
  /-- GEN_CODES, word 0x00000002 (R83). -/
  | genCodes
  /-- ENCODE, word 0x00000003 (R87). -/
  | encode
  /-- DECODE, word 0x00000004 (R94). -/
  | decode
  /-- SERIALIZE, word 0x00000005 (R98). -/
  | serialize
  /-- DESERIALIZE, word 0x00000006 (R105). -/
  | deserialize
deriving DecidableEq, Repr

end Sys2Proof
end

