-- ==== Sys2Proof/WellFormed.lean ====
section
/-! DEFINITION. Well-formedness. A command has no operand field (R58), so every `Instr` is well formed. What the
hardware checks is the WORD: its RSVD field must be 0 and its OPC field one of 1..6 (R58, R59, R63). -/

namespace Sys2Proof

/-- Every command is well formed: none carries a field that could be out of range (R58, R66). Written constructor by
constructor, so that a command with a field cannot slip past. -/
def Instr.wellFormed : Instr → Bool
  | .buildTree => true
  | .genCodes => true
  | .encode => true
  | .decode => true
  | .serialize => true
  | .deserialize => true

/-- The first check: RSVD, bits 31:4, must be 0 (R58). -/
def rsvdOk (w : Word) : Bool := w.toNat / 16 == 0

/-- The second check: OPC, bits 3:0, must be one of 1..6 (R59). -/
def opcOk (w : Word) : Bool := decide (1 ≤ w.toNat % 16) && decide (w.toNat % 16 ≤ 6)

/-- A command word that selects a command: both checks pass (R59). Every other word is reserved (R64). -/
def commandWordWellFormed (w : Word) : Bool := rsvdOk w && opcOk w

end Sys2Proof
end

