-- ==== Sys2Proof/Decode.lean ====
section
/-! DEFINITION. The decoder of command words and the encoder (R58, R59, R64, R65 of spec/30_encoding.md). -/

namespace Sys2Proof

/-- Why a command word selects no command (R64). Both reasons make the command complete with BAD_COMMAND. -/
inductive DecodeReject where
  /-- RSVD, bits 31:4, is not 0. -/
  | reservedBitsSet
  /-- OPC is 0x0 or one of 0x7..0xF. -/
  | reservedOpcode
deriving DecidableEq, Repr

/-- The OPC field, bits 3:0 of a command word (R58). -/
def opcField (w : Word) : BitVec 4 := w.extractLsb' 0 4

/-- The RSVD field, bits 31:4 of a command word (R58). -/
def rsvdField (w : Word) : BitVec 28 := w.extractLsb' 4 28

/-- The opcode map of R59: OPC 1..6 select the six commands, every other value is reserved. -/
def decodeOpc (opc : BitVec 4) : Except DecodeReject Instr :=
  match opc.toNat with
  | 1 => .ok .buildTree
  | 2 => .ok .genCodes
  | 3 => .ok .encode
  | 4 => .ok .decode
  | 5 => .ok .serialize
  | 6 => .ok .deserialize
  | _ => .error .reservedOpcode

/-- The decoder, total on every 32-bit word: it "tells the command from word[3:0] alone, once it has checked
word[31:4] = 0" (R65). -/
def decode (w : Word) : Except DecodeReject Instr :=
  if rsvdField w = 0#28 then decodeOpc (opcField w) else .error .reservedBitsSet

/-- The encoder: the one 32-bit word of each command, the "match" column of R59. -/
def encode : Instr → Word
  | .buildTree => 0x00000001#32
  | .genCodes => 0x00000002#32
  | .encode => 0x00000003#32
  | .decode => 0x00000004#32
  | .serialize => 0x00000005#32
  | .deserialize => 0x00000006#32

/-- The 32-bit command word whose low `nbits` bits are those of `w`, the bits above them 0. A command is one 32-bit
word written whole to CMD (R58), so no byte order is involved. -/
def tableWord (nbits w : Nat) : Word := BitVec.ofNat 32 (w % 2 ^ nbits)

/-- The command that the decoder reads from the word numbered as spec/opcode_table.json numbers it; `none` where it
refuses. An instruction longer than 32 bits does not exist (R65). -/
def decodeTableWord (nbits w : Nat) : Option Instr :=
  if nbits ≤ 32 then
    match decode (tableWord nbits w) with
    | .ok i => some i
    | .error _ => none
  else none

end Sys2Proof
end

