-- ==== Sys2Proof/Machine/State.lean ====
section
/-! DEFINITION. The state of the block as plain data: every element R13 of spec/10_state.md names, and four fields of
the model's own (`memSize`, `hostQueue`, `response`, `drawCount`), each named in a log entry. -/

namespace Sys2Proof.Machine

/-- The error codes 0..7 of R120. Codes 8–15 are never produced, so they have no constructor. -/
inductive ErrCode where
  | ok
  | badCommand
  | notReady
  | badRange
  | outputOverflow
  | unknownSymbol
  | malformedPayload
  | corruptContainer
deriving DecidableEq, Repr

/-- The command latch while it holds a command (R35): the command word and the captured arguments. -/
structure Latch where
  word : Word
  a0 : Word
  a1 : Word
  a2 : Word
  a3 : Word
deriving DecidableEq, Repr

/-- A valid entry of the node store (R30). A leaf has LEFT = RIGHT = NO_NODE and an internal node has no symbol, so
neither stores them; the accessors of Machine/Ops.lean give all five fields. -/
inductive Node where
  | leaf (symbol : Byte) (freq : NodeFreq)
  | internal (freq : NodeFreq) (left right : NodeIdx)
deriving DecidableEq, Repr

/-- The size of a host access (R41). -/
inductive AccessSize where
  | bits8
  | bits16
  | bits32
deriving DecidableEq, Repr

/-- The two responses of the host port (R107). -/
inductive BusResponse where
  | okay
  | error
deriving DecidableEq, Repr

/-- What the host port answered to a transaction: the response, and for a read the data (R107). -/
structure PortAnswer where
  bus : BusResponse
  data : Option Word
deriving DecidableEq, Repr

/-- What the outside world can do to the block, one event per step (R13, R53, R107, R137), and the point at which the
engine takes its step (R109). -/
inductive HostEvent where
  /-- The transaction read(offset, size). -/
  | read (offset : HostOffset) (size : AccessSize)
  /-- The transaction write(offset, size, data). -/
  | write (offset : HostOffset) (size : AccessSize) (data : Word)
  /-- The release of rst_n: one hardware reset event. -/
  | hardwareReset
  /-- No transaction: the engine's turn in the global order of R53. -/
  | engineTurn
deriving DecidableEq, Repr

/-- What a mapped host offset names (the register map of spec/10_state.md, R16–R36). -/
inductive Target where
  | id
  | params
  | cmd
  | ctrl
  | status
  | arg0
  | arg1
  | arg2
  | arg3
  | res0
  | res1
  | errInfo
  | nleaf
  | root
  | freq (s : Byte)
  | codeLen (s : Byte)
  | codeBits (s : Byte) (k : Nat)
  | node (i w : Nat)
  | mem (a : Nat)
deriving DecidableEq, Repr

/-- MEM (R36): the written bytes, as (address, byte) pairs with strictly rising addresses. An address that is not
listed is *unwritten*: it holds no value, and reading it is a fault (U4, log entry 5). -/
abbrev Memory := List Host.Cell

/-- The frequency table FREQ[0..255] (R27). -/
abbrev FreqTable := Vector Word 256

/-- The code table CODE[0..255] (R32): `none` is VALID = 0, `some bits` is VALID = 1 with BITS = bits and LEN their
length. -/
abbrev CodeTable := Vector (Option Bits) 256

/-- The whole state of the block (R13). -/
structure State where
  /-- The parameter MEM_BYTES (R5, R13), which no step changes (log entry 1). -/
  memSize : MemSize
  /-- CTRL.IRQ_EN (R19). -/
  irqEn : Bool
  /-- STATUS.DONE (R20). -/
  done : Bool
  /-- STATUS.TREE_VALID (R20, R33). -/
  treeValid : Bool
  /-- STATUS.CODES_VALID (R20, R33). -/
  codesValid : Bool
  /-- STATUS.HOST_CONFLICT (R20, R112). -/
  hostConflict : Bool
  /-- STATUS.ERR (R20, R120). -/
  err : ErrCode
  /-- STATUS.LAST_OPC (R20, R108). -/
  lastOpc : BitVec 4
  /-- ARG0, SRC_ADDR (R21). -/
  arg0 : Word
  /-- ARG1, SRC_LEN (R21). -/
  arg1 : Word
  /-- ARG2, DST_ADDR (R21). -/
  arg2 : Word
  /-- ARG3, DST_CAP (R21). -/
  arg3 : Word
  /-- RES0 (R22). -/
  res0 : Word
  /-- RES1 (R23). -/
  res1 : Word
  /-- ERR_INFO (R24). -/
  errInfo : Word
  /-- NLEAF bits 8:0 (R25). -/
  nleaf : NodeIdx
  /-- ROOT bits 8:0 (R26). -/
  root : NodeIdx
  /-- FREQ[0..255] (R27). -/
  freq : FreqTable
  /-- The node store (R30): the entries 0..NNODES−1 that the last BUILD_TREE wrote. They are valid while TREE_VALID = 1
  (log entry 6). -/
  nodes : List Node
  /-- The code table (R32), meaningful while CODES_VALID = 1. -/
  codes : CodeTable
  /-- The command latch (R35). STATUS.BUSY is 1 exactly while it holds a command (R14, R108, R109). -/
  latch : Option Latch
  /-- MEM (R36). -/
  mem : Memory
  /-- THE MODEL'S OWN: the events still to come from outside, oldest first (log entry 2). -/
  hostQueue : List HostEvent
  /-- THE MODEL'S OWN: what the port answered to the last transaction (log entry 2). -/
  response : Option PortAnswer
  /-- THE MODEL'S OWN: how many free values have been drawn (log entry 4). -/
  drawCount : Nat
deriving DecidableEq, Repr

/-- The state after rst_n (R138). The model's own fields: MEM_BYTES is the default 65536 (log entry 1), nothing is queued
and nothing answered (log entry 2), nothing drawn (log entry 4). -/
def State.reset : State where
  memSize := .bytes65536
  irqEn := false
  done := false
  treeValid := false
  codesValid := false
  hostConflict := false
  err := .ok
  lastOpc := 0#4
  arg0 := 0#32
  arg1 := 0#32
  arg2 := 0#32
  arg3 := 0#32
  res0 := 0#32
  res1 := 0#32
  errInfo := 0#32
  nleaf := 0#9
  root := Config.noNode
  freq := Vector.replicate 256 0#32
  nodes := []
  codes := Vector.replicate 256 none
  latch := none
  mem := []
  hostQueue := []
  response := none
  drawCount := 0

/-- Why the model stops. -/
inductive Fault where
  /-- Raised by an engine read (a command's meaning) and by a host read of the MEM window, of MEM byte `a`, which nothing
  has written since rst_n. SAFE: spec/93_implementation_defined.md U4 names this treatment; the hardware goes on with an
  unspecified byte. -/
  | unwrittenRead (a : Nat)
  /-- Raised by GEN_CODES and DECODE when the tree walk meets node index `i`, which is no valid entry. SAFE: no state
  that keeps the invariant of R34 reaches it (R75, R88), and the spec gives such a state no meaning (log entry 14). -/
  | invalidNode (i : Nat)
  /-- Raised by `exec` in a state whose latch holds no command: the engine step is enabled only while BUSY = 1 (R109).
  SAFE: `step` never raises it (log entry 13). -/
  | engineIdle
deriving DecidableEq, Repr

/-- Why the model has no meaning for an instruction. -/
inductive Refusal where
  /-- Raised by an arm of `exec` whose instruction has no meaning yet. SAFE. No arm raises it now. -/
  | notModelled (mnemonic : String)
deriving DecidableEq, Repr

/-- The outcome of a step of the block. -/
abbrev Outcome := Host.Outcome State Fault Refusal

/-- Why a running command ends early: `raise Error(code, info)` of R10, or a fault of the model. -/
inductive Abort where
  | error (code : ErrCode) (info : Nat)
  | fault (f : Fault)
deriving DecidableEq, Repr

/-- A computation of a running command: a result, or the reason it ended early. -/
abbrev Run (α : Type) := Except Abort α

end Sys2Proof.Machine
end

