-- ==== Sys2Proof/Machine/Flags.lean ====
section
/-! DEFINITION. The flags (R38): the STATUS word and what reads and clears its bits (R20), and the interrupt output
(R127, R128). The block has no condition codes. -/

namespace Sys2Proof.Machine

/-- The number of an error code in STATUS.ERR (R120). -/
def ErrCode.code : ErrCode → BitVec 4
  | .ok => 0#4
  | .badCommand => 1#4
  | .notReady => 2#4
  | .badRange => 3#4
  | .outputOverflow => 4#4
  | .unknownSymbol => 5#4
  | .malformedPayload => 6#4
  | .corruptContainer => 7#4

/-- STATUS.BUSY: 1 exactly while the latch holds a command (R14, R35, R108, R109; DEDUCED, log entry 10). -/
def State.busy (s : State) : Bool := s.latch.isSome

/-- The word a read of STATUS returns (R20); the reserved bits 7:5 and 31:16 read 0. -/
def statusWord (s : State) : Word :=
  0#16 ++ s.lastOpc ++ s.err.code ++ 0#3 ++ BitVec.ofBool s.hostConflict ++ BitVec.ofBool s.codesValid
    ++ BitVec.ofBool s.treeValid ++ BitVec.ofBool s.done ++ BitVec.ofBool s.busy

/-- The word a read of CTRL returns: IRQ_EN in bit 0, every other bit 0 (R19). -/
def ctrlWord (s : State) : Word := 0#31 ++ BitVec.ofBool s.irqEn

/-- The interrupt output: `irq = STATUS.DONE ∧ CTRL.IRQ_EN` (R127). -/
def State.irq (s : State) : Bool := s.done && s.irqEn

/-- A write of `data` to STATUS: it clears DONE if bit 1 is 1 and HOST_CONFLICT if bit 4 is 1, and changes nothing else
(R20). The host's acknowledgement, its "return" from an error (R125), is this write with data 0x2. -/
def writeStatus (data : Word) (s : State) : State :=
  { s with
    done := s.done && !data.getLsbD 1
    hostConflict := s.hostConflict && !data.getLsbD 4 }

end Sys2Proof.Machine
end

