-- ==== Sys2Proof/Machine/Ops.lean ====
section
/-! DEFINITION. The named operations over MEM, the node store and the registers: byte reads and writes, command issue
(R108), completion (R109), and raising an error (R123), which is how this block takes what other machines call an
exception (R119); the host's acknowledgement of it is `writeStatus` in Machine/Flags.lean (R125). -/

namespace Sys2Proof.Machine

/-- The canonical form of MEM: addresses strictly rising. An unlisted address holds no value (R36), so no entry can
equal what it reads as. -/
abbrev Memory.wf (m : Memory) : Prop := m.Pairwise (fun c d => c.1 < d.1)

/-- Every listed address lies in MEM[0..M−1] (R36). -/
abbrev Memory.within (M : Nat) (m : Memory) : Prop := ∀ c ∈ m, c.1 < M

/-- The value of MEM byte `a`; `none` if it is unwritten (R36). -/
def Memory.read : Memory → Nat → Option Byte
  | [], _ => none
  | (k, b) :: m, a => if k = a then some b else Memory.read m a

/-- `MemWrite(a, 1, v)` (R9, R40): byte `a` becomes written with the value `v`. -/
def Memory.write : Memory → Nat → Byte → Memory
  | [], a, v => [(a, v)]
  | (k, b) :: m, a, v =>
    if a < k then (a, v) :: (k, b) :: m
    else if a = k then (a, v) :: m
    else (k, b) :: Memory.write m a v

/-- `MemWrite(a, |vs|, vs)`: the byte writes in ascending address order (R9, R40). -/
def Memory.writeBytes : Memory → Nat → List Byte → Memory
  | m, _, [] => m
  | m, a, v :: vs => Memory.writeBytes (Memory.write m a v) (a + 1) vs

/-- `MemRead(a, n)`: the byte reads in ascending address order (R9, R40), or the first address that is unwritten. -/
def Memory.readMany (m : Memory) (a : Nat) : Nat → Except Nat (List Byte)
  | 0 => .ok []
  | n + 1 =>
    match Memory.read m a, Memory.readMany m (a + 1) n with
    | none, _ => .error a
    | some _, .error x => .error x
    | some b, .ok bs => .ok (b :: bs)

/-- `MemRead(a, 1)` by the engine: the byte, or the fault of U4 if it is unwritten. -/
def readByte (m : Memory) (a : Nat) : Run Byte :=
  match Memory.read m a with
  | some b => .ok b
  | none => .error (.fault (.unwrittenRead a))

/-- `MemRead(a, n)` by the engine: the bytes, or the fault of U4 at the first unwritten one. -/
def readBytes (m : Memory) (a n : Nat) : Run (List Byte) :=
  match Memory.readMany m a n with
  | .ok bs => .ok bs
  | .error x => .error (.fault (.unwrittenRead x))

/-- IS_LEAF (R30). -/
def Node.isLeaf : Node → Bool
  | .leaf _ _ => true
  | .internal _ _ _ => false

/-- SYMBOL; 0 for an internal node (R30, R31, R70). -/
def Node.symbol : Node → Byte
  | .leaf s _ => s
  | .internal _ _ _ => 0#8

/-- FREQ (R30). -/
def Node.freq : Node → NodeFreq
  | .leaf _ f => f
  | .internal f _ _ => f

/-- LEFT; NO_NODE for a leaf (R30). -/
def Node.left : Node → NodeIdx
  | .leaf _ _ => Config.noNode
  | .internal _ l _ => l

/-- RIGHT; NO_NODE for a leaf (R30). -/
def Node.right : Node → NodeIdx
  | .leaf _ _ => Config.noNode
  | .internal _ _ r => r

/-- The entry NODE[i] of a node list, or a fault if it is no valid entry. -/
def nodeAt (nodes : List Node) (i : NodeIdx) : Run Node :=
  match nodes[i.toNat]? with
  | some nd => .ok nd
  | none => .error (.fault (.invalidNode i.toNat))

/-- NNODES (R30). -/
def nnodes (n : Nat) : Nat := if n = 0 then 0 else 2 * n - 1

/-- `n` drawn bytes, the next free values after the first `k` (R10, R123, R140). -/
def drawnBytes (k n : Nat) : List Byte := (List.range n).map fun j => Config.drawByte (k + j)

/-- Each byte of the range (addr, len) that exists in MEM becomes a draw, independently per byte (R123, R140; U1, U2). -/
def drawRange (addr len : Nat) (s : State) : State :=
  let n := min (addr + len) (Config.memBytes s.memSize) - addr
  { s with
    mem := Memory.writeBytes s.mem addr (drawnBytes s.drawCount n)
    drawCount := s.drawCount + n }

/-- Clearing TREE_VALID: it also clears CODES_VALID, sets NLEAF to 0 and ROOT to NO_NODE (R34). -/
def clearTree (s : State) : State :=
  { s with treeValid := false, codesValid := false, nleaf := 0#9, root := Config.noNode }

/-- Command issue: an OKAY write of `w` to CMD while BUSY = 0 (R108). BUSY becomes 1 because the latch now holds a
command. -/
def issue (w : Word) (s : State) : State :=
  { s with
    latch := some { word := w, a0 := s.arg0, a1 := s.arg1, a2 := s.arg2, a3 := s.arg3 }
    lastOpc := opcField w
    done := false
    err := .ok
    res0 := 0#32
    res1 := 0#32
    errInfo := 0#32 }

/-- Successful completion, after the command's effects are in `s`: ERR ← 0, BUSY ← 0, DONE ← 1, latch ← empty (R109);
ERR_INFO is 0 after a successful command (R24). -/
def complete (s : State) : State :=
  { s with err := .ok, errInfo := 0#32, done := true, latch := none }

/-- The codes whose failure makes the destination range unspecified: 4, 5, 6 and 7 (R123). -/
def ErrCode.spoilsDestination (c : ErrCode) : Bool := 4 ≤ c.code.toNat

/-- The destination range after a failure with code `c` (R123). -/
def spoilDestination (l : Latch) (c : ErrCode) (s : State) : State :=
  if c.spoilsDestination then drawRange l.a2.toNat l.a3.toNat s else s

/-- `raise Error(code, info)`: the effects of a failure (R123). FREQ, the tree, the code table and the validity flags are
unchanged. -/
def raiseError (l : Latch) (c : ErrCode) (info : Nat) (s : State) : State :=
  { spoilDestination l c s with
    err := c
    errInfo := BitVec.ofNat 32 info
    res0 := 0#32
    res1 := 0#32
    done := true
    latch := none }

/-- The end of the engine step (R109): `r` is the state with the command's effects, or why the command ended early; `s` is
the state as it stood at the step. -/
def finish (l : Latch) (s : State) (r : Run State) : Outcome :=
  match r with
  | .ok t => .next (complete t)
  | .error (.error c info) => .next (raiseError l c info s)
  | .error (.fault f) => .fault f

end Sys2Proof.Machine
end

