-- ==== Sys2Proof/Machine/Operands.lean ====
section
/-! DEFINITION. The operands of a command: what the captured arguments mean (R61), the range check (R60), readiness (R62),
the common checks (R63), and the byte and bit forms of payload and container fields (R9, R47, R48). -/

namespace Sys2Proof.Machine

/-- `ceil8(L)`: the number of bytes that hold L bits (R7). -/
def ceil8 (n : Nat) : Nat := (n + 7) / 8

/-- The range (addr, len) is in MEM (R60). The sum does not wrap. -/
def inMem (M addr len : Nat) : Bool := decide (len = 0) || decide (addr + len ≤ M)

/-- The ranges (a, m) and (b, k) overlap (R60). -/
def overlap (a m b k : Nat) : Bool :=
  decide (0 < m) && decide (0 < k) && decide (a < b + k) && decide (b < a + m)

/-- The source range of a command, if it has one (R61). -/
def sourceRange (i : Instr) (l : Latch) : Option (Nat × Nat) :=
  match i with
  | .buildTree => none
  | .genCodes => none
  | .encode => some (l.a0.toNat, l.a1.toNat)
  | .decode => some (l.a0.toNat, ceil8 l.a1.toNat)
  | .serialize => some (l.a0.toNat, ceil8 l.a1.toNat)
  | .deserialize => some (l.a0.toNat, l.a1.toNat)

/-- The destination range of a command, if it has one (R61). -/
def destRange (i : Instr) (l : Latch) : Option (Nat × Nat) :=
  match i with
  | .buildTree => none
  | .genCodes => none
  | .encode => some (l.a2.toNat, l.a3.toNat)
  | .decode => some (l.a2.toNat, l.a3.toNat)
  | .serialize => some (l.a2.toNat, l.a3.toNat)
  | .deserialize => some (l.a2.toNat, l.a3.toNat)

/-- RangesValid (R60, R61): both ranges are in MEM and they do not overlap. A command with no range has nothing to
check. -/
def rangesValid (M : Nat) (i : Instr) (l : Latch) : Bool :=
  match sourceRange i l, destRange i l with
  | some (a, m), some (b, k) => inMem M a m && inMem M b k && !overlap a m b k
  | _, _ => true

/-- Ready (R62). -/
def ready (i : Instr) (s : State) : Bool :=
  match i with
  | .buildTree => true
  | .genCodes => s.treeValid
  | .encode => s.codesValid
  | .decode => s.treeValid
  | .serialize => true
  | .deserialize => true

/-- PreCheck (R63) after the word has selected the command `i`: readiness, then the ranges. The first check that fails
decides the error (R122). -/
def preCheck (i : Instr) (l : Latch) (s : State) : Run Unit :=
  if ready i s = false then .error (.error .notReady 0)
  else if rangesValid (Config.memBytes s.memSize) i l = false then .error (.error .badRange 0)
  else .ok ()

/-- The engine step of the command `i` (R109): the common checks, then `body` on the latched command and the state as it
stands, then completion or failure. -/
def runCommand (i : Instr) (body : Latch → State → Run State) (s : State) : Outcome :=
  match s.latch with
  | none => .fault .engineIdle
  | some l => finish l s (preCheck i l s >>= fun _ => body l s)

/-- The big-endian value of a byte sequence: be16 and be32 on two and four bytes (R9). -/
def beNat (bs : List Byte) : Nat := bs.foldl (fun acc b => acc * 256 + b.toNat) 0

/-- to_be16 (R9). -/
def toBe16 (v : Nat) : List Byte := [BitVec.ofNat 8 (v / 256), BitVec.ofNat 8 v]

/-- to_be32 (R9). -/
def toBe32 (v : Nat) : List Byte :=
  [BitVec.ofNat 8 (v / 2 ^ 24), BitVec.ofNat 8 (v / 2 ^ 16), BitVec.ofNat 8 (v / 2 ^ 8), BitVec.ofNat 8 v]

/-- Byte k of Pack(p): `byte_k[7 − m] <- p[8·k + m]`, 0 past the end of p (R47). -/
def packByte (p : Bits) (k : Nat) : Byte :=
  (List.range 8).foldl
    (fun acc m => if p.getD (8 * k + m) false then acc ||| (1#8 <<< (7 - m)) else acc) 0#8

/-- Pack(p): the ceil8(|p|) payload bytes of a bit-string, padding bits 0 (R47). -/
def pack (p : Bits) : List Byte := (List.range (ceil8 p.length)).map (packByte p)

/-- PayloadBit(base, j) (R48): bit 7 − (j mod 8) of MEM[base + j div 8]. -/
def payloadBit (m : Memory) (base j : Nat) : Run Bool := do
  let b ← readByte m (base + j / 8)
  return b.getLsbD (7 - j % 8)

/-- FREQ[s] (R27). -/
def freqOf (f : FreqTable) (s : Byte) : Word := f[s.toNat]'(s.isLt)

/-- `FREQ[s] <- v` (R27). -/
def setFreq (f : FreqTable) (s : Byte) (v : Word) : FreqTable := f.set s.toNat v s.isLt

/-- The table with all 256 entries 0 (R99). -/
def emptyFreq : FreqTable := Vector.replicate 256 0#32

/-- The present symbols with their counts, in ascending symbol order (R12, R70, R96). -/
def presentPairs (f : FreqTable) : List (Byte × Word) :=
  f.toList.zipIdx.filterMap fun (c, s) => if c = 0#32 then none else some (BitVec.ofNat 8 s, c)

end Sys2Proof.Machine
end

