-- ==== Sys2Proof/Machine/CodeTable.lean ====
section
/-! DEFINITION. The code-table generator: GenCodes (R78–R82 of spec/41_code_table.md) and the command GEN_CODES (R83). -/

namespace Sys2Proof.Machine

/-- CODE[s] (R32). -/
def codeOf (t : CodeTable) (s : Byte) : Option Bits := t[s.toNat]'(s.isLt)

/-- `C[s] <- {VALID = 1, LEN = |p|, BITS = p}` (R78). -/
def setCode (c : CodeTable) (s : Byte) (p : Bits) : CodeTable := c.set s.toNat (some p) s.isLt

/-- The fresh table: every entry has VALID = 0 (R78, R80). -/
def emptyCodes : CodeTable := Vector.replicate 256 none

/-- Walk(i, p) of R78. Children have smaller indices than their parent (R30), so a walk of a valid tree is at most
MAX_NODES deep; the first argument runs out only in a node list that is no tree, which is a fault. -/
def walkCodes (nodes : List Node) : Nat → NodeIdx → Bits → CodeTable → Run CodeTable
  | 0, i, _, _ => .error (.fault (.invalidNode i.toNat))
  | fuel + 1, i, p, c => do
    match ← nodeAt nodes i with
    | .leaf s _ => return setCode c s p
    | .internal _ l r =>
      let c₁ ← walkCodes nodes fuel l (p ++ [false]) c
      walkCodes nodes fuel r (p ++ [true]) c₁

/-- GenCodes (R78): no code for the empty tree, the code [0] for a single leaf (R79), else the walk from the root. -/
def genCodes (nodes : List Node) (n : Nat) (root : NodeIdx) : Run CodeTable :=
  if n = 0 then .ok emptyCodes
  else if n = 1 then do
    let nd ← nodeAt nodes root
    return setCode emptyCodes nd.symbol [false]
  else walkCodes nodes Config.maxNodes root [] emptyCodes

/-- LEN of an entry; 0 if it is not valid. -/
def codeLen (e : Option Bits) : Nat :=
  match e with
  | some p => p.length
  | none => 0

/-- The largest LEN of a valid entry, 0 if there is none (R83). -/
def maxLen (c : CodeTable) : Nat := c.toList.foldl (fun acc e => max acc (codeLen e)) 0

/-- The effects of GEN_CODES (R83). -/
def genCodesBody (_l : Latch) (s : State) : Run State := do
  let c ← genCodes s.nodes s.nleaf.toNat s.root
  return { s with
    codes := c
    codesValid := true
    res0 := s.nleaf.setWidth 32
    res1 := BitVec.ofNat 32 (maxLen c) }

/-- GEN_CODES: generate the code table from the current tree (R83). -/
def execGenCodes (s : State) : Outcome := runCommand .genCodes genCodesBody s

end Sys2Proof.Machine
end

