-- ==== Sys2Proof/Machine/Container.lean ====
section
/-! DEFINITION. The container codec: the commands SERIALIZE and DESERIALIZE (R95–R106 of spec/44_container.md). -/

namespace Sys2Proof.Machine

/-- T(N, L), the size of a container with N pairs and an L-bit payload (R95). -/
def containerSize (n len : Nat) : Nat := 6 + 5 * n + ceil8 len

/-- The mask `(0xFF << (8 − (L mod 8))) mod 256` that keeps the payload bits of the last byte (R97). -/
def payloadMask (len : Nat) : Byte := BitVec.ofNat 8 (0xFF <<< (8 - len % 8))

/-- The payload bytes with the padding bits of the last byte cleared (R97). -/
def clearPadding (pb : List Byte) (len : Nat) : List Byte :=
  if len % 8 = 0 then pb
  else pb.modify (ceil8 len - 1) fun b => b &&& payloadMask len

/-- One (symbol, frequency) pair of the container (R95). -/
def pairBytes (p : Byte × Word) : List Byte := p.1 :: toBe32 p.2.toNat

/-- The container of a list of pairs (R95). -/
def containerOf (pairs : List (Byte × Word)) (pb : List Byte) (len : Nat) : List Byte :=
  toBe16 pairs.length ++ pairs.flatMap pairBytes ++ toBe32 len ++ clearPadding pb len

/-- Serialize(F, pb, L) (R97): one pair for each present symbol, in ascending order (R96). -/
def serialize (f : FreqTable) (pb : List Byte) (len : Nat) : List Byte := containerOf (presentPairs f) pb len

/-- The effects of SERIALIZE (R98). -/
def serializeBody (l : Latch) (s : State) : Run State := do
  let size := containerSize (presentPairs s.freq).length l.a1.toNat
  if l.a3.toNat < size then .error (.error .outputOverflow size)
  else do
    let pb ← readBytes s.mem l.a0.toNat (ceil8 l.a1.toNat)
    return { s with
      mem := Memory.writeBytes s.mem l.a2.toNat (serialize s.freq pb l.a1.toNat)
      res0 := BitVec.ofNat 32 size
      res1 := l.a1 }

/-- SERIALIZE: write the container for (FREQ, payload) to a2 (R98). -/
def execSerialize (s : State) : Outcome := runCommand .serialize serializeBody s

/-- The pair loop of Parse (R99) from pair `k` on, `n` pairs to go, with the shadow table (R104) and the symbols seen. -/
def parsePairs (m : Memory) (a0 : Nat) : Nat → Nat → FreqTable → List Byte → Run FreqTable
  | 0, _, f, _ => .ok f
  | n + 1, k, f, seen => do
    let s ← readByte m (a0 + 2 + 5 * k)
    let c ← readBytes m (a0 + 3 + 5 * k) 4
    if s ∈ seen then .error (.error .corruptContainer (2 + 5 * k))
    else if beNat c = 0 then .error (.error .corruptContainer (3 + 5 * k))
    else parsePairs m a0 n (k + 1) (setFreq f s (BitVec.ofNat 32 (beNat c))) (s :: seen)

/-- What Parse returns (R99), with N = COUNT beside it. -/
structure Parsed where
  freq : FreqTable
  count : Nat
  len : Nat
  payload : List Byte
deriving DecidableEq, Repr

/-- The mask `0xFF >> (L mod 8)` of the padding bits of the last byte (R99). -/
def paddingMask (len : Nat) : Byte := BitVec.ofNat 8 (0xFF >>> (len % 8))

/-- Parse's check that the padding bits of a payload of `len` bits at `base` are 0 (R99, R103); `off` is the last byte's
offset in the container. -/
def checkPadding (m : Memory) (base off len : Nat) : Run Unit :=
  if 0 < ceil8 len ∧ len % 8 ≠ 0 then do
    let last ← readByte m (base + ceil8 len - 1)
    if last &&& paddingMask len ≠ 0#8 then .error (.error .corruptContainer off) else .ok ()
  else .ok ()

/-- Parse from the check of BITLEN on (R99), in a container of `size` bytes at `a0` with `n` pairs whose BITLEN field
holds `len`: the payload's bytes. -/
def parsePayload (m : Memory) (a0 size n len : Nat) : Run (List Byte) :=
  let p := ceil8 len
  if size < 6 + 5 * n + p then .error (.error .malformedPayload (2 + 5 * n))
  else if 6 + 5 * n + p < size then .error (.error .corruptContainer (6 + 5 * n + p))
  else do
    checkPadding m (a0 + 6 + 5 * n) (5 + 5 * n + p) len
    if n = 0 ∧ len ≠ 0 then .error (.error .malformedPayload 2)
    else readBytes m (a0 + 6 + 5 * n) p

/-- Parse from the check of COUNT on (R99): the container of `size` bytes at `a0` whose COUNT field holds `n`. -/
def parseTable (m : Memory) (a0 size n : Nat) : Run Parsed :=
  if 256 < n then .error (.error .corruptContainer 0)
  else if size < 6 + 5 * n then .error (.error .corruptContainer size)
  else do
    let f ← parsePairs m a0 n 0 emptyFreq []
    let lenBytes ← readBytes m (a0 + 2 + 5 * n) 4
    let pb ← parsePayload m a0 size n (beNat lenBytes)
    return { freq := f, count := n, len := beNat lenBytes, payload := pb }

/-- Parse(a0, a1) (R99): the container of `size` bytes at `a0`. -/
def parse (m : Memory) (a0 size : Nat) : Run Parsed :=
  if size < 2 then .error (.error .corruptContainer size)
  else do
    let countBytes ← readBytes m a0 2
    parseTable m a0 size (beNat countBytes)

/-- The effects of DESERIALIZE (R105): FREQ is committed only when every check has passed (R104). -/
def deserializeBody (l : Latch) (s : State) : Run State := do
  let c ← parse s.mem l.a0.toNat l.a1.toNat
  if l.a3.toNat < ceil8 c.len then .error (.error .outputOverflow (6 + 5 * c.count))
  else
    return { clearTree s with
      freq := c.freq
      mem := Memory.writeBytes s.mem l.a2.toNat c.payload
      res0 := BitVec.ofNat 32 (ceil8 c.len)
      res1 := BitVec.ofNat 32 c.len }

/-- DESERIALIZE: parse the container of a1 bytes at a0, load FREQ and copy the payload to a2 (R105). -/
def execDeserialize (s : State) : Outcome := runCommand .deserialize deserializeBody s

end Sys2Proof.Machine
end

