-- ==== Sys2Proof/Machine/Decoder.lean ====
section
/-! DEFINITION. The bit-stream decoder: the command DECODE (R88–R94 of spec/43_decoder.md). The symbols are collected and
written together at the end: the source and the destination range do not overlap (R60), so no read of the command sees
a byte it wrote (R145), and a failure makes the whole destination range a draw (R123). DEDUCED, log entry 9. -/

namespace Sys2Proof.Machine

/-- The single-leaf loop (R89, R94) from payload bit `j` on, `n` bits to go, `out` the symbols emitted so far. -/
def decodeLeafFrom (sym : Byte) (m : Memory) (a0 cap : Nat) : Nat → Nat → List Byte → Run (List Byte)
  | 0, _, out => .ok out
  | n + 1, j, out => do
    let b ← payloadBit m a0 j
    if b then .error (.error .malformedPayload j)
    else if out.length = cap then .error (.error .outputOverflow j)
    else decodeLeafFrom sym m a0 cap n (j + 1) (out ++ [sym])

/-- The tree walk (R88, R92, R94) from payload bit `j` on, `n` bits to go, at node `cur`. It answers the node at which it
stands when the bits are used up, and the symbols emitted. -/
def decodeFrom (nodes : List Node) (root : NodeIdx) (m : Memory) (a0 cap : Nat) :
    Nat → Nat → NodeIdx → List Byte → Run (NodeIdx × List Byte)
  | 0, _, cur, out => .ok (cur, out)
  | n + 1, j, cur, out => do
    let b ← payloadBit m a0 j
    let here ← nodeAt nodes cur
    let next := if b then here.right else here.left
    match ← nodeAt nodes next with
    | .leaf sym _ =>
      if out.length = cap then .error (.error .outputOverflow j)
      else decodeFrom nodes root m a0 cap n (j + 1) root (out ++ [sym])
    | .internal _ _ _ => decodeFrom nodes root m a0 cap n (j + 1) next out

/-- The symbols of a payload of `len` bits at `a0`, by the number of leaves of the tree (R88–R94). -/
def decodePayload (nodes : List Node) (n : Nat) (root : NodeIdx) (m : Memory) (a0 len cap : Nat) : Run (List Byte) :=
  if n = 0 then
    if len = 0 then .ok [] else .error (.error .malformedPayload 0)
  else if n = 1 then do
    let nd ← nodeAt nodes root
    decodeLeafFrom nd.symbol m a0 cap len 0 []
  else do
    let (cur, out) ← decodeFrom nodes root m a0 cap len 0 root []
    if cur = root then return out else .error (.error .malformedPayload len)

/-- The effects of DECODE (R94). -/
def decodeBody (l : Latch) (s : State) : Run State := do
  let out ← decodePayload s.nodes s.nleaf.toNat s.root s.mem l.a0.toNat l.a1.toNat l.a3.toNat
  return { s with
    mem := Memory.writeBytes s.mem l.a2.toNat out
    res0 := BitVec.ofNat 32 out.length
    res1 := l.a1 }

/-- DECODE: decode an L-bit payload at a0 into symbols at a2 (R94). -/
def execDecode (s : State) : Outcome := runCommand .decode decodeBody s

end Sys2Proof.Machine
end

