-- ==== Sys2Proof/Machine/Encoder.lean ====
section
/-! DEFINITION. The bit-stream encoder: the command ENCODE (R84–R87 of spec/42_encoder.md). -/

namespace Sys2Proof.Machine

/-- The loop of R87 from symbol `i` on, `n` symbols to go, `bits` encoded so far. For one symbol UNKNOWN_SYMBOL is checked
before OUTPUT_OVERFLOW. -/
def encodeFrom (c : CodeTable) (m : Memory) (a0 cap : Nat) : Nat → Nat → Bits → Run Bits
  | 0, _, bits => .ok bits
  | n + 1, i, bits => do
    let s ← readByte m (a0 + i)
    match codeOf c s with
    | none => .error (.error .unknownSymbol i)
    | some code =>
      if cap < ceil8 (bits ++ code).length then .error (.error .outputOverflow i)
      else encodeFrom c m a0 cap n (i + 1) (bits ++ code)

/-- The effects of ENCODE (R87). The payload is written in one piece at the end (DEDUCED, log entry 9). -/
def encodeBody (l : Latch) (s : State) : Run State := do
  let bits ← encodeFrom s.codes s.mem l.a0.toNat l.a3.toNat l.a1.toNat 0 []
  return { s with
    mem := Memory.writeBytes s.mem l.a2.toNat (pack bits)
    res0 := BitVec.ofNat 32 (ceil8 bits.length)
    res1 := BitVec.ofNat 32 bits.length }

/-- ENCODE: encode a1 symbols at a0 into a packed payload at a2 (R87). -/
def execEncode (s : State) : Outcome := runCommand .encode encodeBody s

end Sys2Proof.Machine
end

