-- ==== Sys2Proof/Machine/TreeBuilder.lean ====
section
/-! DEFINITION. The tree builder: BuildTree (R70–R75 of spec/40_tree_builder.md) and the command BUILD_TREE (R77). -/

namespace Sys2Proof.Machine

/-- A member of the priority queue: a node index with the node's frequency, the two parts of its key (R71). The
frequency is exact; R74 shows that it fits the 40 bits of the entry (DEDUCED, log entry 16). -/
structure Key where
  freq : Nat
  idx : Nat
deriving DecidableEq, Repr

/-- What BuildTree returns (R70). -/
structure Tree where
  nodes : List Node
  n : Nat
  root : NodeIdx
deriving DecidableEq, Repr

/-- The key order of R71: lexicographic on (frequency, node index). -/
def Key.before (a b : Key) : Bool :=
  decide (a.freq < b.freq) || (decide (a.freq = b.freq) && decide (a.idx < b.idx))

/-- `i <- MinKey(Q) ; Q <- Q \ {i}` (R70, R71): the member with the least key and the others; `none` if Q is empty. -/
def extractMin : List Key → Option (Key × List Key)
  | [] => none
  | k :: ks =>
    match extractMin ks with
    | none => some (k, [])
    | some (m, rest) => if k.before m then some (k, ks) else some (m, k :: rest)

/-- The internal node made from the first and the second extracted node: the first becomes LEFT, the second RIGHT, and
the frequency is their sum (R70, R72). -/
def mergeNode (i j : Key) : Node :=
  .internal (BitVec.ofNat 40 (i.freq + j.freq)) (BitVec.ofNat 9 i.idx) (BitVec.ofNat 9 j.idx)

/-- The loop `while |Q| >= 2` of R70, on the node list so far (`next` is its length) and Q. Each pass takes two members
from Q and puts one back, so |Q| passes are enough and the first argument never runs out. -/
def mergeLoop : Nat → List Node → List Key → List Node × List Key
  | 0, nodes, q => (nodes, q)
  | fuel + 1, nodes, q =>
    match extractMin q with
    | none => (nodes, q)
    | some (i, q₁) =>
      match extractMin q₁ with
      | none => (nodes, q)
      | some (j, q₂) =>
        mergeLoop fuel (nodes ++ [mergeNode i j]) (q₂ ++ [⟨i.freq + j.freq, nodes.length⟩])

/-- The leaves, in ascending symbol order (R70). -/
def leafNodes (f : FreqTable) : List Node :=
  (presentPairs f).map fun (s, c) => .leaf s (c.setWidth 40)

/-- The first Q: every leaf's index with its frequency (R70). -/
def leafKeys (f : FreqTable) : List Key :=
  (presentPairs f).zipIdx.map fun ((_, c), k) => ⟨c.toNat, k⟩

/-- `root`: the one element of Q at the end, NO_NODE for the empty tree (R70, R73). -/
def rootOf : List Key → NodeIdx
  | [k] => BitVec.ofNat 9 k.idx
  | _ => Config.noNode

/-- BuildTree (R70). -/
def buildTree (f : FreqTable) : Tree :=
  let out := mergeLoop (leafKeys f).length (leafNodes f) (leafKeys f)
  { nodes := out.1, n := (leafNodes f).length, root := rootOf out.2 }

/-- The effects of BUILD_TREE (R77). -/
def buildTreeBody (_l : Latch) (s : State) : Run State :=
  let t := buildTree s.freq
  .ok { s with
    nodes := t.nodes
    nleaf := BitVec.ofNat 9 t.n
    root := t.root
    treeValid := true
    codesValid := false
    res0 := BitVec.ofNat 32 t.n
    res1 := BitVec.ofNat 32 t.nodes.length }

/-- BUILD_TREE: build the tree from FREQ (R77). -/
def execBuildTree (s : State) : Outcome := runCommand .buildTree buildTreeBody s

end Sys2Proof.Machine
end

