-- ==== Sys2Proof/Machine/Reset.lean ====
section
/-! DEFINITION. The two resets (R137–R140 of spec/70_reset_and_hazards.md). -/

namespace Sys2Proof.Machine

/-- The state after the event rst_n (R138, R139): every element at its reset value, every byte of MEM unwritten. The model's
own fields are no part of the block: MEM_BYTES, the events to come and the count of drawn values stay. -/
def hardwareReset (s : State) : State :=
  { State.reset with memSize := s.memSize, hostQueue := s.hostQueue, drawCount := s.drawCount }

/-- The destination range of the running command, if a command runs and has one (R140). A reserved word has none. -/
def runningDest (s : State) : Option (Nat × Nat) :=
  match s.latch with
  | none => none
  | some l =>
    match Sys2Proof.decode l.word with
    | .ok i => destRange i l
    | .error _ => none

/-- Abandoning the running command: each byte of its destination range becomes a draw (R140). -/
def abandon (s : State) : State :=
  match runningDest s with
  | none => s
  | some (addr, len) => drawRange addr len s

/-- The soft reset (R138, R140): every element at its reset value except MEM, which is kept but for the destination range of
an abandoned command. -/
def softReset (s : State) : State :=
  { hardwareReset (abandon s) with mem := (abandon s).mem }

end Sys2Proof.Machine
end

