-- ==== Sys2Proof/Machine/HostPort.lean ====
section
/-! DEFINITION. The host port: which transactions it takes (R41, R43 of spec/20_memory.md), what a read returns and a
write does (R16–R31, R36 of spec/10_state.md), and what changes while a command runs (R107–R113 of
spec/45_host_interface.md). -/

namespace Sys2Proof.Machine

/-- The size of an access in bytes. -/
def AccessSize.bytes : AccessSize → Nat
  | .bits8 => 1
  | .bits16 => 2
  | .bits32 => 4

/-- The control registers 0x000–0x037 (register map of spec/10_state.md). -/
def controlRegister (off : Nat) : Option Target :=
  match off with
  | 0x000 => some .id
  | 0x004 => some .params
  | 0x008 => some .cmd
  | 0x00C => some .ctrl
  | 0x010 => some .status
  | 0x014 => some .arg0
  | 0x018 => some .arg1
  | 0x01C => some .arg2
  | 0x020 => some .arg3
  | 0x024 => some .res0
  | 0x028 => some .res1
  | 0x02C => some .errInfo
  | 0x030 => some .nleaf
  | 0x034 => some .root
  | _ => none

/-- What a word-aligned offset below the MEM window names (register map of spec/10_state.md); `none` if it is
unmapped. -/
def wordTarget (off : Nat) : Option Target :=
  if off < 0x400 then controlRegister off
  else if off < 0x800 then some (.freq (BitVec.ofNat 8 ((off - 0x400) / 4)))
  else if off < 0xC00 then some (.codeLen (BitVec.ofNat 8 ((off - 0x800) / 4)))
  else if off < 0x2000 then none
  else if off < 0x4000 then some (.codeBits (BitVec.ofNat 8 ((off - 0x2000) / 32)) ((off - 0x2000) / 4 % 8))
  else if off < 0x5FF0 then some (.node ((off - 0x4000) / 16) ((off - 0x4000) / 4 % 4))
  else none

/-- What a transaction at offset `off` of size `sz` reaches; `none` is the ERROR response (R41, R43): an unmapped offset, a
wrong size or alignment, or an access past MEM_BYTES. -/
def hostTarget (m : MemSize) (off : Nat) (sz : AccessSize) : Option Target :=
  if 0x10000 ≤ off then
    if off % sz.bytes = 0 ∧ off - 0x10000 + sz.bytes ≤ Config.memBytes m then some (.mem (off - 0x10000)) else none
  else if sz = .bits32 ∧ off % 4 = 0 then wordTarget off
  else none

/-- The table windows and the MEM window: an access to one of them while BUSY = 1 is a conflicting access (R112). -/
def Target.isWindow : Target → Bool
  | .freq _ => true
  | .codeLen _ => true
  | .codeBits _ _ => true
  | .node _ _ => true
  | .mem _ => true
  | .id => false
  | .params => false
  | .cmd => false
  | .ctrl => false
  | .status => false
  | .arg0 => false
  | .arg1 => false
  | .arg2 => false
  | .arg3 => false
  | .res0 => false
  | .res1 => false
  | .errInfo => false
  | .nleaf => false
  | .root => false

/-- PARAMS: MAX_NODES in bits 31:16, MAX_CODE_LEN in bits 15:8, log2(MEM_BYTES) in bits 7:0 (R17). -/
def paramsWord (m : MemSize) : Word :=
  BitVec.ofNat 16 Config.maxNodes ++ BitVec.ofNat 8 Config.maxCodeLen ++ BitVec.ofNat 8 (Config.log2MemBytes m)

/-- CODE[s] as the windows show it: nothing while CODES_VALID = 0 (R28, R29, R32). -/
def shownCode (s : State) (sym : Byte) : Option Bits := if s.codesValid then codeOf s.codes sym else none

/-- The CODE_LEN window (R28): 256·LEN + 1 for a valid entry, else 0. -/
def codeLenWord (e : Option Bits) : Word :=
  match e with
  | some p => BitVec.ofNat 32 (256 * p.length + 1)
  | none => 0#32

/-- Word k of the CODE_BITS window (R29): bit 31 − m is bit 32·k + m of the code, 0 past its end. -/
def codeBitsWord (e : Option Bits) (k : Nat) : Word :=
  match e with
  | some p =>
    (List.range 32).foldl
      (fun acc m => if p.getD (32 * k + m) false then acc ||| (1#32 <<< (31 - m)) else acc) 0#32
  | none => 0#32

/-- NODE[i] as the window shows it: nothing while TREE_VALID = 0 (R30, R31). -/
def shownNode (s : State) (i : Nat) : Option Node := if s.treeValid then s.nodes[i]? else none

/-- Word w of the NODE window (R31): all 0 for an entry that is not valid. -/
def nodeWord (e : Option Node) (w : Nat) : Word :=
  match e with
  | none => 0#32
  | some nd =>
    match w with
    | 0 => 0#16 ++ nd.symbol ++ 0#6 ++ BitVec.ofBool nd.isLeaf ++ 1#1
    | 1 => nd.freq.extractLsb' 0 32
    | 2 => 0#24 ++ nd.freq.extractLsb' 32 8
    | _ => 0#7 ++ nd.right ++ 0#7 ++ nd.left

/-- The value of `n` bytes read little-endian: byte k in data bits 8k + 7 .. 8k (R42); the bits above them are 0 (DEDUCED,
log entry 8). -/
def leWord (bs : List Byte) : Word := BitVec.ofNat 32 (bs.foldr (fun b acc => b.toNat + 256 * acc) 0)

/-- The bytes of a write of `n` bytes: byte k is data bits 8k + 7 .. 8k (R42). -/
def leBytes (n : Nat) (data : Word) : List Byte := (List.range n).map fun k => data.extractLsb' (8 * k) 8

/-- The value an OKAY read returns while it is no conflicting access (R16–R31, R36, R42, R113). A read of an unwritten MEM
byte has none: its address is answered. -/
def readTarget (t : Target) (sz : AccessSize) (s : State) : Except Nat Word :=
  match t with
  | .id => .ok Config.idValue
  | .params => .ok (paramsWord s.memSize)
  | .cmd => .ok 0#32
  | .ctrl => .ok (ctrlWord s)
  | .status => .ok (statusWord s)
  | .arg0 => .ok s.arg0
  | .arg1 => .ok s.arg1
  | .arg2 => .ok s.arg2
  | .arg3 => .ok s.arg3
  | .res0 => .ok s.res0
  | .res1 => .ok s.res1
  | .errInfo => .ok s.errInfo
  | .nleaf => .ok (s.nleaf.setWidth 32)
  | .root => .ok (s.root.setWidth 32)
  | .freq sym => .ok (freqOf s.freq sym)
  | .codeLen sym => .ok (codeLenWord (shownCode s sym))
  | .codeBits sym k => .ok (codeBitsWord (shownCode s sym) k)
  | .node i w => .ok (nodeWord (shownNode s i) w)
  | .mem a =>
    match Memory.readMany s.mem a sz.bytes with
    | .ok bs => .ok (leWord bs)
    | .error x => .error x

/-- A host write to FREQ[sym] while BUSY = 0 (R27): it clears the tree even if the value is the old one. -/
def writeFreq (sym : Byte) (v : Word) (s : State) : State :=
  { clearTree s with freq := setFreq s.freq sym v }

/-- A write to CMD: it issues a command while BUSY = 0 (R108), and only sets HOST_CONFLICT while BUSY = 1 (R111). -/
def writeCmd (w : Word) (s : State) : State :=
  if s.busy then { s with hostConflict := true } else issue w s

/-- A write to CTRL (R19): with bit 1 = 1 the soft reset, else IRQ_EN becomes bit 0. -/
def writeCtrl (data : Word) (s : State) : State :=
  if data.getLsbD 1 then softReset s else { s with irqEn := data.getLsbD 0 }

/-- The effect of an OKAY write that is no conflicting access (R16–R31, R36, R44, R113). -/
def writeTarget (t : Target) (sz : AccessSize) (data : Word) (s : State) : State :=
  match t with
  | .id => s
  | .params => s
  | .cmd => writeCmd data s
  | .ctrl => writeCtrl data s
  | .status => writeStatus data s
  | .arg0 => { s with arg0 := data }
  | .arg1 => { s with arg1 := data }
  | .arg2 => { s with arg2 := data }
  | .arg3 => { s with arg3 := data }
  | .res0 => s
  | .res1 => s
  | .errInfo => s
  | .nleaf => s
  | .root => s
  | .freq sym => writeFreq sym data s
  | .codeLen _ => s
  | .codeBits _ _ => s
  | .node _ _ => s
  | .mem a => { s with mem := Memory.writeBytes s.mem a (leBytes sz.bytes data) }

/-- The port's answer to a read: the response and the data (R107). -/
def answerRead (bus : BusResponse) (data : Word) (s : State) : State :=
  { s with response := some ⟨bus, some data⟩ }

/-- The port's answer to a write (R107). -/
def answerWrite (bus : BusResponse) (s : State) : State := { s with response := some ⟨bus, none⟩ }

/-- A drawn 32-bit value masked to the access size (R112). -/
def maskToSize (sz : AccessSize) (v : Word) : Word :=
  match sz with
  | .bits8 => v &&& 0xFF#32
  | .bits16 => v &&& 0xFFFF#32
  | .bits32 => v

/-- A conflicting read (R112): a drawn value, and HOST_CONFLICT ← 1. -/
def conflictRead (sz : AccessSize) (s : State) : State :=
  answerRead .okay (maskToSize sz (Config.drawWord s.drawCount))
    { s with hostConflict := true, drawCount := s.drawCount + 1 }

/-- A conflicting write (R112): it is ignored, and HOST_CONFLICT ← 1. -/
def conflictWrite (s : State) : State := answerWrite .okay { s with hostConflict := true }

/-- The transaction read(offset, size) (R107, R43, R112); a read of an unwritten MEM byte is the fault of U4. -/
def hostRead (off : HostOffset) (sz : AccessSize) (s : State) : Outcome :=
  match hostTarget s.memSize off.toNat sz with
  | none => .next (answerRead .error 0#32 s)
  | some t =>
    if s.busy && t.isWindow then .next (conflictRead sz s)
    else
      match readTarget t sz s with
      | .ok v => .next (answerRead .okay v s)
      | .error x => .fault (.unwrittenRead x)

/-- The transaction write(offset, size, data) (R107, R43, R112). -/
def hostWrite (off : HostOffset) (sz : AccessSize) (data : Word) (s : State) : Outcome :=
  match hostTarget s.memSize off.toNat sz with
  | none => .next (answerWrite .error s)
  | some t =>
    if s.busy && t.isWindow then .next (conflictWrite s)
    else .next (answerWrite .okay (writeTarget t sz data s))

end Sys2Proof.Machine
end

