-- ==== Sys2Proof/Machine/Engine.lean ====
section
/-! DEFINITION. What one event does: a host transaction, a hardware reset, or the engine step (R13, R109, R137). -/

namespace Sys2Proof.Machine

/-- The next event of the queue is taken off it. -/
def State.takeEvent (s : State) : State := { s with hostQueue := s.hostQueue.tail }

/-- The engine step (R109), enabled iff BUSY = 1: the latched word selects a command, which `exec` runs, or it is reserved
and the command fails with BAD_COMMAND (R63, R64). An idle engine leaves the state as it is. -/
def engineStep (s : State) : Outcome :=
  match s.latch with
  | none => .next s
  | some l =>
    match Sys2Proof.decode l.word with
    | .ok i => exec i s
    | .error _ => .next (raiseError l .badCommand 0 s)

/-- One event. -/
def hostEvent (e : HostEvent) (s : State) : Outcome :=
  match e with
  | .read off sz => hostRead off sz s
  | .write off sz data => hostWrite off sz data s
  | .hardwareReset => .next (hardwareReset s)
  | .engineTurn => engineStep s

end Sys2Proof.Machine
end

