-- ==== Sys2Proof/Machine/Step.lean ====
section
/-! DEFINITION. One step of the block: the next event from outside, or the engine's step (R13, R53, R109). -/

namespace Sys2Proof.Machine

/-- One step. While events are queued the oldest one happens; when none is left the engine takes its step, which is the
weak fairness of R110. With an empty queue and an idle engine the block waits for the host (R138): the state stays. -/
def step (s : State) : Host.Outcome State Fault Refusal :=
  match s.hostQueue with
  | [] => engineStep s
  | e :: _ => hostEvent e s.takeEvent

/-- `s` with a command word issued (R108), the engine's turn next. The block fetches no instruction (R14): a command word
arrives by a host write to CMD, and this stands for that write (log entry 3). -/
def State.withFetchWord (s : State) (nbits w : Nat) : State :=
  { issue (tableWord nbits w) s with hostQueue := .engineTurn :: s.hostQueue }

end Sys2Proof.Machine
end

