-- ==== Sys2Proof/Machine/HostProgram.lean ====
section
/-! DEFINITION. The host-program notation (R67, R68 of spec/30_encoding.md) as lists of events for `State.hostQueue`. EXPECT
is an assertion of a test and no event. -/

namespace Sys2Proof.Machine.HostProgram

/-- `WR off, v` (R67). -/
def wr (off : Nat) (v : Word) : HostEvent := .write (BitVec.ofNat 17 off) .bits32 v

/-- `RD off` (R67). -/
def rd (off : Nat) : HostEvent := .read (BitVec.ofNat 17 off) .bits32

/-- `WB a, v` (R67). -/
def wb (a : Nat) (v : Word) : HostEvent := .write (BitVec.ofNat 17 (0x10000 + a)) .bits8 v

/-- `WH a, v` (R67). -/
def wh (a : Nat) (v : Word) : HostEvent := .write (BitVec.ofNat 17 (0x10000 + a)) .bits16 v

/-- `WW a, v` (R67). -/
def ww (a : Nat) (v : Word) : HostEvent := .write (BitVec.ofNat 17 (0x10000 + a)) .bits32 v

/-- `RB a` (R67). -/
def rb (a : Nat) : HostEvent := .read (BitVec.ofNat 17 (0x10000 + a)) .bits8

/-- `RW a` (R67). -/
def rw32 (a : Nat) : HostEvent := .read (BitVec.ofNat 17 (0x10000 + a)) .bits32

/-- `SETFREQ s, f` (R68). -/
def setFreq (s : Byte) (f : Word) : HostEvent := wr (0x400 + 4 * s.toNat) f

/-- `ISSUE op` (R68). -/
def issueOp (i : Instr) : HostEvent := wr 0x008 (Sys2Proof.encode i)

/-- `WAIT` (R68): STATUS is read until BUSY = 0. `k` reads come before the engine's step, one after it. -/
def wait (k : Nat) : List HostEvent := List.replicate k (rd 0x010) ++ [.engineTurn, rd 0x010]

/-- `RUN op, a0, a1, a2, a3` (R68). -/
def runArgs (i : Instr) (a0 a1 a2 a3 : Word) (k : Nat) : List HostEvent :=
  [wr 0x014 a0, wr 0x018 a1, wr 0x01C a2, wr 0x020 a3, issueOp i] ++ wait k

/-- `RUN op` (R68), for the commands that ignore the arguments. -/
def run (i : Instr) (k : Nat) : List HostEvent := issueOp i :: wait k

/-- `LOAD a, b0 b1 … bk` (R68). -/
def load (a : Nat) (bs : List Byte) : List HostEvent := bs.zipIdx.map fun (b, j) => wb (a + j) (b.setWidth 32)

/-- `ACK` (R68). -/
def ack : HostEvent := wr 0x010 0x00000002#32

end Sys2Proof.Machine.HostProgram
end

