-- ==== Sys2Proof/Safety.lean ====
section
/-! DEFINITION. What claims are stated in terms of: the invariant of the block (R34 of spec/10_state.md, R109 of
spec/45_host_interface.md) and what a safe outcome is (U4 of spec/93_implementation_defined.md). -/

namespace Sys2Proof.Machine

/-- The invariant every step keeps. -/
structure State.Inv (s : State) : Prop where
  /-- MEM is in canonical form. -/
  memWf : Memory.wf s.mem
  /-- MEM holds no byte outside 0..MEM_BYTES−1 (R36). -/
  memWithin : Memory.within (Config.memBytes s.memSize) s.mem
  /-- The first invariant of R34: TREE_VALID = 1 implies that the node store, NLEAF and ROOT equal BuildTree(FREQ). -/
  tree : s.treeValid = true →
    s.nodes = (buildTree s.freq).nodes ∧ s.nleaf = BitVec.ofNat 9 (buildTree s.freq).n ∧ s.root = (buildTree s.freq).root
  /-- Whenever TREE_VALID is clear, so is CODES_VALID, NLEAF is 0 and ROOT is NO_NODE (R34). -/
  noTree : s.treeValid = false → s.codesValid = false ∧ s.nleaf = 0#9 ∧ s.root = Config.noNode
  /-- The second invariant of R34: CODES_VALID = 1 implies CODE = GenCodes(node store, NLEAF, ROOT). -/
  codes : s.codesValid = true → genCodes s.nodes s.nleaf.toNat s.root = .ok s.codes
  /-- While BUSY = 1: DONE = 0, ERR = 0 and RES0 = RES1 = ERR_INFO = 0 (R108, R109). -/
  running : s.busy = true →
    s.done = false ∧ s.err = .ok ∧ s.res0 = 0#32 ∧ s.res1 = 0#32 ∧ s.errInfo = 0#32
  /-- The latch's opc field is STATUS.LAST_OPC (R35). -/
  lastOpc : ∀ l, s.latch = some l → s.lastOpc = opcField l.word

/-- A step that goes on. -/
def SafeOutcome (o : Outcome) : Prop := ∃ t, o = .next t

/-- The step used no value that a rule leaves undefined: it goes on, or it stops at a read of a MEM byte that nothing has
written, which is the host's duty to avoid (R116, U4). -/
def OnlyUnwrittenStops (o : Outcome) : Prop := (∃ t, o = .next t) ∨ ∃ a, o = .fault (.unwrittenRead a)

end Sys2Proof.Machine
end

