-- ==== Sys2Proof/Certificates/Slice0/Obligations.lean ====
section
/-! DEFINITION. The statements for the provers, each `def Obligations.<Name> : Prop`, and the words they are stated in
(`Sys2Proof.Claims`). Statements that name a free value (`Config.drawByte`, `Config.drawWord`) hold for every value of
it. -/

namespace Sys2Proof.Claims

open Sys2Proof.Machine

/-! ### Ranges and bytes -/

/-- A range is in MEM (R60): the sum is taken on unbounded integers. -/
abbrev InMem (M addr len : Nat) : Prop := len = 0 ∨ addr + len ≤ M

/-- Two ranges overlap (R60). -/
abbrev Overlap (a m b k : Nat) : Prop := 0 < m ∧ 0 < k ∧ a < b + k ∧ b < a + m

/-- A source range (a, m) and a destination range (b, k) are valid (R60). -/
abbrev RangesOk (M a m b k : Nat) : Prop := InMem M a m ∧ InMem M b k ∧ ¬ Overlap a m b k

/-- MEM holds the bytes `bs` from address `a` on, all of them written. -/
abbrev HoldsBytes (m : Memory) (a : Nat) (bs : List Byte) : Prop :=
  ∀ k (h : k < bs.length), Memory.read m (a + k) = some bs[k]

/-- The payload bits at `base` are those of `p` (R48). -/
abbrev HoldsBits (m : Memory) (base : Nat) (p : Bits) : Prop :=
  ∀ j (h : j < p.length), payloadBit m base j = .ok p[j]

/-- Every byte outside the `n` bytes at `a` reads as before. -/
abbrev SameOutside (m m' : Memory) (a n : Nat) : Prop :=
  ∀ b, b < a ∨ a + n ≤ b → Memory.read m' b = Memory.read m b

/-- The size in bytes of an `L`-bit payload (R7). -/
abbrev bytesFor (L : Nat) : Nat := (L + 7) / 8

/-! ### The end of a command -/

/-- `s` after a success that changed nothing else: ERR = 0, ERR_INFO = 0, DONE = 1, BUSY = 0 (R109). -/
abbrev completed (s : State) : State := { s with err := .ok, errInfo := 0#32, done := true, latch := none }

/-- `s` after a failure with code `c` and position `info` that left MEM alone (R123). -/
abbrev failed (s : State) (c : ErrCode) (info : Nat) : State :=
  { s with err := c, errInfo := BitVec.ofNat 32 info, res0 := 0#32, res1 := 0#32, done := true, latch := none }

/-- The destination range (a2, a3) of the latched command became draws, one free value per byte, and nothing else of MEM
changed (R123). -/
abbrev Spoiled (l : Latch) (s t : State) : Prop :=
  (∀ a, l.a2.toNat ≤ a → a < l.a2.toNat + l.a3.toNat →
    Memory.read t.mem a = some (Config.drawByte (s.drawCount + (a - l.a2.toNat)))) ∧
  SameOutside s.mem t.mem l.a2.toNat l.a3.toNat

/-- The command fails with code `c` of 4..7 at position `info`: the effects of R123 and nothing else. -/
abbrev FailsSpoiled (s : State) (l : Latch) (c : ErrCode) (info : Nat) (o : Outcome) : Prop :=
  ∃ t, o = .next t ∧ t = { failed s c info with mem := t.mem, drawCount := t.drawCount } ∧ Spoiled l s t

/-- The function `f` on the next state of an outcome. -/
def mapNext (f : State → State) (o : Outcome) : Outcome :=
  match o with
  | .next t => .next (f t)
  | .fault r => .fault r
  | .refused r => .refused r

/-! ### Frequencies, trees and codes -/

/-- The present symbols, in ascending order (R12). -/
def presentSymbols (f : FreqTable) : List Byte :=
  ((List.range 256).map (BitVec.ofNat 8)).filter fun s => freqOf f s != 0#32

/-- The node that a path of bits leads to from node `i`: 0 is left, 1 is right (R78). -/
def followPath (nodes : List Node) : NodeIdx → Bits → Option Node
  | i, [] => nodes[i.toNat]?
  | i, b :: p =>
    match nodes[i.toNat]? with
    | some (.internal _ l r) => followPath nodes (if b then r else l) p
    | _ => none

/-- The children of a node. -/
def kids : Node → List Nat
  | .leaf _ _ => []
  | .internal _ l r => [l.toNat, r.toNat]

/-- A binary prefix tree over symbols (R76). -/
inductive PrefixTree where
  | leaf (s : Byte)
  | node (l r : PrefixTree)

/-- Its leaves from left to right. -/
def PrefixTree.leaves : PrefixTree → List Byte
  | .leaf s => [s]
  | .node l r => l.leaves ++ r.leaves

/-- Its weighted path length Σ FREQ(leaf) × depth(leaf) (R11, R76), where its root stands at depth `d`. -/
def PrefixTree.cost (f : FreqTable) : Nat → PrefixTree → Nat
  | d, .leaf s => (freqOf f s).toNat * d
  | d, .node l r => l.cost f (d + 1) + r.cost f (d + 1)

/-- The code of each symbol of `xs` in the table `c` is the bit-string beside it. -/
abbrev Coded (c : CodeTable) (xs : List (Byte × Bits)) : Prop := ∀ x ∈ xs, codeOf c x.1 = some x.2

/-- The four words of a valid entry of the NODE window (R31). Word 0 is 1 + 2·IS_LEAF + 256·SYMBOL, words 1 and 2 are FREQ,
word 3 is LEFT + 2^16·RIGHT. A leaf has LEFT = RIGHT = NO_NODE = 0x1FF (R30); an internal node shows SYMBOL 0 (R31). -/
def nodeWords : Node → List Nat
  | .leaf y f => [3 + 256 * y.toNat, f.toNat % 2 ^ 32, f.toNat / 2 ^ 32, 0x1FF + 2 ^ 16 * 0x1FF]
  | .internal f l r => [1, f.toNat % 2 ^ 32, f.toNat / 2 ^ 32, l.toNat + 2 ^ 16 * r.toNat]

/-! ### Containers -/

/-- The two bytes of COUNT and the four of a count or of BITLEN, most significant first (R9, R95). -/
def be16Bytes (n : Nat) : List Byte := [BitVec.ofNat 8 (n / 256), BitVec.ofNat 8 n]

@[inherit_doc be16Bytes]
def be32Bytes (n : Nat) : List Byte :=
  [BitVec.ofNat 8 (n / 2 ^ 24), BitVec.ofNat 8 (n / 2 ^ 16), BitVec.ofNat 8 (n / 2 ^ 8), BitVec.ofNat 8 n]

/-- The bytes of a container with COUNT = n from its start through the pairs `ps` (R95). -/
def tableBytes (n : Nat) (ps : List (Byte × Word)) : List Byte :=
  be16Bytes n ++ ps.flatMap fun p => p.1 :: be32Bytes p.2.toNat

/-- Pairs that pass the checks of the table: no symbol is repeated and no count is 0 (R99, R100). -/
abbrev GoodPairs (ps : List (Byte × Word)) : Prop := (ps.map Prod.fst).Nodup ∧ ∀ p ∈ ps, p.2 ≠ 0#32

/-- The padding bits of an `L`-bit payload whose last byte is MEM byte `a` are 0 (R99, R103); there are none if 8 divides L. -/
abbrev PaddingClear (m : Memory) (a L : Nat) : Prop :=
  L % 8 = 0 ∨ ∃ b, Memory.read m a = some b ∧ b.toNat % 2 ^ (8 - L % 8) = 0

/-! ### The host port -/

/-- A host transaction that gets the OKAY response (the register map of spec/10_state.md, R41, R43). -/
abbrev Accepted (m : MemSize) (off : Nat) (sz : AccessSize) : Prop :=
  (sz = .bits32 ∧ off % 4 = 0 ∧ (off < 0x38 ∨ (0x400 ≤ off ∧ off < 0xC00) ∨ (0x2000 ≤ off ∧ off < 0x5FF0))) ∨
  (0x10000 ≤ off ∧ off % sz.bytes = 0 ∧ off - 0x10000 + sz.bytes ≤ Config.memBytes m)

/-- An offset of the table windows or the MEM window (R112). -/
abbrev InWindow (off : Nat) : Prop := 0x400 ≤ off

/-- The state after an OKAY write that changed nothing: the event is taken, the answer given. -/
abbrev wrote (s : State) (es : List HostEvent) : State := { s with hostQueue := es, response := some ⟨.okay, none⟩ }

/-- The state after an OKAY read that returned `v` and changed nothing. -/
abbrev didRead (s : State) (es : List HostEvent) (v : Word) : State :=
  { s with hostQueue := es, response := some ⟨.okay, some v⟩ }

/-- The engine's turn comes next. That an empty queue gives it the turn is the model's choice (log entry 3). -/
abbrev EngineNext (s : State) : Prop := s.hostQueue = [] ∨ s.hostQueue.head? = some .engineTurn

/-- Every element of R138's table but MEM is at its reset value, MEM_BYTES and the events to come are those of `s`. -/
abbrev AtReset (s t : State) : Prop :=
  statusWord t = 0#32 ∧ t.irqEn = false ∧ t.arg0 = 0#32 ∧ t.arg1 = 0#32 ∧ t.arg2 = 0#32 ∧ t.arg3 = 0#32 ∧
  t.res0 = 0#32 ∧ t.res1 = 0#32 ∧ t.errInfo = 0#32 ∧ t.nleaf = 0#9 ∧ t.root = 0x1FF#9 ∧
  (∀ y, freqOf t.freq y = 0#32) ∧ t.treeValid = false ∧ t.codesValid = false ∧ t.latch = none ∧ t.irq = false ∧
  t.memSize = s.memSize

end Sys2Proof.Claims

open Sys2Proof Sys2Proof.Machine Sys2Proof.Claims

/-! ### Command words -/

/-- R59, R58, R63: each command has exactly one word, no other word selects it, and for a word that selects no command the
decoder's reason says which check failed, RSVD first. -/
def Obligations.EachCommandHasExactlyItsWord : Prop :=
  (∀ w i, Sys2Proof.decode w = .ok i ↔ w = Sys2Proof.encode i) ∧
  Sys2Proof.encode .buildTree = 1#32 ∧ Sys2Proof.encode .genCodes = 2#32 ∧ Sys2Proof.encode .encode = 3#32 ∧
  Sys2Proof.encode .decode = 4#32 ∧ Sys2Proof.encode .serialize = 5#32 ∧ Sys2Proof.encode .deserialize = 6#32 ∧
  ∀ w : Word,
    (w.toNat / 16 ≠ 0 → Sys2Proof.decode w = .error .reservedBitsSet) ∧
    (w.toNat / 16 = 0 → (w.toNat % 16 = 0 ∨ 6 < w.toNat % 16) → Sys2Proof.decode w = .error .reservedOpcode) ∧
    (commandWordWellFormed w = true ↔ ∃ i, Sys2Proof.decode w = .ok i)

/-- Words written out from R59's table decode to their commands, and words of R64's reserved space do not. -/
def Obligations.TableWordsDecode : Prop :=
  decodeTableWord 32 0b00000000000000000000000000000001 = some .buildTree ∧
  decodeTableWord 32 0b00000000000000000000000000000010 = some .genCodes ∧
  decodeTableWord 32 0b00000000000000000000000000000011 = some .encode ∧
  decodeTableWord 32 0b00000000000000000000000000000100 = some .decode ∧
  decodeTableWord 32 0b00000000000000000000000000000101 = some .serialize ∧
  decodeTableWord 32 0b00000000000000000000000000000110 = some .deserialize ∧
  decodeTableWord 32 0x00000000 = none ∧ decodeTableWord 32 0x00000007 = none ∧
  decodeTableWord 32 0x00000011 = none ∧ decodeTableWord 32 0x80000003 = none

/-- R69: the example encodings of host transactions; the word write puts the bytes 61 62 72 61 at MEM[0..3]. -/
def Obligations.ExampleTransactions : Prop :=
  HostProgram.issueOp .encode = .write 0x00008#17 .bits32 0x00000003#32 ∧
  HostProgram.setFreq 0x61#8 5#32 = .write 0x00584#17 .bits32 0x00000005#32 ∧
  HostProgram.ww 0 0x61726261#32 = .write 0x10000#17 .bits32 0x61726261#32 ∧
  step { State.reset with hostQueue := [HostProgram.ww 0 0x61726261#32] } =
    .next { State.reset with
      mem := [(0, 0x61#8), (1, 0x62#8), (2, 0x72#8), (3, 0x61#8)], response := some ⟨.okay, none⟩ }

/-! ### Steps and the command lifecycle -/

/-- A step runs the decoded command: when the engine's turn comes and the latched word decodes to `i`, the step is `exec i` on
the state with the turn taken off the queue (R109). While BUSY = 0 the engine step is not enabled (R109), and the turn
changes nothing: an idle block waits for the host (R138). That an empty queue gives the engine its turn is the model's
choice and no rule of the spec: DESIGN CHOICE, log entry 3. -/
def Obligations.StepRunsLatchedCommand : Prop :=
  (∀ s l i, EngineNext s → s.latch = some l → Sys2Proof.decode l.word = .ok i →
    step s = exec i { s with hostQueue := s.hostQueue.tail }) ∧
  (∀ s es, s.hostQueue = .engineTurn :: es → s.latch = none → step s = .next { s with hostQueue := es }) ∧
  ∀ s, s.hostQueue = [] → s.latch = none → step s = .next s

/-- R108, R111: an OKAY write of `w` to CMD while BUSY = 0 issues a command (every word issues, and nothing else changes); while
BUSY = 1 it gets OKAY and changes nothing except HOST_CONFLICT ← 1. -/
def Obligations.CmdWriteIssuesWhileIdle : Prop :=
  (∀ s es w, s.hostQueue = .write 0x00008#17 .bits32 w :: es → s.latch = none →
    step s = .next { wrote s es with
      latch := some ⟨w, s.arg0, s.arg1, s.arg2, s.arg3⟩, lastOpc := w.extractLsb' 0 4, done := false, err := .ok,
      res0 := 0#32, res1 := 0#32, errInfo := 0#32 }) ∧
  ∀ s es w l, s.hostQueue = .write 0x00008#17 .bits32 w :: es → s.latch = some l →
    step s = .next { wrote s es with hostConflict := true }

/-- R64: issuing a reserved word is legal. It completes with BAD_COMMAND, position 0, LAST_OPC showing word[3:0], and no
other effect. -/
def Obligations.ReservedWordFailsWithBadCommand : Prop :=
  ∀ s es (w : Word), s.hostQueue = .write 0x00008#17 .bits32 w :: .engineTurn :: es → s.latch = none →
    (w.toNat / 16 ≠ 0 ∨ w.toNat % 16 = 0 ∨ 6 < w.toNat % 16) →
    ∃ t, step s = .next t ∧ t.busy = true ∧
      step t = .next { failed (wrote s es) .badCommand 0 with lastOpc := w.extractLsb' 0 4 }

/-- R109, R124: the engine step of a latched word ends the command. BUSY = 0, DONE = 1, the latch is empty, ERR and RES agree,
and the elements no command writes are as before. -/
def Obligations.EngineStepEndsTheCommand : Prop :=
  ∀ s t l, s.latch = some l → engineStep s = .next t →
    t.busy = false ∧ t.done = true ∧
    (t.err = .ok → t.errInfo = 0#32) ∧ (t.err ≠ .ok → t.res0 = 0#32 ∧ t.res1 = 0#32) ∧
    t.irqEn = s.irqEn ∧ t.hostConflict = s.hostConflict ∧ t.lastOpc = s.lastOpc ∧
    t.arg0 = s.arg0 ∧ t.arg1 = s.arg1 ∧ t.arg2 = s.arg2 ∧ t.arg3 = s.arg3 ∧
    t.memSize = s.memSize ∧ t.hostQueue = s.hostQueue ∧ t.response = s.response

/-- R147: a command uses the arguments captured at its issue. Whatever the argument registers hold at the engine step, the
outcome is the same, and the registers keep what they held. -/
def Obligations.CommandUsesCapturedArguments : Prop :=
  ∀ i s b0 b1 b2 b3,
    exec i { s with arg0 := b0, arg1 := b1, arg2 := b2, arg3 := b3 } =
      mapNext (fun t => { t with arg0 := b0, arg1 := b1, arg2 := b2, arg3 := b3 }) (exec i s)

/-- R110 as the model has it (log entry 3): when the events queued at a state have happened and the engine has had its
turn, no command is running. -/
def Obligations.EveryCommandEndsWithinTheQueue : Prop :=
  ∀ s t : State, Sys2Proof.core.run (s.hostQueue.length + 1) s = .next t → t.busy = false

/-- R127: irq is DONE and IRQ_EN; it is up after the engine step that ends a command, success or failure, if IRQ_EN = 1, and
after IRQ_EN is set while DONE = 1. -/
def Obligations.IrqFollowsDoneAndEnable : Prop :=
  (∀ s : State, s.irq = true ↔ s.done = true ∧ s.irqEn = true) ∧
  (∀ s t l, s.latch = some l → engineStep s = .next t → t.irq = s.irqEn) ∧
  (∀ s t es (d : Word), s.hostQueue = .write 0x0000C#17 .bits32 d :: es → d.getLsbD 0 = true → d.getLsbD 1 = false →
    s.done = true → step s = .next t → t.irq = true)

/-! ### Registers -/

/-- R20, R38: the STATUS word, bit by bit. R120: the number of each error code in STATUS.ERR. R113: a read of STATUS returns
that word, whether BUSY is 0 or 1, and changes nothing else. -/
def Obligations.StatusWordLayout : Prop :=
  (∀ s : State,
    (statusWord s).getLsbD 0 = s.busy ∧ (statusWord s).getLsbD 1 = s.done ∧ (statusWord s).getLsbD 2 = s.treeValid ∧
    (statusWord s).getLsbD 3 = s.codesValid ∧ (statusWord s).getLsbD 4 = s.hostConflict ∧
    (statusWord s).extractLsb' 5 3 = 0#3 ∧ (statusWord s).extractLsb' 8 4 = s.err.code ∧
    (statusWord s).extractLsb' 12 4 = s.lastOpc ∧ (statusWord s).extractLsb' 16 16 = 0#16) ∧
  (ErrCode.ok.code = 0#4 ∧ ErrCode.badCommand.code = 1#4 ∧ ErrCode.notReady.code = 2#4 ∧ ErrCode.badRange.code = 3#4 ∧
    ErrCode.outputOverflow.code = 4#4 ∧ ErrCode.unknownSymbol.code = 5#4 ∧ ErrCode.malformedPayload.code = 6#4 ∧
    ErrCode.corruptContainer.code = 7#4) ∧
  ∀ s es, s.hostQueue = .read 0x00010#17 .bits32 :: es → step s = .next (didRead s es (statusWord s))

/-- R20, R125, R128: a write to STATUS clears DONE if data bit 1 is 1 and HOST_CONFLICT if data bit 4 is 1, while BUSY is 0 or 1,
and changes nothing else. -/
def Obligations.StatusWriteClearsOnes : Prop :=
  ∀ s es (d : Word), s.hostQueue = .write 0x00010#17 .bits32 d :: es →
    step s = .next { wrote s es with
      done := if d.getLsbD 1 then false else s.done
      hostConflict := if d.getLsbD 4 then false else s.hostConflict }

/-- R19: a write to CTRL with bit 1 = 0 sets IRQ_EN to bit 0 and nothing else; with bit 1 = 1 IRQ_EN is then 0; a read shows
IRQ_EN in bit 0 and 0 elsewhere; the reset value is 0. -/
def Obligations.CtrlWriteAndRead : Prop :=
  (∀ s es (d : Word), s.hostQueue = .write 0x0000C#17 .bits32 d :: es → d.getLsbD 1 = false →
    step s = .next { wrote s es with irqEn := d.getLsbD 0 }) ∧
  (∀ s es (d : Word), s.hostQueue = .write 0x0000C#17 .bits32 d :: es → d.getLsbD 1 = true →
    ∃ t, step s = .next t ∧ AtReset s t) ∧
  (∀ s es, s.hostQueue = .read 0x0000C#17 .bits32 :: es →
    step s = .next (didRead s es (if s.irqEn then 1#32 else 0#32))) ∧
  ctrlWord State.reset = 0#32

/-- R21: each argument register takes the written word, whether BUSY is 0 or 1, leaves everything else (the latched command
among it) alone, and reads back; its reset value is 0. -/
def Obligations.ArgumentRegistersReadBack : Prop :=
  (∀ s es (v : Word),
    (s.hostQueue = .write 0x00014#17 .bits32 v :: es → step s = .next { wrote s es with arg0 := v }) ∧
    (s.hostQueue = .write 0x00018#17 .bits32 v :: es → step s = .next { wrote s es with arg1 := v }) ∧
    (s.hostQueue = .write 0x0001C#17 .bits32 v :: es → step s = .next { wrote s es with arg2 := v }) ∧
    (s.hostQueue = .write 0x00020#17 .bits32 v :: es → step s = .next { wrote s es with arg3 := v })) ∧
  (∀ s es,
    (s.hostQueue = .read 0x00014#17 .bits32 :: es → step s = .next (didRead s es s.arg0)) ∧
    (s.hostQueue = .read 0x00018#17 .bits32 :: es → step s = .next (didRead s es s.arg1)) ∧
    (s.hostQueue = .read 0x0001C#17 .bits32 :: es → step s = .next (didRead s es s.arg2)) ∧
    (s.hostQueue = .read 0x00020#17 .bits32 :: es → step s = .next (didRead s es s.arg3))) ∧
  State.reset.arg0 = 0#32 ∧ State.reset.arg1 = 0#32 ∧ State.reset.arg2 = 0#32 ∧ State.reset.arg3 = 0#32

/-- R16, R17, R18, R22–R26, R44: what the read-only registers and CMD return, whether BUSY is 0 or 1; and an accepted write to a
read-only register, or while BUSY = 0 to a read-only window, gets OKAY and changes nothing. -/
def Obligations.ReadOnlyRegisters : Prop :=
  (∀ s es,
    (s.hostQueue = .read 0x00000#17 .bits32 :: es → step s = .next (didRead s es 0x48554646#32)) ∧
    (s.hostQueue = .read 0x00004#17 .bits32 :: es → ∃ v, step s = .next (didRead s es v) ∧
      2 ^ (v.toNat % 256) = Config.memBytes s.memSize ∧ v.toNat / 256 = 0x01FFFF) ∧
    (s.hostQueue = .read 0x00008#17 .bits32 :: es → step s = .next (didRead s es 0#32)) ∧
    (s.hostQueue = .read 0x00024#17 .bits32 :: es → step s = .next (didRead s es s.res0)) ∧
    (s.hostQueue = .read 0x00028#17 .bits32 :: es → step s = .next (didRead s es s.res1)) ∧
    (s.hostQueue = .read 0x0002C#17 .bits32 :: es → step s = .next (didRead s es s.errInfo)) ∧
    (s.hostQueue = .read 0x00030#17 .bits32 :: es → step s = .next (didRead s es (BitVec.ofNat 32 s.nleaf.toNat))) ∧
    (s.hostQueue = .read 0x00034#17 .bits32 :: es → step s = .next (didRead s es (BitVec.ofNat 32 s.root.toNat)))) ∧
  ∀ s es (off : HostOffset) d, s.hostQueue = .write off .bits32 d :: es → off.toNat % 4 = 0 →
    (off.toNat < 0x08 ∨ (0x24 ≤ off.toNat ∧ off.toNat < 0x38) ∨
      (s.latch = none ∧ 0x800 ≤ off.toNat ∧ off.toNat < 0xC00) ∨
      (s.latch = none ∧ 0x2000 ≤ off.toNat ∧ off.toNat < 0x5FF0)) →
    step s = .next (wrote s es)

/-! ### The host port -/

/-- R41, R43: a transaction that is not accepted gets ERROR, data 0 for a read, and changes nothing else; every other
transaction gets OKAY (the model stops instead at an idle read of an unwritten MEM byte, U4, log entry 5). -/
def Obligations.UnacceptedTransactionsHaveNoEffect : Prop :=
  ∀ (s : State) (es : List HostEvent) (off : HostOffset) (sz : AccessSize) (d : Word),
    (s.hostQueue = .read off sz :: es →
      (¬ Accepted s.memSize off.toNat sz →
        step s = .next { s with hostQueue := es, response := some ⟨.error, some 0#32⟩ }) ∧
      (Accepted s.memSize off.toNat sz →
        (∃ t v, step s = .next t ∧ t.response = some ⟨.okay, some v⟩) ∨
          (s.latch = none ∧ 0x10000 ≤ off.toNat ∧ ∃ a, off.toNat - 0x10000 ≤ a ∧ a < off.toNat - 0x10000 + sz.bytes ∧
            Memory.read s.mem a = none ∧ step s = .fault (.unwrittenRead a)))) ∧
    (s.hostQueue = .write off sz d :: es →
      (¬ Accepted s.memSize off.toNat sz → step s = .next { s with hostQueue := es, response := some ⟨.error, none⟩ }) ∧
      (Accepted s.memSize off.toNat sz → ∃ t, step s = .next t ∧ t.response = some ⟨.okay, none⟩))

/-- R112: an accepted access to a window while BUSY = 1. A write is ignored, a read returns a free value masked to its size;
both set HOST_CONFLICT, and nothing else of the block changes. -/
def Obligations.ConflictingAccessOnlySetsConflict : Prop :=
  ∀ s es (off : HostOffset) (sz : AccessSize) (d : Word) l, s.latch = some l → InWindow off.toNat →
    Accepted s.memSize off.toNat sz →
    (s.hostQueue = .write off sz d :: es → step s = .next { wrote s es with hostConflict := true }) ∧
    (s.hostQueue = .read off sz :: es →
      ∃ v : Word, v.toNat = (Config.drawWord s.drawCount).toNat % 256 ^ sz.bytes ∧
        step s = .next { didRead s es v with hostConflict := true, drawCount := s.drawCount + 1 })

/-- R112: the engine's command does exactly what it would have done without the conflicting access. For an ignored write that
is the whole outcome. A conflicting read takes one free value, so the draws after it are other free values: after it a
command that succeeds has the same outcome, one that fails has the same outcome but for the destination range that R123
draws (the same ERR, ERR_INFO, tables and MEM outside that range), and one that stops, stops alike. -/
def Obligations.ConflictDoesNotDisturbTheCommand : Prop :=
  (∀ i s, exec i { s with hostConflict := true } = mapNext (fun t => { t with hostConflict := true }) (exec i s)) ∧
  (∀ i s t n, exec i s = .next t → t.err = .ok →
    exec i { s with hostConflict := true, drawCount := n } = .next { t with hostConflict := true, drawCount := n }) ∧
  (∀ i s t l n, s.latch = some l → exec i s = .next t → t.err ≠ .ok →
    ∃ t', exec i { s with hostConflict := true, drawCount := n } = .next t' ∧
      t' = { t with hostConflict := true, mem := t'.mem, drawCount := t'.drawCount } ∧
      SameOutside t.mem t'.mem l.a2.toNat l.a3.toNat) ∧
  ∀ i s f n, exec i s = .fault f → exec i { s with hostConflict := true, drawCount := n } = .fault f

/-- R50: a read, while BUSY = 0 or of a register, changes nothing but the answer on the port. -/
def Obligations.ReadsHaveNoSideEffect : Prop :=
  ∀ s t es (off : HostOffset) (sz : AccessSize), s.hostQueue = .read off sz :: es →
    (s.latch = none ∨ off.toNat < 0x400) → step s = .next t →
    t = { s with hostQueue := es, response := t.response }

/-- R42: a write to the MEM window puts data bits 8k + 7 .. 8k into MEM[a + k] and leaves every other byte and every other
element alone; a read brings MEM[a + k] in the same bits. -/
def Obligations.MemWindowIsLittleEndian : Prop :=
  ∀ s es (off : HostOffset) (sz : AccessSize) (d : Word) a, off.toNat = 0x10000 + a → s.latch = none →
    a % sz.bytes = 0 → a + sz.bytes ≤ Config.memBytes s.memSize →
    (s.hostQueue = .write off sz d :: es →
      ∃ t, step s = .next t ∧ t = { wrote s es with mem := t.mem } ∧ SameOutside s.mem t.mem a sz.bytes ∧
        ∀ k, k < sz.bytes → Memory.read t.mem (a + k) = some (d.extractLsb' (8 * k) 8)) ∧
    (∀ bs : List Byte, s.hostQueue = .read off sz :: es → bs.length = sz.bytes → HoldsBytes s.mem a bs →
      ∃ v : Word, step s = .next (didRead s es v) ∧ ∀ k (h : k < bs.length), v.extractLsb' (8 * k) 8 = bs[k])

/-- R27: while BUSY = 0 a write to FREQ[y] stores the data, clears both validity flags, NLEAF and ROOT, even if the data is the
old value, and changes nothing else; a read returns FREQ[y]. -/
def Obligations.FreqWriteClearsTheTree : Prop :=
  ∀ s es (y : Byte) (v : Word), s.latch = none →
    (s.hostQueue = HostProgram.setFreq y v :: es →
      ∃ t, step s = .next t ∧
        t = { wrote s es with
          freq := t.freq, treeValid := false, codesValid := false, nleaf := 0#9, root := 0x1FF#9 } ∧
        ∀ x, freqOf t.freq x = if x = y then v else freqOf s.freq x) ∧
    (s.hostQueue = HostProgram.rd (0x400 + 4 * y.toNat) :: es → step s = .next (didRead s es (freqOf s.freq y)))

/-- R28, R29: for a valid entry while CODES_VALID = 1 the CODE_LEN window reads 256·LEN + 1, and the CODE_BITS window shows code
bit 32k + m in bit 31 − m of word k, 0 past the end of the code; else both read 0. A write is ignored. -/
def Obligations.CodeWindows : Prop :=
  ∀ s es (y : Byte), s.latch = none →
    (s.hostQueue = HostProgram.rd (0x800 + 4 * y.toNat) :: es →
      (∀ p, s.codesValid = true → codeOf s.codes y = some p →
        step s = .next (didRead s es (BitVec.ofNat 32 (256 * p.length + 1)))) ∧
      (s.codesValid = false ∨ codeOf s.codes y = none → step s = .next (didRead s es 0#32))) ∧
    (∀ d, s.hostQueue = HostProgram.wr (0x800 + 4 * y.toNat) d :: es → step s = .next (wrote s es)) ∧
    (∀ k d, k < 8 → s.hostQueue = HostProgram.wr (0x2000 + 32 * y.toNat + 4 * k) d :: es → step s = .next (wrote s es)) ∧
    ∀ k, k < 8 → s.hostQueue = HostProgram.rd (0x2000 + 32 * y.toNat + 4 * k) :: es →
      (∀ p, s.codesValid = true → codeOf s.codes y = some p →
        ∃ v : Word, step s = .next (didRead s es v) ∧
          ∀ m, m < 32 → v.getLsbD (31 - m) = p.getD (32 * k + m) false) ∧
      (s.codesValid = false ∨ codeOf s.codes y = none → step s = .next (didRead s es 0#32))

/-- R31: the four words of the NODE window for a valid entry (R30: i < NNODES while TREE_VALID = 1), 0 for every other. A leaf
shows IS_LEAF = 1, its SYMBOL and LEFT = RIGHT = NO_NODE (R30), an internal node IS_LEAF = 0, SYMBOL 0 and its children. A
write is ignored. -/
def Obligations.NodeWindow : Prop :=
  ∀ s es i w, s.Inv → i < 511 → w < 4 → s.latch = none →
    (s.hostQueue = HostProgram.rd (0x4000 + 16 * i + 4 * w) :: es →
      (s.treeValid = true → i < (if s.nleaf.toNat = 0 then 0 else 2 * s.nleaf.toNat - 1) →
        ∃ nd v, s.nodes[i]? = some nd ∧ step s = .next (didRead s es v) ∧ (nodeWords nd)[w]? = some v.toNat) ∧
      (s.treeValid = false ∨ (if s.nleaf.toNat = 0 then 0 else 2 * s.nleaf.toNat - 1) ≤ i →
        step s = .next (didRead s es 0#32))) ∧
    ∀ d, s.hostQueue = HostProgram.wr (0x4000 + 16 * i + 4 * w) d :: es → step s = .next (wrote s es)

/-! ### Reset -/

/-- R137–R139: the event rst_n, from any state: every element at its reset value, every byte of MEM unwritten, the events to
come kept; and `State.reset` is such a state. -/
def Obligations.HardwareReset : Prop :=
  (∀ s es, s.hostQueue = .hardwareReset :: es →
    ∃ t, step s = .next t ∧ AtReset s t ∧ t.hostQueue = es ∧ ∀ a, Memory.read t.mem a = none) ∧
  AtReset State.reset State.reset ∧ ∀ a, Memory.read State.reset.mem a = none

/-- R138, R140: a soft reset, from any state. Every element but MEM is at its reset value. MEM is kept, except that each byte of
MEM in the destination range of an abandoned command, a latched word 3..6, becomes a draw (that bytes of the range past
the end of MEM do not exist is log entry 7). -/
def Obligations.SoftResetKeepsMemory : Prop :=
  ∀ s es (d : Word), s.hostQueue = .write 0x0000C#17 .bits32 d :: es → d.getLsbD 1 = true →
    ∃ t, step s = .next t ∧ AtReset s t ∧ t.hostQueue = es ∧ t.response = some ⟨.okay, none⟩ ∧
      (s.latch = none → t.mem = s.mem) ∧
      ∀ l, s.latch = some l →
        (¬ (3 ≤ l.word.toNat ∧ l.word.toNat ≤ 6) → t.mem = s.mem) ∧
        (3 ≤ l.word.toNat → l.word.toNat ≤ 6 →
          (∀ a, l.a2.toNat ≤ a → a < l.a2.toNat + l.a3.toNat → a < Config.memBytes s.memSize →
            Memory.read t.mem a = some (Config.drawByte (s.drawCount + (a - l.a2.toNat)))) ∧
          ∀ a, a < l.a2.toNat ∨ l.a2.toNat + l.a3.toNat ≤ a ∨ Config.memBytes s.memSize ≤ a →
            Memory.read t.mem a = Memory.read s.mem a)

/-! ### The common checks and failures -/

/-- R62: a command that is not ready fails with NOT_READY, position 0, and touches nothing else; one that is ready never fails
so. -/
def Obligations.NotReadyCommandsFail : Prop :=
  ∀ s l, s.latch = some l →
    (s.treeValid = false → exec .genCodes s = .next (failed s .notReady 0)) ∧
    (s.codesValid = false → exec .encode s = .next (failed s .notReady 0)) ∧
    (s.treeValid = false → exec .decode s = .next (failed s .notReady 0)) ∧
    ∀ i t, exec i s = .next t → t.err = .notReady →
      (i = .genCodes ∧ s.treeValid = false) ∨ (i = .encode ∧ s.codesValid = false) ∨ (i = .decode ∧ s.treeValid = false)

/-- R60, R61: a ready command whose ranges are not valid fails with BAD_RANGE, position 0, before it touches MEM; with valid ranges
it never fails so. -/
def Obligations.InvalidRangesFail : Prop :=
  ∀ s l i (n : Nat), s.latch = some l →
    ((i = .encode ∧ s.codesValid = true ∧ n = l.a1.toNat) ∨ (i = .decode ∧ s.treeValid = true ∧ n = bytesFor l.a1.toNat) ∨
      (i = .serialize ∧ n = bytesFor l.a1.toNat) ∨ (i = .deserialize ∧ n = l.a1.toNat)) →
    (¬ RangesOk (Config.memBytes s.memSize) l.a0.toNat n l.a2.toNat l.a3.toNat →
      exec i s = .next (failed s .badRange 0)) ∧
    (RangesOk (Config.memBytes s.memSize) l.a0.toNat n l.a2.toNat l.a3.toNat →
      ∀ t, exec i s = .next t → t.err ≠ .badRange)

/-- R123: what a failure changes. ERR and the results say so, the tables and flags are unchanged; after codes 1–3 MEM is
unchanged; after codes 4–7 exactly the destination range is a draw. -/
def Obligations.FailureEffects : Prop :=
  ∀ s t l, s.latch = some l → engineStep s = .next t → t.err ≠ .ok →
    t.res0 = 0#32 ∧ t.res1 = 0#32 ∧ t.busy = false ∧ t.done = true ∧
    t.freq = s.freq ∧ t.nodes = s.nodes ∧ t.nleaf = s.nleaf ∧ t.root = s.root ∧ t.codes = s.codes ∧
    t.treeValid = s.treeValid ∧ t.codesValid = s.codesValid ∧
    ((t.err = .badCommand ∨ t.err = .notReady ∨ t.err = .badRange) → t.mem = s.mem ∧ t.errInfo = 0#32) ∧
    ((t.err = .outputOverflow ∨ t.err = .unknownSymbol ∨ t.err = .malformedPayload ∨ t.err = .corruptContainer) →
      Spoiled l s t)

/-- R40, R63: no command writes outside its destination range, and a command without one writes no byte at all. -/
def Obligations.CommandWritesOnlyItsDestination : Prop :=
  ∀ i s t l, s.latch = some l → exec i s = .next t →
    SameOutside s.mem t.mem l.a2.toNat l.a3.toNat ∧ ((i = .buildTree ∨ i = .genCodes) → t.mem = s.mem)

/-- R40, R63: no command reads outside its source range. With other bytes there, the outcome is the same but for bytes the command
left alone. -/
def Obligations.CommandReadsOnlyItsSource : Prop :=
  ∀ i s l m', s.latch = some l →
    (∀ a, l.a0.toNat ≤ a →
      a < l.a0.toNat + (if i = .buildTree ∨ i = .genCodes then 0
        else if i = .decode ∨ i = .serialize then bytesFor l.a1.toNat else l.a1.toNat) →
      Memory.read m' a = Memory.read s.mem a) →
    (∀ f, exec i s = .fault f → exec i { s with mem := m' } = .fault f) ∧
    ∀ t, exec i s = .next t →
      ∃ t', exec i { s with mem := m' } = .next t' ∧ t' = { t with mem := t'.mem } ∧
        ∀ a, Memory.read t'.mem a = Memory.read t.mem a ∨
          (Memory.read t'.mem a = Memory.read m' a ∧ Memory.read t.mem a = Memory.read s.mem a)

/-! ### The tree builder -/

/-- R77: BUILD_TREE always succeeds. It loads what BuildTree gives for FREQ, sets TREE_VALID, clears CODES_VALID, and changes
nothing else; FREQ and MEM among it. -/
def Obligations.BuildTreeCompletes : Prop :=
  ∀ s l, s.latch = some l →
    exec .buildTree s = .next { completed s with
      nodes := (buildTree s.freq).nodes
      nleaf := BitVec.ofNat 9 (presentSymbols s.freq).length
      root := (buildTree s.freq).root
      treeValid := true
      codesValid := false
      res0 := BitVec.ofNat 32 (presentSymbols s.freq).length
      res1 := BitVec.ofNat 32
        (if (presentSymbols s.freq).length = 0 then 0 else 2 * (presentSymbols s.freq).length - 1) }

/-- R71: MinKey takes the member with the least key (frequency, node index) and leaves the others. -/
def Obligations.ExtractionTakesTheLeastKey : Prop :=
  ∀ q : List Key, q ≠ [] → (q.map Key.idx).Nodup →
    ∃ m rest, extractMin q = some (m, rest) ∧ (m :: rest).Perm q ∧
      ∀ k ∈ rest, m.freq < k.freq ∨ (m.freq = k.freq ∧ m.idx < k.idx)

/-- R73, R79: the empty table gives the empty tree; a table with one present symbol gives the single leaf at index 0, whose
code is [0], and no other symbol has a code. -/
def Obligations.EmptyAndSingleLeafTables : Prop :=
  (∀ f, (∀ y, freqOf f y = 0#32) → buildTree f = ⟨[], 0, 0x1FF#9⟩) ∧
  (∀ f y, freqOf f y ≠ 0#32 → (∀ x, x ≠ y → freqOf f x = 0#32) →
    buildTree f = ⟨[.leaf y ((freqOf f y).setWidth 40)], 1, 0#9⟩ ∧
    ∃ c, genCodes (buildTree f).nodes (buildTree f).n (buildTree f).root = .ok c ∧
      ∀ x, codeOf c x = if x = y then some [false] else none)

/-- R75: the shape of the tree of a table with n ≥ 1 present symbols. -/
def Obligations.BuildTreeShape : Prop :=
  ∀ f n, n = (presentSymbols f).length → 1 ≤ n →
    (buildTree f).n = n ∧ (buildTree f).nodes.length = 2 * n - 1 ∧ (buildTree f).root.toNat = 2 * n - 2 ∧
    (∀ i y, i < n → (presentSymbols f)[i]? = some y →
      (buildTree f).nodes[i]? = some (.leaf y ((freqOf f y).setWidth 40))) ∧
    (∀ i, n ≤ i → i < 2 * n - 1 →
      ∃ w l r, (buildTree f).nodes[i]? = some (.internal w l r) ∧ l.toNat < i ∧ r.toNat < i) ∧
    ∀ i, i < 2 * n - 1 → ((buildTree f).nodes.flatMap kids).count i = if i = 2 * n - 2 then 0 else 1

/-- R74: no sum overflows. A leaf's 40-bit frequency is its FREQ entry. Every internal node's 40-bit frequency is the exact sum of its children's, and the root's is the sum of
all FREQ entries, at most 2^40 − 256. -/
def Obligations.FrequencySumsAreExact : Prop :=
  ∀ f : FreqTable,
    (∀ (i : Nat) (y : Byte) (w : NodeFreq), (buildTree f).nodes[i]? = some (.leaf y w) → w.toNat = (freqOf f y).toNat) ∧
    (∀ (i : Nat) (w : NodeFreq) (l r : NodeIdx), (buildTree f).nodes[i]? = some (.internal w l r) →
      ∃ a b, (buildTree f).nodes[l.toNat]? = some a ∧ (buildTree f).nodes[r.toNat]? = some b ∧
        w.toNat = a.freq.toNat + b.freq.toNat) ∧
    (∀ nd, (buildTree f).nodes[(buildTree f).root.toNat]? = some nd →
      nd.freq.toNat = ((List.range 256).map fun y => (freqOf f (BitVec.ofNat 8 y)).toNat).sum) ∧
    ((List.range 256).map fun y => (freqOf f (BitVec.ofNat 8 y)).toNat).sum ≤ 2 ^ 40 - 256

/-- R72: the first extracted node becomes LEFT and the second RIGHT; so in every internal node LEFT has the smaller frequency, or
the same frequency and the earlier index. -/
def Obligations.LeftChildHasTheSmallerKey : Prop :=
  (∀ i j : Key, i.idx < 512 → j.idx < 512 →
    (mergeNode i j).left.toNat = i.idx ∧ (mergeNode i j).right.toNat = j.idx) ∧
  ∀ (f : FreqTable) (i : Nat) (w : NodeFreq) (l r : NodeIdx), (buildTree f).nodes[i]? = some (.internal w l r) →
    ∃ a b, (buildTree f).nodes[l.toNat]? = some a ∧ (buildTree f).nodes[r.toNat]? = some b ∧
      (a.freq.toNat < b.freq.toNat ∨ (a.freq.toNat = b.freq.toNat ∧ l.toNat < r.toNat))

/-- R76: the tree is optimal. For two or more present symbols, the weighted path length of BuildTree's tree (by R81(d) the sum of
FREQ·LEN) is at most that of any binary prefix tree over the present symbols. -/
def Obligations.BuildTreeIsOptimal : Prop :=
  ∀ f c, 2 ≤ (presentSymbols f).length →
    genCodes (buildTree f).nodes (buildTree f).n (buildTree f).root = .ok c →
    ∀ t : PrefixTree, t.leaves.Perm (presentSymbols f) →
      ((presentSymbols f).map fun y => (freqOf f y).toNat * codeLen (codeOf c y)).sum ≤ t.cost f 0

/-! ### The code-table generator -/

/-- R83, R80: GEN_CODES of a valid tree succeeds. It loads the table GenCodes gives, sets CODES_VALID, returns the leaf count and the
largest code length, and changes nothing else; no entry of an earlier code table survives. The invariant is R34's: the tree is BuildTree(FREQ). -/
def Obligations.GenCodesCompletes : Prop :=
  (∀ s l, s.Inv → s.latch = some l → s.treeValid = true →
    ∃ c m, genCodes s.nodes s.nleaf.toNat s.root = .ok c ∧
      exec .genCodes s = .next { completed s with
        codes := c, codesValid := true, res0 := BitVec.ofNat 32 s.nleaf.toNat, res1 := BitVec.ofNat 32 m } ∧
      m ≤ 255 ∧ (∀ y p, codeOf c y = some p → p.length ≤ m) ∧
      (m = 0 ∧ s.nleaf = 0#9 ∨ ∃ y p, codeOf c y = some p ∧ p.length = m)) ∧
  ∀ s t c, exec .genCodes s = .next t → t.err = .ok → exec .genCodes { s with codes := c } = .next t

/-- R78: for two or more leaves, the code of a symbol is the path from the root to its leaf. -/
def Obligations.CodesAreThePathsToTheLeaves : Prop :=
  ∀ f c, 2 ≤ (presentSymbols f).length →
    genCodes (buildTree f).nodes (buildTree f).n (buildTree f).root = .ok c →
    ∀ y p, codeOf c y = some p ↔ ∃ w, followPath (buildTree f).nodes (buildTree f).root p = some (.leaf y w)

/-- R81: (a) a symbol has a code iff it is present; (b) for n ≥ 2 leaves a code has 1 to n − 1 bits and Kraft's sum is 1, here
multiplied by 2^255; (c) no code is a prefix of another's; (d) a code's length is the depth of its leaf, the length of
the path that leads to it. -/
def Obligations.CodeTableProperties : Prop :=
  ∀ f c n, n = (presentSymbols f).length →
    genCodes (buildTree f).nodes (buildTree f).n (buildTree f).root = .ok c →
    (∀ y, (codeOf c y).isSome = true ↔ freqOf f y ≠ 0#32) ∧
    (2 ≤ n → ∀ y p, codeOf c y = some p → 1 ≤ p.length ∧ p.length ≤ n - 1) ∧
    (2 ≤ n → ((presentSymbols f).map fun y => 2 ^ (255 - codeLen (codeOf c y))).sum = 2 ^ 255) ∧
    (∀ x y p q, x ≠ y → codeOf c x = some p → codeOf c y = some q → ¬ p <+: q) ∧
    (2 ≤ n → ∀ y p q w, codeOf c y = some p →
      followPath (buildTree f).nodes (buildTree f).root q = some (.leaf y w) → p.length = q.length)

/-! ### The encoder -/

/-- R84, R87: ENCODE of symbols that all have codes and whose payload fits succeeds. The payload at a2 is the codes in input order,
packed MSB first with padding bits 0; RES0 and RES1 are its sizes; nothing else changes. -/
def Obligations.EncodeCompletes : Prop :=
  ∀ s l (xs : List (Byte × Bits)) (p : Bits), s.latch = some l → s.codesValid = true →
    RangesOk (Config.memBytes s.memSize) l.a0.toNat l.a1.toNat l.a2.toNat l.a3.toNat →
    xs.length = l.a1.toNat → HoldsBytes s.mem l.a0.toNat (xs.map Prod.fst) → Coded s.codes xs →
    p = xs.flatMap Prod.snd → (xs = [] ∨ bytesFor p.length ≤ l.a3.toNat) →
    ∃ t, exec .encode s = .next t ∧
      t = { completed s with
        mem := t.mem, res0 := BitVec.ofNat 32 (bytesFor p.length), res1 := BitVec.ofNat 32 p.length } ∧
      HoldsBits t.mem l.a2.toNat p ∧
      (∀ j, p.length ≤ j → j < 8 * bytesFor p.length → payloadBit t.mem l.a2.toNat j = .ok false) ∧
      SameOutside s.mem t.mem l.a2.toNat (bytesFor p.length)

/-- R85, R87: the first input symbol that has no code stops ENCODE with UNKNOWN_SYMBOL at its index, and the first whose code
does not fit in a3 bytes stops it with OUTPUT_OVERFLOW at its index. -/
def Obligations.EncodeStopsAtTheFirstError : Prop :=
  ∀ s l (xs : List (Byte × Bits)) (y : Byte), s.latch = some l → s.codesValid = true →
    RangesOk (Config.memBytes s.memSize) l.a0.toNat l.a1.toNat l.a2.toNat l.a3.toNat →
    xs.length < l.a1.toNat → HoldsBytes s.mem l.a0.toNat (xs.map Prod.fst ++ [y]) → Coded s.codes xs →
    (xs = [] ∨ bytesFor (xs.flatMap Prod.snd).length ≤ l.a3.toNat) →
    (codeOf s.codes y = none → FailsSpoiled s l .unknownSymbol xs.length (exec .encode s)) ∧
    ∀ q : Bits, codeOf s.codes y = some q → l.a3.toNat < bytesFor (xs.flatMap Prod.snd ++ q).length →
      FailsSpoiled s l .outputOverflow xs.length (exec .encode s)

/-- R121: every command accepts empty input and returns ERR = 0. -/
def Obligations.EmptyInputSucceeds : Prop :=
  ∀ s l M, s.Inv → s.latch = some l → M = Config.memBytes s.memSize →
    ((∀ y, freqOf s.freq y = 0#32) → ∃ t, exec .buildTree s = .next t ∧ t.err = .ok ∧ t.nleaf = 0#9 ∧ t.root = 0x1FF#9) ∧
    (s.treeValid = true → s.nleaf = 0#9 → ∃ t, exec .genCodes s = .next t ∧ t.err = .ok ∧ ∀ y, codeOf t.codes y = none) ∧
    (s.codesValid = true → l.a1 = 0#32 → InMem M l.a2.toNat l.a3.toNat →
      exec .encode s = .next { completed s with res0 := 0#32, res1 := 0#32 }) ∧
    (s.treeValid = true → l.a1 = 0#32 → InMem M l.a2.toNat l.a3.toNat →
      exec .decode s = .next { completed s with res0 := 0#32, res1 := 0#32 }) ∧
    ((∀ y, freqOf s.freq y = 0#32) → l.a1 = 0#32 → InMem M l.a2.toNat l.a3.toNat → 6 ≤ l.a3.toNat →
      ∃ t, exec .serialize s = .next t ∧ t.err = .ok ∧ HoldsBytes t.mem l.a2.toNat [0, 0, 0, 0, 0, 0]) ∧
    (l.a1 = 6#32 → RangesOk M l.a0.toNat 6 l.a2.toNat l.a3.toNat → HoldsBytes s.mem l.a0.toNat [0, 0, 0, 0, 0, 0] →
      ∃ t, exec .deserialize s = .next t ∧ t.err = .ok ∧ ∀ y, freqOf t.freq y = 0#32)

/-! ### The decoder -/

/-- R88, R93: DECODE of a payload made of whole codes of the tree's table emits exactly those symbols, if they fit. RES0 and RES1 are
the symbol count and the bit length; nothing else changes. `c` is the table of the tree, whether or not GEN_CODES has
loaded it. -/
def Obligations.DecodeInvertsTheCodes : Prop :=
  ∀ s l c (xs : List (Byte × Bits)), s.Inv → s.latch = some l → s.treeValid = true →
    genCodes s.nodes s.nleaf.toNat s.root = .ok c → Coded c xs →
    RangesOk (Config.memBytes s.memSize) l.a0.toNat (bytesFor l.a1.toNat) l.a2.toNat l.a3.toNat →
    (xs.flatMap Prod.snd).length = l.a1.toNat → HoldsBits s.mem l.a0.toNat (xs.flatMap Prod.snd) →
    xs.length ≤ l.a3.toNat →
    ∃ t, exec .decode s = .next t ∧
      t = { completed s with mem := t.mem, res0 := BitVec.ofNat 32 xs.length, res1 := l.a1 } ∧
      HoldsBytes t.mem l.a2.toNat (xs.map Prod.fst) ∧ SameOutside s.mem t.mem l.a2.toNat xs.length

/-- R93: the round trip. Where ENCODE of a symbol sequence succeeded, DECODE of its payload under the same FREQ, wherever the
payload bytes now stand, succeeds with room for the symbols and gives them back. -/
def Obligations.EncodeDecodeRoundTrip : Prop :=
  ∀ s t u l k (xs : List Byte), s.Inv → s.latch = some l → s.codesValid = true → xs.length = l.a1.toNat →
    HoldsBytes s.mem l.a0.toNat xs → exec .encode s = .next t → t.err = .ok →
    u.Inv → u.latch = some k → u.treeValid = true → u.freq = s.freq → k.a1 = t.res1 →
    (∀ j, j < t.res0.toNat → Memory.read u.mem (k.a0.toNat + j) = Memory.read t.mem (l.a2.toNat + j)) →
    RangesOk (Config.memBytes u.memSize) k.a0.toNat (bytesFor k.a1.toNat) k.a2.toNat k.a3.toNat →
    xs.length ≤ k.a3.toNat →
    ∃ v, exec .decode u = .next v ∧ v.err = .ok ∧ v.res0.toNat = xs.length ∧ HoldsBytes v.mem k.a2.toNat xs

/-- R89, R90: with the empty tree, zero bits decode to zero symbols and L > 0 bits are MALFORMED_PAYLOAD at position 0. With a single
leaf each 0 bit emits its symbol, and the first 1 bit is MALFORMED_PAYLOAD at its index. -/
def Obligations.DecodeOfEmptyAndSingleLeafTrees : Prop :=
  ∀ s l, s.latch = some l → s.treeValid = true →
    RangesOk (Config.memBytes s.memSize) l.a0.toNat (bytesFor l.a1.toNat) l.a2.toNat l.a3.toNat →
    (s.nleaf = 0#9 →
      (l.a1 = 0#32 → exec .decode s = .next { completed s with res0 := 0#32, res1 := 0#32 }) ∧
      (l.a1 ≠ 0#32 → FailsSpoiled s l .malformedPayload 0 (exec .decode s))) ∧
    ∀ y w, s.nleaf = 1#9 → s.nodes[s.root.toNat]? = some (.leaf y w) →
      (HoldsBits s.mem l.a0.toNat (List.replicate l.a1.toNat false) → l.a1.toNat ≤ l.a3.toNat →
        ∃ t, exec .decode s = .next t ∧ t = { completed s with mem := t.mem, res0 := l.a1, res1 := l.a1 } ∧
          HoldsBytes t.mem l.a2.toNat (List.replicate l.a1.toNat y) ∧ SameOutside s.mem t.mem l.a2.toNat l.a1.toNat) ∧
      ∀ j, j < l.a1.toNat → j ≤ l.a3.toNat → HoldsBits s.mem l.a0.toNat (List.replicate j false ++ [true]) →
        FailsSpoiled s l .malformedPayload j (exec .decode s)

/-- R91, R92: for two or more leaves, a payload that ends inside a code is MALFORMED_PAYLOAD at position L. A symbol completed
when a3 symbols have been written is OUTPUT_OVERFLOW at the index of the bit that completed it. -/
def Obligations.DecodeStopsAtTheFirstError : Prop :=
  ∀ s l c (xs : List (Byte × Bits)) (p : Bits) (y : Byte), s.Inv → s.latch = some l → s.treeValid = true →
    genCodes s.nodes s.nleaf.toNat s.root = .ok c → Coded c xs → codeOf c y = some p →
    RangesOk (Config.memBytes s.memSize) l.a0.toNat (bytesFor l.a1.toNat) l.a2.toNat l.a3.toNat →
    (∀ q : Bits, 2 ≤ s.nleaf.toNat → q <+: p → q ≠ [] → q ≠ p →
      (xs.flatMap Prod.snd ++ q).length = l.a1.toNat → HoldsBits s.mem l.a0.toNat (xs.flatMap Prod.snd ++ q) →
      xs.length ≤ l.a3.toNat → FailsSpoiled s l .malformedPayload l.a1.toNat (exec .decode s)) ∧
    ((xs.flatMap Prod.snd ++ p).length ≤ l.a1.toNat → HoldsBits s.mem l.a0.toNat (xs.flatMap Prod.snd ++ p) →
      xs.length = l.a3.toNat →
      FailsSpoiled s l .outputOverflow ((xs.flatMap Prod.snd ++ p).length - 1) (exec .decode s))

/-! ### The container codec -/

/-- R95, R97: the layout of a container of N pairs and a payload of `len` bits, field by field, padding bits 0. -/
def Obligations.ContainerLayout : Prop :=
  ∀ (ps : List (Byte × Word)) (pb : List Byte) (len : Nat), ps.length ≤ 256 → len < 2 ^ 32 → pb.length = bytesFor len →
    (containerOf ps pb len).length = 6 + 5 * ps.length + bytesFor len ∧
    beNat ((containerOf ps pb len).take 2) = ps.length ∧
    (∀ k (h : k < ps.length),
      (containerOf ps pb len)[2 + 5 * k]? = some ps[k].1 ∧
      beNat (((containerOf ps pb len).drop (3 + 5 * k)).take 4) = ps[k].2.toNat) ∧
    beNat (((containerOf ps pb len).drop (2 + 5 * ps.length)).take 4) = len ∧
    ∀ k m (h : k < pb.length), m < 8 →
      ∃ b, (containerOf ps pb len)[6 + 5 * ps.length + k]? = some b ∧
        b.getLsbD (7 - m) = if 8 * k + m < len then pb[k].getLsbD (7 - m) else false

/-- R96, R98: SERIALIZE with room for the container succeeds. The container at a2 has one pair for each present symbol in ascending
order, with the full FREQ value, and the payload bytes at a0; nothing else changes. -/
def Obligations.SerializeCompletes : Prop :=
  ∀ s l (pb : List Byte) T, s.latch = some l →
    RangesOk (Config.memBytes s.memSize) l.a0.toNat (bytesFor l.a1.toNat) l.a2.toNat l.a3.toNat →
    T = 6 + 5 * (presentSymbols s.freq).length + bytesFor l.a1.toNat → T ≤ l.a3.toNat →
    pb.length = bytesFor l.a1.toNat → HoldsBytes s.mem l.a0.toNat pb →
    ∃ t, exec .serialize s = .next t ∧
      t = { completed s with mem := t.mem, res0 := BitVec.ofNat 32 T, res1 := l.a1 } ∧
      HoldsBytes t.mem l.a2.toNat
        (containerOf ((presentSymbols s.freq).map fun y => (y, freqOf s.freq y)) pb l.a1.toNat) ∧
      SameOutside s.mem t.mem l.a2.toNat T

/-- R98: a container that does not fit is OUTPUT_OVERFLOW, and ERR_INFO is its size T. -/
def Obligations.SerializeOverflowGivesTheSize : Prop :=
  ∀ s l T, s.latch = some l →
    RangesOk (Config.memBytes s.memSize) l.a0.toNat (bytesFor l.a1.toNat) l.a2.toNat l.a3.toNat →
    T = 6 + 5 * (presentSymbols s.freq).length + bytesFor l.a1.toNat → l.a3.toNat < T →
    FailsSpoiled s l .outputOverflow T (exec .serialize s)

/-- R99, R100, R105: DESERIALIZE of a container of pairs in ANY order, each symbol once and no count 0, with padding bits 0 and
room for the payload, succeeds. It loads exactly those counts, clears the tree, writes the payload to a2, and changes
nothing else. -/
def Obligations.DeserializeCompletes : Prop :=
  ∀ s l (ps : List (Byte × Word)) (pb : List Byte) (len : Nat), s.latch = some l →
    (ps.map Prod.fst).Nodup → (∀ p ∈ ps, p.2 ≠ 0#32) → len < 2 ^ 32 → pb.length = bytesFor len →
    clearPadding pb len = pb → (ps = [] → len = 0) →
    l.a1.toNat = 6 + 5 * ps.length + bytesFor len →
    RangesOk (Config.memBytes s.memSize) l.a0.toNat l.a1.toNat l.a2.toNat l.a3.toNat →
    HoldsBytes s.mem l.a0.toNat (containerOf ps pb len) → bytesFor len ≤ l.a3.toNat →
    ∃ t, exec .deserialize s = .next t ∧
      t = { completed s with
        freq := t.freq, mem := t.mem, treeValid := false, codesValid := false, nleaf := 0#9, root := 0x1FF#9
        res0 := BitVec.ofNat 32 (bytesFor len), res1 := BitVec.ofNat 32 len } ∧
      (∀ p ∈ ps, freqOf t.freq p.1 = p.2) ∧ (∀ y, y ∉ ps.map Prod.fst → freqOf t.freq y = 0#32) ∧
      HoldsBytes t.mem l.a2.toNat pb ∧ SameOutside s.mem t.mem l.a2.toNat pb.length

/-- R106(a): what SERIALIZE writes, DESERIALIZE reads back. FREQ is restored exactly, and the payload comes with its padding bits
cleared. A payload of an empty table is no payload (R103), so with no present symbol L is 0 (log entry 15). -/
def Obligations.SerializeDeserializeRoundTrip : Prop :=
  ∀ s t u l k (pb : List Byte), s.latch = some l → exec .serialize s = .next t → t.err = .ok →
    pb.length = bytesFor l.a1.toNat → HoldsBytes s.mem l.a0.toNat pb →
    (presentSymbols s.freq = [] → l.a1 = 0#32) →
    u.latch = some k → k.a1 = t.res0 →
    (∀ j, j < t.res0.toNat → Memory.read u.mem (k.a0.toNat + j) = Memory.read t.mem (l.a2.toNat + j)) →
    RangesOk (Config.memBytes u.memSize) k.a0.toNat k.a1.toNat k.a2.toNat k.a3.toNat →
    bytesFor l.a1.toNat ≤ k.a3.toNat →
    ∃ v, exec .deserialize u = .next v ∧ v.err = .ok ∧ v.freq = s.freq ∧ v.res1 = l.a1 ∧
      HoldsBytes v.mem k.a2.toNat (clearPadding pb l.a1.toNat)

/-- R106(b): a container that SERIALIZE wrote, with its last byte dropped, is rejected: MALFORMED_PAYLOAD at 2 + 5N if L > 0,
CORRUPT_CONTAINER at 5 + 5N if L = 0. -/
def Obligations.TruncatedContainerIsRejected : Prop :=
  ∀ s t u l k N, s.latch = some l → exec .serialize s = .next t → t.err = .ok →
    N = (presentSymbols s.freq).length → u.latch = some k → k.a1.toNat + 1 = t.res0.toNat →
    (∀ j, j + 1 < t.res0.toNat → Memory.read u.mem (k.a0.toNat + j) = Memory.read t.mem (l.a2.toNat + j)) →
    RangesOk (Config.memBytes u.memSize) k.a0.toNat k.a1.toNat k.a2.toNat k.a3.toNat →
    (l.a1 ≠ 0#32 → FailsSpoiled u k .malformedPayload (2 + 5 * N) (exec .deserialize u)) ∧
    (l.a1 = 0#32 → FailsSpoiled u k .corruptContainer (5 + 5 * N) (exec .deserialize u))

/-- R99, R105: the failures of DESERIALIZE, each with its position, in the order of R99. A container of fewer than 2 bytes, a
COUNT above 256, a truncated table or BITLEN. After pairs that pass (R100), a repeated symbol, then a count of 0. After a
table that passes, bytes short of the payload, trailing bytes (R102), padding bits set, a payload with no table (R103);
and after Parse, a payload of more than a3 bytes. -/
def Obligations.DeserializeChecksSizeAndCount : Prop :=
  ∀ s l (b0 b1 : Byte), s.latch = some l →
    RangesOk (Config.memBytes s.memSize) l.a0.toNat l.a1.toNat l.a2.toNat l.a3.toNat →
    (l.a1.toNat < 2 → FailsSpoiled s l .corruptContainer l.a1.toNat (exec .deserialize s)) ∧
    (2 ≤ l.a1.toNat → HoldsBytes s.mem l.a0.toNat [b0, b1] →
      (256 < b0.toNat * 256 + b1.toNat → FailsSpoiled s l .corruptContainer 0 (exec .deserialize s)) ∧
      (b0.toNat * 256 + b1.toNat ≤ 256 → l.a1.toNat < 6 + 5 * (b0.toNat * 256 + b1.toNat) →
        FailsSpoiled s l .corruptContainer l.a1.toNat (exec .deserialize s))) ∧
    (∀ (N : Nat) (ps : List (Byte × Word)) (y : Byte) (v : Word), GoodPairs ps → ps.length < N → N ≤ 256 →
      6 + 5 * N ≤ l.a1.toNat → HoldsBytes s.mem l.a0.toNat (tableBytes N (ps ++ [(y, v)])) →
      (y ∈ ps.map Prod.fst → FailsSpoiled s l .corruptContainer (2 + 5 * ps.length) (exec .deserialize s)) ∧
      (y ∉ ps.map Prod.fst → v = 0#32 →
        FailsSpoiled s l .corruptContainer (3 + 5 * ps.length) (exec .deserialize s))) ∧
    ∀ (ps : List (Byte × Word)) (N L P : Nat), GoodPairs ps → N = ps.length → L < 2 ^ 32 → P = bytesFor L →
      6 + 5 * N ≤ l.a1.toNat → HoldsBytes s.mem l.a0.toNat (tableBytes N ps ++ be32Bytes L) →
      (l.a1.toNat < 6 + 5 * N + P → FailsSpoiled s l .malformedPayload (2 + 5 * N) (exec .deserialize s)) ∧
      (6 + 5 * N + P < l.a1.toNat → FailsSpoiled s l .corruptContainer (6 + 5 * N + P) (exec .deserialize s)) ∧
      (l.a1.toNat = 6 + 5 * N + P →
        (∀ b, Memory.read s.mem (l.a0.toNat + (5 + 5 * N + P)) = some b → L % 8 ≠ 0 → b.toNat % 2 ^ (8 - L % 8) ≠ 0 →
          FailsSpoiled s l .corruptContainer (5 + 5 * N + P) (exec .deserialize s)) ∧
        (PaddingClear s.mem (l.a0.toNat + (5 + 5 * N + P)) L →
          (N = 0 → L ≠ 0 → FailsSpoiled s l .malformedPayload 2 (exec .deserialize s)) ∧
          ((N = 0 → L = 0) → ∀ pb : List Byte, pb.length = P → HoldsBytes s.mem (l.a0.toNat + (6 + 5 * N)) pb →
            l.a3.toNat < P → FailsSpoiled s l .outputOverflow (6 + 5 * N) (exec .deserialize s))))

/-! ### The whole machine -/

/-- R144: a host write to FREQ, and a successful DESERIALIZE, clear both validity flags; BUILD_TREE clears CODES_VALID; and ENCODE or
DECODE without the rebuild fails with NOT_READY. -/
def Obligations.StaleTreesAreNeverUsed : Prop :=
  (∀ s t es y v, s.latch = none → s.hostQueue = HostProgram.setFreq y v :: es → step s = .next t →
    t.treeValid = false ∧ t.codesValid = false) ∧
  (∀ s t, exec .deserialize s = .next t → t.err = .ok → t.treeValid = false ∧ t.codesValid = false) ∧
  (∀ s t, exec .buildTree s = .next t → t.codesValid = false) ∧
  (∀ s l, s.latch = some l → s.codesValid = false → ∃ t, exec .encode s = .next t ∧ t.err = .notReady) ∧
  (∀ s l, s.latch = some l → s.treeValid = false → ∃ t, exec .decode s = .next t ∧ t.err = .notReady)

/-- R27: FREQ changes only by a host write to it while BUSY = 0, by a successful DESERIALIZE, or by a reset. -/
def Obligations.OnlyTheseStepsChangeFreq : Prop :=
  ∀ s t, step s = .next t → t.freq ≠ s.freq →
    (s.hostQueue.head? = some .hardwareReset) ∨
    (∃ d : Word, s.hostQueue.head? = some (.write 0x0000C#17 .bits32 d) ∧ d.getLsbD 1 = true) ∨
    (∃ y v, s.hostQueue.head? = some (HostProgram.setFreq y v) ∧ s.latch = none) ∨
    (EngineNext s ∧ (∃ l, s.latch = some l ∧ l.word = 6#32) ∧ t.err = .ok)

/-- R20, R33: TREE_VALID is set only by a successful BUILD_TREE and CODES_VALID only by a successful GEN_CODES. -/
def Obligations.OnlyTheBuildersSetTheFlags : Prop :=
  ∀ s t, step s = .next t →
    (s.treeValid = false → t.treeValid = true → EngineNext s ∧ (∃ l, s.latch = some l ∧ l.word = 1#32) ∧ t.err = .ok) ∧
    (s.codesValid = false → t.codesValid = true → EngineNext s ∧ (∃ l, s.latch = some l ∧ l.word = 2#32) ∧ t.err = .ok)

/-- The state after rst_n meets the invariant. -/
def Obligations.ResetMeetsTheInvariant : Prop := State.reset.Inv

/-- R34, R109: every step keeps the invariant: MEM in canonical form and inside MEM_BYTES, TREE_VALID and CODES_VALID telling the
truth about the node store and the code table, NLEAF and ROOT cleared with the tree, no result while BUSY = 1. -/
def Obligations.EveryStepKeepsTheInvariant : Prop :=
  ∀ s t, s.Inv → step s = .next t → t.Inv

/-- R82, R88, R110: from a state that meets the invariant a step goes on, or it stops at a read of an unwritten MEM byte; the tree
walks never meet a missing node, and the block never hangs. That the read stops is log entry 5. -/
def Obligations.OnlyUnwrittenReadsStop : Prop :=
  ∀ s, s.Inv → OnlyUnwrittenStops (step s)
end

