-- ==== Sys2Proof/Laws/Memory.lean ====
section
/-! SUPPORT. The laws of MEM: read after write, the canonical form, and byte sequences (R9, R36, R40). -/

namespace Sys2Proof.Machine

namespace Memory

theorem read_write (m : Memory) (a : Nat) (v : Byte) (b : Nat) :
    read (write m a v) b = if a = b then some v else read m b := by
  induction m with
  | nil => simp [write, read]
  | cons c m ih =>
    obtain ⟨k, w⟩ := c
    simp only [write]
    split
    · simp [read]
    · split
      · next h => subst h; simp only [read]; split <;> simp_all
      · simp only [read, ih]; split <;> split <;> simp_all

@[simp] theorem read_write_same (m : Memory) (a : Nat) (v : Byte) : read (write m a v) a = some v := by
  simp [read_write]

theorem read_write_other (m : Memory) {a b : Nat} (v : Byte) (h : a ≠ b) : read (write m a v) b = read m b := by
  simp [read_write, h]

/-- What a byte reads after `MemWrite(a, |vs|, vs)`. -/
theorem read_writeBytes (m : Memory) (a : Nat) (vs : List Byte) (b : Nat) :
    read (writeBytes m a vs) b = if a ≤ b ∧ b < a + vs.length then vs[b - a]? else read m b := by
  induction vs generalizing m a with
  | nil => simp [writeBytes]
  | cons v vs ih =>
    simp only [writeBytes, ih, read_write, List.length_cons]
    by_cases h : a = b
    · subst h; simp
    · by_cases h2 : a + 1 ≤ b ∧ b < a + 1 + vs.length
      · have h3 : a ≤ b ∧ b < a + (vs.length + 1) := by omega
        have h4 : b - a = (b - (a + 1)) + 1 := by omega
        rw [if_pos h2, if_pos h3, h4, List.getElem?_cons_succ]
      · have h3 : ¬ (a ≤ b ∧ b < a + (vs.length + 1)) := by omega
        rw [if_neg h2, if_neg h3, if_neg h]

theorem read_writeBytes_outside (m : Memory) (a : Nat) (vs : List Byte) (b : Nat) (h : b < a ∨ a + vs.length ≤ b) :
    read (writeBytes m a vs) b = read m b := by
  rw [read_writeBytes, if_neg (by omega)]

theorem read_writeBytes_inside (m : Memory) (a : Nat) (vs : List Byte) (k : Nat) (h : k < vs.length) :
    read (writeBytes m a vs) (a + k) = some vs[k] := by
  rw [read_writeBytes, if_pos (by omega)]
  simp [h]

theorem mem_write {m : Memory} {a : Nat} {v : Byte} {c : Host.Cell} (h : c ∈ write m a v) : c = (a, v) ∨ c ∈ m := by
  induction m with
  | nil => simpa [write] using h
  | cons d m ih =>
    obtain ⟨k, w⟩ := d
    simp only [write] at h
    split at h
    · simpa using h
    · split at h
      · simp only [List.mem_cons] at h ⊢; tauto
      · simp only [List.mem_cons] at h ⊢
        rcases h with h | h
        · exact .inr (.inl h)
        · rcases ih h with h | h
          · exact .inl h
          · exact .inr (.inr h)

/-- A write keeps the canonical form. -/
theorem wf_write {m : Memory} (a : Nat) (v : Byte) (h : wf m) : wf (write m a v) := by
  induction m with
  | nil => simp [write, wf]
  | cons d m ih =>
    obtain ⟨k, w⟩ := d
    simp only [wf, List.pairwise_cons] at h ih ⊢
    simp only [write]
    split
    · next hk =>
      simp only [List.pairwise_cons, List.mem_cons]
      refine ⟨?_, h⟩
      rintro c (rfl | hc)
      · exact hk
      · exact lt_trans hk (h.1 c hc)
    · split
      · next hk => subst hk; exact List.pairwise_cons.2 h
      · next h1 h2 =>
        refine List.pairwise_cons.2 ⟨?_, ih h.2⟩
        intro c hc
        rcases mem_write hc with rfl | hc
        · show k < a; omega
        · exact h.1 c hc

/-- A write inside MEM stays inside MEM. -/
theorem within_write {M : Nat} {m : Memory} {a : Nat} (v : Byte) (h : within M m) (ha : a < M) :
    within M (write m a v) := by
  intro c hc
  rcases mem_write hc with rfl | hc
  · exact ha
  · exact h c hc

theorem wf_writeBytes {m : Memory} (a : Nat) (vs : List Byte) (h : wf m) : wf (writeBytes m a vs) := by
  induction vs generalizing m a with
  | nil => exact h
  | cons v vs ih => exact ih (a + 1) (wf_write a v h)

theorem within_writeBytes {M : Nat} {m : Memory} {a : Nat} {vs : List Byte} (h : within M m)
    (hv : vs = [] ∨ a + vs.length ≤ M) : within M (writeBytes m a vs) := by
  induction vs generalizing m a with
  | nil => exact h
  | cons v vs ih =>
    have hlen : a + (vs.length + 1) ≤ M := by simpa using hv
    exact ih (within_write v h (by omega)) (.inr (by omega))

theorem read_none_of_lt {m : Memory} {a : Nat} (h : ∀ c ∈ m, a < c.1) : read m a = none := by
  induction m with
  | nil => rfl
  | cons c m ih =>
    obtain ⟨k, w⟩ := c
    have hk : a < k := h (k, w) (by simp)
    simp only [read, if_neg (show ¬ k = a by omega)]
    exact ih fun c hc => h c (by simp [hc])

/-- Equal memories are equal data: two memories in canonical form that read the same everywhere are the same list. -/
theorem ext_of_read {m n : Memory} (hm : wf m) (hn : wf n) (h : ∀ a, read m a = read n a) : m = n := by
  induction m generalizing n with
  | nil =>
    cases n with
    | nil => rfl
    | cons d n => have := h d.1; simp [read] at this
  | cons c m ih =>
    obtain ⟨k, w⟩ := c
    simp only [wf, List.pairwise_cons] at hm ih
    cases n with
    | nil => have := h k; simp [read] at this
    | cons d n =>
      obtain ⟨l, x⟩ := d
      simp only [wf, List.pairwise_cons] at hn
      have hkl : k = l := by
        rcases lt_trichotomy k l with hlt | rfl | hlt
        · have := h k
          rw [read_none_of_lt (m := (l, x) :: n) (by
            intro c hc; rcases List.mem_cons.1 hc with rfl | hc
            · exact hlt
            · exact lt_trans hlt (hn.1 c hc))] at this
          simp [read] at this
        · rfl
        · have := h l
          rw [read_none_of_lt (m := (k, w) :: m) (by
            intro c hc; rcases List.mem_cons.1 hc with rfl | hc
            · exact hlt
            · exact lt_trans hlt (hm.1 c hc))] at this
          simp [read] at this
      subst hkl
      have hwx : w = x := by have := h k; simpa [read] using this
      subst hwx
      rw [ih hm.2 hn.2 fun a => ?_]
      by_cases ha : k = a
      · subst ha; rw [read_none_of_lt fun c hc => hm.1 c hc, read_none_of_lt fun c hc => hn.1 c hc]
      · simpa [read, ha] using h a

/-- `MemRead(a, n)` gives exactly the bytes of the range, if all of them are written. -/
theorem readMany_eq_ok (m : Memory) (a n : Nat) (bs : List Byte) :
    readMany m a n = .ok bs ↔ bs.length = n ∧ ∀ k (h : k < bs.length), read m (a + k) = some bs[k] := by
  induction n generalizing a bs with
  | zero => cases bs <;> simp [readMany]
  | succ n ih =>
    simp only [readMany]
    cases hr : read m a with
    | none =>
      simp only [reduceCtorEq, false_iff]
      rintro ⟨hl, hk⟩
      have := hk 0 (by omega)
      simp [hr] at this
    | some b =>
      cases hm : readMany m (a + 1) n with
      | error x =>
        simp only [reduceCtorEq, false_iff]
        rintro ⟨hl, hk⟩
        cases bs with
        | nil => simp at hl
        | cons c cs =>
          have := (ih (a + 1) cs).2 ⟨by simpa using hl, fun k h => by
            have := hk (k + 1) (by simpa using h)
            simpa [Nat.add_assoc, Nat.add_comm 1] using this⟩
          rw [hm] at this
          exact absurd this (by simp)
      | ok cs =>
        constructor
        · rintro h
          obtain rfl : b :: cs = bs := by simpa using h
          obtain ⟨h1, h2⟩ := (ih (a + 1) cs).1 hm
          refine ⟨by simp [h1], ?_⟩
          rintro (_ | k) hk
          · simpa using hr
          · have := h2 k (by simpa using hk)
            simpa [Nat.add_assoc, Nat.add_comm 1] using this
        · rintro ⟨hl, hk⟩
          cases bs with
          | nil => simp at hl
          | cons d ds =>
            have h0 := hk 0 (by simp)
            have := (ih (a + 1) ds).2 ⟨by simpa using hl, fun k h => by
              have := hk (k + 1) (by simpa using h)
              simpa [Nat.add_assoc, Nat.add_comm 1] using this⟩
            rw [hm] at this
            simp_all

theorem readMany_length {m : Memory} {a n : Nat} {bs : List Byte} (h : readMany m a n = .ok bs) : bs.length = n :=
  ((readMany_eq_ok m a n bs).1 h).1

/-- A read that fails names an unwritten address of its range. -/
theorem readMany_eq_error {m : Memory} {a n x : Nat} (h : readMany m a n = .error x) :
    read m x = none ∧ a ≤ x ∧ x < a + n := by
  induction n generalizing a with
  | zero => simp [readMany] at h
  | succ n ih =>
    simp only [readMany] at h
    cases hr : read m a with
    | none =>
      simp only [hr, Except.error.injEq] at h
      subst h; exact ⟨hr, by omega, by omega⟩
    | some b =>
      cases hm : readMany m (a + 1) n with
      | ok cs => simp [hr, hm] at h
      | error y =>
        simp only [hr, hm, Except.error.injEq] at h
        subst h
        obtain ⟨h1, h2, h3⟩ := ih hm
        exact ⟨h1, by omega, by omega⟩

end Memory

/-! ### The engine's reads -/

theorem readByte_eq_ok {m : Memory} {a : Nat} {b : Byte} : readByte m a = .ok b ↔ Memory.read m a = some b := by
  unfold readByte; cases h : Memory.read m a <;> simp

/-- A byte read by the engine that fails is the fault of U4, at an unwritten address. -/
theorem readByte_eq_error {m : Memory} {a : Nat} {e : Abort} (h : readByte m a = .error e) :
    e = .fault (.unwrittenRead a) ∧ Memory.read m a = none := by
  unfold readByte at h; cases hr : Memory.read m a <;> simp_all

theorem readBytes_eq_ok {m : Memory} {a n : Nat} {bs : List Byte} :
    readBytes m a n = .ok bs ↔ Memory.readMany m a n = .ok bs := by
  unfold readBytes; cases h : Memory.readMany m a n <;> simp

theorem readBytes_eq_error {m : Memory} {a n : Nat} {e : Abort} (h : readBytes m a n = .error e) :
    ∃ x, e = .fault (.unwrittenRead x) ∧ Memory.read m x = none ∧ a ≤ x ∧ x < a + n := by
  unfold readBytes at h
  cases hr : Memory.readMany m a n with
  | ok bs => simp [hr] at h
  | error x =>
    simp only [hr, Except.error.injEq] at h
    exact ⟨x, h.symm, Memory.readMany_eq_error hr⟩

theorem readBytes_length {m : Memory} {a n : Nat} {bs : List Byte} (h : readBytes m a n = .ok bs) : bs.length = n :=
  Memory.readMany_length (readBytes_eq_ok.1 h)

/-! ### Drawn ranges -/

@[simp] theorem drawnBytes_length (k n : Nat) : (drawnBytes k n).length = n := by simp [drawnBytes]

theorem drawnBytes_getElem (k n j : Nat) (h : j < (drawnBytes k n).length) :
    (drawnBytes k n)[j] = Config.drawByte (k + j) := by simp [drawnBytes]

/-- What a byte reads after a range became a draw: a free value in the part of the range that exists, else what it
read before. -/
theorem read_drawRange (addr len : Nat) (s : State) (b : Nat) :
    Memory.read (drawRange addr len s).mem b =
      if addr ≤ b ∧ b < addr + len ∧ b < Config.memBytes s.memSize
      then some (Config.drawByte (s.drawCount + (b - addr))) else Memory.read s.mem b := by
  simp only [drawRange, Memory.read_writeBytes, drawnBytes_length]
  by_cases h : addr ≤ b ∧ b < addr + len ∧ b < Config.memBytes s.memSize
  · rw [if_pos (by omega), if_pos h]
    simp only [drawnBytes, List.getElem?_map]
    rw [List.getElem?_range (by omega)]; rfl
  · rw [if_neg (by omega), if_neg h]

theorem wf_drawRange (addr len : Nat) {s : State} (h : Memory.wf s.mem) : Memory.wf (drawRange addr len s).mem :=
  Memory.wf_writeBytes _ _ h

theorem within_drawRange (addr len : Nat) {s : State} (h : Memory.within (Config.memBytes s.memSize) s.mem) :
    Memory.within (Config.memBytes s.memSize) (drawRange addr len s).mem := by
  refine Memory.within_writeBytes h ?_
  by_cases hn : min (addr + len) (Config.memBytes s.memSize) - addr = 0
  · exact .inl (List.eq_nil_of_length_eq_zero (by rw [drawnBytes_length]; exact hn))
  · exact .inr (by rw [drawnBytes_length]; omega)

/-- The memory after rst_n is in canonical form. -/
theorem wf_reset : Memory.wf State.reset.mem := List.Pairwise.nil

end Sys2Proof.Machine
end

