-- ==== Sys2Proof/Laws/State.lean ====
section
/-! SUPPORT. One lemma per field per named update of the state, so that no proof unfolds a record update. -/

namespace Sys2Proof.Machine

/-! ### `writeStatus` -/

@[simp] theorem writeStatus_memSize (d : Word) (s : State) : (writeStatus d s).memSize = s.memSize := rfl
@[simp] theorem writeStatus_irqEn (d : Word) (s : State) : (writeStatus d s).irqEn = s.irqEn := rfl
@[simp] theorem writeStatus_done (d : Word) (s : State) : (writeStatus d s).done = (s.done && !d.getLsbD 1) := rfl
@[simp] theorem writeStatus_treeValid (d : Word) (s : State) : (writeStatus d s).treeValid = s.treeValid := rfl
@[simp] theorem writeStatus_codesValid (d : Word) (s : State) : (writeStatus d s).codesValid = s.codesValid := rfl
@[simp] theorem writeStatus_hostConflict (d : Word) (s : State) : (writeStatus d s).hostConflict = (s.hostConflict && !d.getLsbD 4) := rfl
@[simp] theorem writeStatus_err (d : Word) (s : State) : (writeStatus d s).err = s.err := rfl
@[simp] theorem writeStatus_lastOpc (d : Word) (s : State) : (writeStatus d s).lastOpc = s.lastOpc := rfl
@[simp] theorem writeStatus_arg0 (d : Word) (s : State) : (writeStatus d s).arg0 = s.arg0 := rfl
@[simp] theorem writeStatus_arg1 (d : Word) (s : State) : (writeStatus d s).arg1 = s.arg1 := rfl
@[simp] theorem writeStatus_arg2 (d : Word) (s : State) : (writeStatus d s).arg2 = s.arg2 := rfl
@[simp] theorem writeStatus_arg3 (d : Word) (s : State) : (writeStatus d s).arg3 = s.arg3 := rfl
@[simp] theorem writeStatus_res0 (d : Word) (s : State) : (writeStatus d s).res0 = s.res0 := rfl
@[simp] theorem writeStatus_res1 (d : Word) (s : State) : (writeStatus d s).res1 = s.res1 := rfl
@[simp] theorem writeStatus_errInfo (d : Word) (s : State) : (writeStatus d s).errInfo = s.errInfo := rfl
@[simp] theorem writeStatus_nleaf (d : Word) (s : State) : (writeStatus d s).nleaf = s.nleaf := rfl
@[simp] theorem writeStatus_root (d : Word) (s : State) : (writeStatus d s).root = s.root := rfl
@[simp] theorem writeStatus_freq (d : Word) (s : State) : (writeStatus d s).freq = s.freq := rfl
@[simp] theorem writeStatus_nodes (d : Word) (s : State) : (writeStatus d s).nodes = s.nodes := rfl
@[simp] theorem writeStatus_codes (d : Word) (s : State) : (writeStatus d s).codes = s.codes := rfl
@[simp] theorem writeStatus_latch (d : Word) (s : State) : (writeStatus d s).latch = s.latch := rfl
@[simp] theorem writeStatus_mem (d : Word) (s : State) : (writeStatus d s).mem = s.mem := rfl
@[simp] theorem writeStatus_hostQueue (d : Word) (s : State) : (writeStatus d s).hostQueue = s.hostQueue := rfl
@[simp] theorem writeStatus_response (d : Word) (s : State) : (writeStatus d s).response = s.response := rfl
@[simp] theorem writeStatus_drawCount (d : Word) (s : State) : (writeStatus d s).drawCount = s.drawCount := rfl

/-! ### `clearTree` -/

@[simp] theorem clearTree_memSize (s : State) : (clearTree s).memSize = s.memSize := rfl
@[simp] theorem clearTree_irqEn (s : State) : (clearTree s).irqEn = s.irqEn := rfl
@[simp] theorem clearTree_done (s : State) : (clearTree s).done = s.done := rfl
@[simp] theorem clearTree_treeValid (s : State) : (clearTree s).treeValid = false := rfl
@[simp] theorem clearTree_codesValid (s : State) : (clearTree s).codesValid = false := rfl
@[simp] theorem clearTree_hostConflict (s : State) : (clearTree s).hostConflict = s.hostConflict := rfl
@[simp] theorem clearTree_err (s : State) : (clearTree s).err = s.err := rfl
@[simp] theorem clearTree_lastOpc (s : State) : (clearTree s).lastOpc = s.lastOpc := rfl
@[simp] theorem clearTree_arg0 (s : State) : (clearTree s).arg0 = s.arg0 := rfl
@[simp] theorem clearTree_arg1 (s : State) : (clearTree s).arg1 = s.arg1 := rfl
@[simp] theorem clearTree_arg2 (s : State) : (clearTree s).arg2 = s.arg2 := rfl
@[simp] theorem clearTree_arg3 (s : State) : (clearTree s).arg3 = s.arg3 := rfl
@[simp] theorem clearTree_res0 (s : State) : (clearTree s).res0 = s.res0 := rfl
@[simp] theorem clearTree_res1 (s : State) : (clearTree s).res1 = s.res1 := rfl
@[simp] theorem clearTree_errInfo (s : State) : (clearTree s).errInfo = s.errInfo := rfl
@[simp] theorem clearTree_nleaf (s : State) : (clearTree s).nleaf = 0#9 := rfl
@[simp] theorem clearTree_root (s : State) : (clearTree s).root = Config.noNode := rfl
@[simp] theorem clearTree_freq (s : State) : (clearTree s).freq = s.freq := rfl
@[simp] theorem clearTree_nodes (s : State) : (clearTree s).nodes = s.nodes := rfl
@[simp] theorem clearTree_codes (s : State) : (clearTree s).codes = s.codes := rfl
@[simp] theorem clearTree_latch (s : State) : (clearTree s).latch = s.latch := rfl
@[simp] theorem clearTree_mem (s : State) : (clearTree s).mem = s.mem := rfl
@[simp] theorem clearTree_hostQueue (s : State) : (clearTree s).hostQueue = s.hostQueue := rfl
@[simp] theorem clearTree_response (s : State) : (clearTree s).response = s.response := rfl
@[simp] theorem clearTree_drawCount (s : State) : (clearTree s).drawCount = s.drawCount := rfl

/-! ### `issue` -/

@[simp] theorem issue_memSize (w : Word) (s : State) : (issue w s).memSize = s.memSize := rfl
@[simp] theorem issue_irqEn (w : Word) (s : State) : (issue w s).irqEn = s.irqEn := rfl
@[simp] theorem issue_done (w : Word) (s : State) : (issue w s).done = false := rfl
@[simp] theorem issue_treeValid (w : Word) (s : State) : (issue w s).treeValid = s.treeValid := rfl
@[simp] theorem issue_codesValid (w : Word) (s : State) : (issue w s).codesValid = s.codesValid := rfl
@[simp] theorem issue_hostConflict (w : Word) (s : State) : (issue w s).hostConflict = s.hostConflict := rfl
@[simp] theorem issue_err (w : Word) (s : State) : (issue w s).err = .ok := rfl
@[simp] theorem issue_lastOpc (w : Word) (s : State) : (issue w s).lastOpc = opcField w := rfl
@[simp] theorem issue_arg0 (w : Word) (s : State) : (issue w s).arg0 = s.arg0 := rfl
@[simp] theorem issue_arg1 (w : Word) (s : State) : (issue w s).arg1 = s.arg1 := rfl
@[simp] theorem issue_arg2 (w : Word) (s : State) : (issue w s).arg2 = s.arg2 := rfl
@[simp] theorem issue_arg3 (w : Word) (s : State) : (issue w s).arg3 = s.arg3 := rfl
@[simp] theorem issue_res0 (w : Word) (s : State) : (issue w s).res0 = 0#32 := rfl
@[simp] theorem issue_res1 (w : Word) (s : State) : (issue w s).res1 = 0#32 := rfl
@[simp] theorem issue_errInfo (w : Word) (s : State) : (issue w s).errInfo = 0#32 := rfl
@[simp] theorem issue_nleaf (w : Word) (s : State) : (issue w s).nleaf = s.nleaf := rfl
@[simp] theorem issue_root (w : Word) (s : State) : (issue w s).root = s.root := rfl
@[simp] theorem issue_freq (w : Word) (s : State) : (issue w s).freq = s.freq := rfl
@[simp] theorem issue_nodes (w : Word) (s : State) : (issue w s).nodes = s.nodes := rfl
@[simp] theorem issue_codes (w : Word) (s : State) : (issue w s).codes = s.codes := rfl
@[simp] theorem issue_latch (w : Word) (s : State) : (issue w s).latch = some ⟨w, s.arg0, s.arg1, s.arg2, s.arg3⟩ := rfl
@[simp] theorem issue_mem (w : Word) (s : State) : (issue w s).mem = s.mem := rfl
@[simp] theorem issue_hostQueue (w : Word) (s : State) : (issue w s).hostQueue = s.hostQueue := rfl
@[simp] theorem issue_response (w : Word) (s : State) : (issue w s).response = s.response := rfl
@[simp] theorem issue_drawCount (w : Word) (s : State) : (issue w s).drawCount = s.drawCount := rfl

/-! ### `complete` -/

@[simp] theorem complete_memSize (s : State) : (complete s).memSize = s.memSize := rfl
@[simp] theorem complete_irqEn (s : State) : (complete s).irqEn = s.irqEn := rfl
@[simp] theorem complete_done (s : State) : (complete s).done = true := rfl
@[simp] theorem complete_treeValid (s : State) : (complete s).treeValid = s.treeValid := rfl
@[simp] theorem complete_codesValid (s : State) : (complete s).codesValid = s.codesValid := rfl
@[simp] theorem complete_hostConflict (s : State) : (complete s).hostConflict = s.hostConflict := rfl
@[simp] theorem complete_err (s : State) : (complete s).err = .ok := rfl
@[simp] theorem complete_lastOpc (s : State) : (complete s).lastOpc = s.lastOpc := rfl
@[simp] theorem complete_arg0 (s : State) : (complete s).arg0 = s.arg0 := rfl
@[simp] theorem complete_arg1 (s : State) : (complete s).arg1 = s.arg1 := rfl
@[simp] theorem complete_arg2 (s : State) : (complete s).arg2 = s.arg2 := rfl
@[simp] theorem complete_arg3 (s : State) : (complete s).arg3 = s.arg3 := rfl
@[simp] theorem complete_res0 (s : State) : (complete s).res0 = s.res0 := rfl
@[simp] theorem complete_res1 (s : State) : (complete s).res1 = s.res1 := rfl
@[simp] theorem complete_errInfo (s : State) : (complete s).errInfo = 0#32 := rfl
@[simp] theorem complete_nleaf (s : State) : (complete s).nleaf = s.nleaf := rfl
@[simp] theorem complete_root (s : State) : (complete s).root = s.root := rfl
@[simp] theorem complete_freq (s : State) : (complete s).freq = s.freq := rfl
@[simp] theorem complete_nodes (s : State) : (complete s).nodes = s.nodes := rfl
@[simp] theorem complete_codes (s : State) : (complete s).codes = s.codes := rfl
@[simp] theorem complete_latch (s : State) : (complete s).latch = none := rfl
@[simp] theorem complete_mem (s : State) : (complete s).mem = s.mem := rfl
@[simp] theorem complete_hostQueue (s : State) : (complete s).hostQueue = s.hostQueue := rfl
@[simp] theorem complete_response (s : State) : (complete s).response = s.response := rfl
@[simp] theorem complete_drawCount (s : State) : (complete s).drawCount = s.drawCount := rfl

/-! ### `drawRange`. `drawRange_mem` is no simp lemma: `read_drawRange` of Laws/Memory.lean says what a byte reads. -/

theorem drawRange_memSize (a n : Nat) (s : State) : (drawRange a n s).memSize = s.memSize := rfl
@[simp] theorem drawRange_irqEn (a n : Nat) (s : State) : (drawRange a n s).irqEn = s.irqEn := rfl
@[simp] theorem drawRange_done (a n : Nat) (s : State) : (drawRange a n s).done = s.done := rfl
@[simp] theorem drawRange_treeValid (a n : Nat) (s : State) : (drawRange a n s).treeValid = s.treeValid := rfl
@[simp] theorem drawRange_codesValid (a n : Nat) (s : State) : (drawRange a n s).codesValid = s.codesValid := rfl
@[simp] theorem drawRange_hostConflict (a n : Nat) (s : State) : (drawRange a n s).hostConflict = s.hostConflict := rfl
@[simp] theorem drawRange_err (a n : Nat) (s : State) : (drawRange a n s).err = s.err := rfl
@[simp] theorem drawRange_lastOpc (a n : Nat) (s : State) : (drawRange a n s).lastOpc = s.lastOpc := rfl
@[simp] theorem drawRange_arg0 (a n : Nat) (s : State) : (drawRange a n s).arg0 = s.arg0 := rfl
@[simp] theorem drawRange_arg1 (a n : Nat) (s : State) : (drawRange a n s).arg1 = s.arg1 := rfl
@[simp] theorem drawRange_arg2 (a n : Nat) (s : State) : (drawRange a n s).arg2 = s.arg2 := rfl
@[simp] theorem drawRange_arg3 (a n : Nat) (s : State) : (drawRange a n s).arg3 = s.arg3 := rfl
@[simp] theorem drawRange_res0 (a n : Nat) (s : State) : (drawRange a n s).res0 = s.res0 := rfl
@[simp] theorem drawRange_res1 (a n : Nat) (s : State) : (drawRange a n s).res1 = s.res1 := rfl
@[simp] theorem drawRange_errInfo (a n : Nat) (s : State) : (drawRange a n s).errInfo = s.errInfo := rfl
@[simp] theorem drawRange_nleaf (a n : Nat) (s : State) : (drawRange a n s).nleaf = s.nleaf := rfl
@[simp] theorem drawRange_root (a n : Nat) (s : State) : (drawRange a n s).root = s.root := rfl
@[simp] theorem drawRange_freq (a n : Nat) (s : State) : (drawRange a n s).freq = s.freq := rfl
@[simp] theorem drawRange_nodes (a n : Nat) (s : State) : (drawRange a n s).nodes = s.nodes := rfl
@[simp] theorem drawRange_codes (a n : Nat) (s : State) : (drawRange a n s).codes = s.codes := rfl
@[simp] theorem drawRange_latch (a n : Nat) (s : State) : (drawRange a n s).latch = s.latch := rfl
theorem drawRange_mem (a n : Nat) (s : State) : (drawRange a n s).mem = Memory.writeBytes s.mem a (drawnBytes s.drawCount (min (a + n) (Config.memBytes s.memSize) - a)) := rfl
@[simp] theorem drawRange_hostQueue (a n : Nat) (s : State) : (drawRange a n s).hostQueue = s.hostQueue := rfl
@[simp] theorem drawRange_response (a n : Nat) (s : State) : (drawRange a n s).response = s.response := rfl
@[simp] theorem drawRange_drawCount (a n : Nat) (s : State) : (drawRange a n s).drawCount = s.drawCount + (min (a + n) (Config.memBytes s.memSize) - a) := rfl

/-! ### `hardwareReset` -/

@[simp] theorem hardwareReset_memSize (s : State) : (hardwareReset s).memSize = s.memSize := rfl
@[simp] theorem hardwareReset_irqEn (s : State) : (hardwareReset s).irqEn = State.reset.irqEn := rfl
@[simp] theorem hardwareReset_done (s : State) : (hardwareReset s).done = State.reset.done := rfl
@[simp] theorem hardwareReset_treeValid (s : State) : (hardwareReset s).treeValid = State.reset.treeValid := rfl
@[simp] theorem hardwareReset_codesValid (s : State) : (hardwareReset s).codesValid = State.reset.codesValid := rfl
@[simp] theorem hardwareReset_hostConflict (s : State) : (hardwareReset s).hostConflict = State.reset.hostConflict := rfl
@[simp] theorem hardwareReset_err (s : State) : (hardwareReset s).err = State.reset.err := rfl
@[simp] theorem hardwareReset_lastOpc (s : State) : (hardwareReset s).lastOpc = State.reset.lastOpc := rfl
@[simp] theorem hardwareReset_arg0 (s : State) : (hardwareReset s).arg0 = State.reset.arg0 := rfl
@[simp] theorem hardwareReset_arg1 (s : State) : (hardwareReset s).arg1 = State.reset.arg1 := rfl
@[simp] theorem hardwareReset_arg2 (s : State) : (hardwareReset s).arg2 = State.reset.arg2 := rfl
@[simp] theorem hardwareReset_arg3 (s : State) : (hardwareReset s).arg3 = State.reset.arg3 := rfl
@[simp] theorem hardwareReset_res0 (s : State) : (hardwareReset s).res0 = State.reset.res0 := rfl
@[simp] theorem hardwareReset_res1 (s : State) : (hardwareReset s).res1 = State.reset.res1 := rfl
@[simp] theorem hardwareReset_errInfo (s : State) : (hardwareReset s).errInfo = State.reset.errInfo := rfl
@[simp] theorem hardwareReset_nleaf (s : State) : (hardwareReset s).nleaf = State.reset.nleaf := rfl
@[simp] theorem hardwareReset_root (s : State) : (hardwareReset s).root = State.reset.root := rfl
@[simp] theorem hardwareReset_freq (s : State) : (hardwareReset s).freq = State.reset.freq := rfl
@[simp] theorem hardwareReset_nodes (s : State) : (hardwareReset s).nodes = State.reset.nodes := rfl
@[simp] theorem hardwareReset_codes (s : State) : (hardwareReset s).codes = State.reset.codes := rfl
@[simp] theorem hardwareReset_latch (s : State) : (hardwareReset s).latch = State.reset.latch := rfl
@[simp] theorem hardwareReset_mem (s : State) : (hardwareReset s).mem = State.reset.mem := rfl
@[simp] theorem hardwareReset_hostQueue (s : State) : (hardwareReset s).hostQueue = s.hostQueue := rfl
@[simp] theorem hardwareReset_response (s : State) : (hardwareReset s).response = State.reset.response := rfl
@[simp] theorem hardwareReset_drawCount (s : State) : (hardwareReset s).drawCount = s.drawCount := rfl

/-! ### `writeFreq` -/

@[simp] theorem writeFreq_memSize (y : Byte) (v : Word) (s : State) : (writeFreq y v s).memSize = s.memSize := rfl
@[simp] theorem writeFreq_irqEn (y : Byte) (v : Word) (s : State) : (writeFreq y v s).irqEn = s.irqEn := rfl
@[simp] theorem writeFreq_done (y : Byte) (v : Word) (s : State) : (writeFreq y v s).done = s.done := rfl
@[simp] theorem writeFreq_treeValid (y : Byte) (v : Word) (s : State) : (writeFreq y v s).treeValid = false := rfl
@[simp] theorem writeFreq_codesValid (y : Byte) (v : Word) (s : State) : (writeFreq y v s).codesValid = false := rfl
@[simp] theorem writeFreq_hostConflict (y : Byte) (v : Word) (s : State) : (writeFreq y v s).hostConflict = s.hostConflict := rfl
@[simp] theorem writeFreq_err (y : Byte) (v : Word) (s : State) : (writeFreq y v s).err = s.err := rfl
@[simp] theorem writeFreq_lastOpc (y : Byte) (v : Word) (s : State) : (writeFreq y v s).lastOpc = s.lastOpc := rfl
@[simp] theorem writeFreq_arg0 (y : Byte) (v : Word) (s : State) : (writeFreq y v s).arg0 = s.arg0 := rfl
@[simp] theorem writeFreq_arg1 (y : Byte) (v : Word) (s : State) : (writeFreq y v s).arg1 = s.arg1 := rfl
@[simp] theorem writeFreq_arg2 (y : Byte) (v : Word) (s : State) : (writeFreq y v s).arg2 = s.arg2 := rfl
@[simp] theorem writeFreq_arg3 (y : Byte) (v : Word) (s : State) : (writeFreq y v s).arg3 = s.arg3 := rfl
@[simp] theorem writeFreq_res0 (y : Byte) (v : Word) (s : State) : (writeFreq y v s).res0 = s.res0 := rfl
@[simp] theorem writeFreq_res1 (y : Byte) (v : Word) (s : State) : (writeFreq y v s).res1 = s.res1 := rfl
@[simp] theorem writeFreq_errInfo (y : Byte) (v : Word) (s : State) : (writeFreq y v s).errInfo = s.errInfo := rfl
@[simp] theorem writeFreq_nleaf (y : Byte) (v : Word) (s : State) : (writeFreq y v s).nleaf = 0#9 := rfl
@[simp] theorem writeFreq_root (y : Byte) (v : Word) (s : State) : (writeFreq y v s).root = Config.noNode := rfl
@[simp] theorem writeFreq_freq (y : Byte) (v : Word) (s : State) : (writeFreq y v s).freq = setFreq s.freq y v := rfl
@[simp] theorem writeFreq_nodes (y : Byte) (v : Word) (s : State) : (writeFreq y v s).nodes = s.nodes := rfl
@[simp] theorem writeFreq_codes (y : Byte) (v : Word) (s : State) : (writeFreq y v s).codes = s.codes := rfl
@[simp] theorem writeFreq_latch (y : Byte) (v : Word) (s : State) : (writeFreq y v s).latch = s.latch := rfl
@[simp] theorem writeFreq_mem (y : Byte) (v : Word) (s : State) : (writeFreq y v s).mem = s.mem := rfl
@[simp] theorem writeFreq_hostQueue (y : Byte) (v : Word) (s : State) : (writeFreq y v s).hostQueue = s.hostQueue := rfl
@[simp] theorem writeFreq_response (y : Byte) (v : Word) (s : State) : (writeFreq y v s).response = s.response := rfl
@[simp] theorem writeFreq_drawCount (y : Byte) (v : Word) (s : State) : (writeFreq y v s).drawCount = s.drawCount := rfl

/-! ### `answerRead` -/

@[simp] theorem answerRead_memSize (b : BusResponse) (v : Word) (s : State) : (answerRead b v s).memSize = s.memSize := rfl
@[simp] theorem answerRead_irqEn (b : BusResponse) (v : Word) (s : State) : (answerRead b v s).irqEn = s.irqEn := rfl
@[simp] theorem answerRead_done (b : BusResponse) (v : Word) (s : State) : (answerRead b v s).done = s.done := rfl
@[simp] theorem answerRead_treeValid (b : BusResponse) (v : Word) (s : State) : (answerRead b v s).treeValid = s.treeValid := rfl
@[simp] theorem answerRead_codesValid (b : BusResponse) (v : Word) (s : State) : (answerRead b v s).codesValid = s.codesValid := rfl
@[simp] theorem answerRead_hostConflict (b : BusResponse) (v : Word) (s : State) : (answerRead b v s).hostConflict = s.hostConflict := rfl
@[simp] theorem answerRead_err (b : BusResponse) (v : Word) (s : State) : (answerRead b v s).err = s.err := rfl
@[simp] theorem answerRead_lastOpc (b : BusResponse) (v : Word) (s : State) : (answerRead b v s).lastOpc = s.lastOpc := rfl
@[simp] theorem answerRead_arg0 (b : BusResponse) (v : Word) (s : State) : (answerRead b v s).arg0 = s.arg0 := rfl
@[simp] theorem answerRead_arg1 (b : BusResponse) (v : Word) (s : State) : (answerRead b v s).arg1 = s.arg1 := rfl
@[simp] theorem answerRead_arg2 (b : BusResponse) (v : Word) (s : State) : (answerRead b v s).arg2 = s.arg2 := rfl
@[simp] theorem answerRead_arg3 (b : BusResponse) (v : Word) (s : State) : (answerRead b v s).arg3 = s.arg3 := rfl
@[simp] theorem answerRead_res0 (b : BusResponse) (v : Word) (s : State) : (answerRead b v s).res0 = s.res0 := rfl
@[simp] theorem answerRead_res1 (b : BusResponse) (v : Word) (s : State) : (answerRead b v s).res1 = s.res1 := rfl
@[simp] theorem answerRead_errInfo (b : BusResponse) (v : Word) (s : State) : (answerRead b v s).errInfo = s.errInfo := rfl
@[simp] theorem answerRead_nleaf (b : BusResponse) (v : Word) (s : State) : (answerRead b v s).nleaf = s.nleaf := rfl
@[simp] theorem answerRead_root (b : BusResponse) (v : Word) (s : State) : (answerRead b v s).root = s.root := rfl
@[simp] theorem answerRead_freq (b : BusResponse) (v : Word) (s : State) : (answerRead b v s).freq = s.freq := rfl
@[simp] theorem answerRead_nodes (b : BusResponse) (v : Word) (s : State) : (answerRead b v s).nodes = s.nodes := rfl
@[simp] theorem answerRead_codes (b : BusResponse) (v : Word) (s : State) : (answerRead b v s).codes = s.codes := rfl
@[simp] theorem answerRead_latch (b : BusResponse) (v : Word) (s : State) : (answerRead b v s).latch = s.latch := rfl
@[simp] theorem answerRead_mem (b : BusResponse) (v : Word) (s : State) : (answerRead b v s).mem = s.mem := rfl
@[simp] theorem answerRead_hostQueue (b : BusResponse) (v : Word) (s : State) : (answerRead b v s).hostQueue = s.hostQueue := rfl
@[simp] theorem answerRead_response (b : BusResponse) (v : Word) (s : State) : (answerRead b v s).response = some ⟨b, some v⟩ := rfl
@[simp] theorem answerRead_drawCount (b : BusResponse) (v : Word) (s : State) : (answerRead b v s).drawCount = s.drawCount := rfl

/-! ### `answerWrite` -/

@[simp] theorem answerWrite_memSize (b : BusResponse) (s : State) : (answerWrite b s).memSize = s.memSize := rfl
@[simp] theorem answerWrite_irqEn (b : BusResponse) (s : State) : (answerWrite b s).irqEn = s.irqEn := rfl
@[simp] theorem answerWrite_done (b : BusResponse) (s : State) : (answerWrite b s).done = s.done := rfl
@[simp] theorem answerWrite_treeValid (b : BusResponse) (s : State) : (answerWrite b s).treeValid = s.treeValid := rfl
@[simp] theorem answerWrite_codesValid (b : BusResponse) (s : State) : (answerWrite b s).codesValid = s.codesValid := rfl
@[simp] theorem answerWrite_hostConflict (b : BusResponse) (s : State) : (answerWrite b s).hostConflict = s.hostConflict := rfl
@[simp] theorem answerWrite_err (b : BusResponse) (s : State) : (answerWrite b s).err = s.err := rfl
@[simp] theorem answerWrite_lastOpc (b : BusResponse) (s : State) : (answerWrite b s).lastOpc = s.lastOpc := rfl
@[simp] theorem answerWrite_arg0 (b : BusResponse) (s : State) : (answerWrite b s).arg0 = s.arg0 := rfl
@[simp] theorem answerWrite_arg1 (b : BusResponse) (s : State) : (answerWrite b s).arg1 = s.arg1 := rfl
@[simp] theorem answerWrite_arg2 (b : BusResponse) (s : State) : (answerWrite b s).arg2 = s.arg2 := rfl
@[simp] theorem answerWrite_arg3 (b : BusResponse) (s : State) : (answerWrite b s).arg3 = s.arg3 := rfl
@[simp] theorem answerWrite_res0 (b : BusResponse) (s : State) : (answerWrite b s).res0 = s.res0 := rfl
@[simp] theorem answerWrite_res1 (b : BusResponse) (s : State) : (answerWrite b s).res1 = s.res1 := rfl
@[simp] theorem answerWrite_errInfo (b : BusResponse) (s : State) : (answerWrite b s).errInfo = s.errInfo := rfl
@[simp] theorem answerWrite_nleaf (b : BusResponse) (s : State) : (answerWrite b s).nleaf = s.nleaf := rfl
@[simp] theorem answerWrite_root (b : BusResponse) (s : State) : (answerWrite b s).root = s.root := rfl
@[simp] theorem answerWrite_freq (b : BusResponse) (s : State) : (answerWrite b s).freq = s.freq := rfl
@[simp] theorem answerWrite_nodes (b : BusResponse) (s : State) : (answerWrite b s).nodes = s.nodes := rfl
@[simp] theorem answerWrite_codes (b : BusResponse) (s : State) : (answerWrite b s).codes = s.codes := rfl
@[simp] theorem answerWrite_latch (b : BusResponse) (s : State) : (answerWrite b s).latch = s.latch := rfl
@[simp] theorem answerWrite_mem (b : BusResponse) (s : State) : (answerWrite b s).mem = s.mem := rfl
@[simp] theorem answerWrite_hostQueue (b : BusResponse) (s : State) : (answerWrite b s).hostQueue = s.hostQueue := rfl
@[simp] theorem answerWrite_response (b : BusResponse) (s : State) : (answerWrite b s).response = some ⟨b, none⟩ := rfl
@[simp] theorem answerWrite_drawCount (b : BusResponse) (s : State) : (answerWrite b s).drawCount = s.drawCount := rfl

/-! ### `conflictRead` -/

@[simp] theorem conflictRead_memSize (z : AccessSize) (s : State) : (conflictRead z s).memSize = s.memSize := rfl
@[simp] theorem conflictRead_irqEn (z : AccessSize) (s : State) : (conflictRead z s).irqEn = s.irqEn := rfl
@[simp] theorem conflictRead_done (z : AccessSize) (s : State) : (conflictRead z s).done = s.done := rfl
@[simp] theorem conflictRead_treeValid (z : AccessSize) (s : State) : (conflictRead z s).treeValid = s.treeValid := rfl
@[simp] theorem conflictRead_codesValid (z : AccessSize) (s : State) : (conflictRead z s).codesValid = s.codesValid := rfl
@[simp] theorem conflictRead_hostConflict (z : AccessSize) (s : State) : (conflictRead z s).hostConflict = true := rfl
@[simp] theorem conflictRead_err (z : AccessSize) (s : State) : (conflictRead z s).err = s.err := rfl
@[simp] theorem conflictRead_lastOpc (z : AccessSize) (s : State) : (conflictRead z s).lastOpc = s.lastOpc := rfl
@[simp] theorem conflictRead_arg0 (z : AccessSize) (s : State) : (conflictRead z s).arg0 = s.arg0 := rfl
@[simp] theorem conflictRead_arg1 (z : AccessSize) (s : State) : (conflictRead z s).arg1 = s.arg1 := rfl
@[simp] theorem conflictRead_arg2 (z : AccessSize) (s : State) : (conflictRead z s).arg2 = s.arg2 := rfl
@[simp] theorem conflictRead_arg3 (z : AccessSize) (s : State) : (conflictRead z s).arg3 = s.arg3 := rfl
@[simp] theorem conflictRead_res0 (z : AccessSize) (s : State) : (conflictRead z s).res0 = s.res0 := rfl
@[simp] theorem conflictRead_res1 (z : AccessSize) (s : State) : (conflictRead z s).res1 = s.res1 := rfl
@[simp] theorem conflictRead_errInfo (z : AccessSize) (s : State) : (conflictRead z s).errInfo = s.errInfo := rfl
@[simp] theorem conflictRead_nleaf (z : AccessSize) (s : State) : (conflictRead z s).nleaf = s.nleaf := rfl
@[simp] theorem conflictRead_root (z : AccessSize) (s : State) : (conflictRead z s).root = s.root := rfl
@[simp] theorem conflictRead_freq (z : AccessSize) (s : State) : (conflictRead z s).freq = s.freq := rfl
@[simp] theorem conflictRead_nodes (z : AccessSize) (s : State) : (conflictRead z s).nodes = s.nodes := rfl
@[simp] theorem conflictRead_codes (z : AccessSize) (s : State) : (conflictRead z s).codes = s.codes := rfl
@[simp] theorem conflictRead_latch (z : AccessSize) (s : State) : (conflictRead z s).latch = s.latch := rfl
@[simp] theorem conflictRead_mem (z : AccessSize) (s : State) : (conflictRead z s).mem = s.mem := rfl
@[simp] theorem conflictRead_hostQueue (z : AccessSize) (s : State) : (conflictRead z s).hostQueue = s.hostQueue := rfl
@[simp] theorem conflictRead_response (z : AccessSize) (s : State) : (conflictRead z s).response = some ⟨.okay, some (maskToSize z (Config.drawWord s.drawCount))⟩ := rfl
@[simp] theorem conflictRead_drawCount (z : AccessSize) (s : State) : (conflictRead z s).drawCount = s.drawCount + 1 := rfl

/-! ### `conflictWrite` -/

@[simp] theorem conflictWrite_memSize (s : State) : (conflictWrite s).memSize = s.memSize := rfl
@[simp] theorem conflictWrite_irqEn (s : State) : (conflictWrite s).irqEn = s.irqEn := rfl
@[simp] theorem conflictWrite_done (s : State) : (conflictWrite s).done = s.done := rfl
@[simp] theorem conflictWrite_treeValid (s : State) : (conflictWrite s).treeValid = s.treeValid := rfl
@[simp] theorem conflictWrite_codesValid (s : State) : (conflictWrite s).codesValid = s.codesValid := rfl
@[simp] theorem conflictWrite_hostConflict (s : State) : (conflictWrite s).hostConflict = true := rfl
@[simp] theorem conflictWrite_err (s : State) : (conflictWrite s).err = s.err := rfl
@[simp] theorem conflictWrite_lastOpc (s : State) : (conflictWrite s).lastOpc = s.lastOpc := rfl
@[simp] theorem conflictWrite_arg0 (s : State) : (conflictWrite s).arg0 = s.arg0 := rfl
@[simp] theorem conflictWrite_arg1 (s : State) : (conflictWrite s).arg1 = s.arg1 := rfl
@[simp] theorem conflictWrite_arg2 (s : State) : (conflictWrite s).arg2 = s.arg2 := rfl
@[simp] theorem conflictWrite_arg3 (s : State) : (conflictWrite s).arg3 = s.arg3 := rfl
@[simp] theorem conflictWrite_res0 (s : State) : (conflictWrite s).res0 = s.res0 := rfl
@[simp] theorem conflictWrite_res1 (s : State) : (conflictWrite s).res1 = s.res1 := rfl
@[simp] theorem conflictWrite_errInfo (s : State) : (conflictWrite s).errInfo = s.errInfo := rfl
@[simp] theorem conflictWrite_nleaf (s : State) : (conflictWrite s).nleaf = s.nleaf := rfl
@[simp] theorem conflictWrite_root (s : State) : (conflictWrite s).root = s.root := rfl
@[simp] theorem conflictWrite_freq (s : State) : (conflictWrite s).freq = s.freq := rfl
@[simp] theorem conflictWrite_nodes (s : State) : (conflictWrite s).nodes = s.nodes := rfl
@[simp] theorem conflictWrite_codes (s : State) : (conflictWrite s).codes = s.codes := rfl
@[simp] theorem conflictWrite_latch (s : State) : (conflictWrite s).latch = s.latch := rfl
@[simp] theorem conflictWrite_mem (s : State) : (conflictWrite s).mem = s.mem := rfl
@[simp] theorem conflictWrite_hostQueue (s : State) : (conflictWrite s).hostQueue = s.hostQueue := rfl
@[simp] theorem conflictWrite_response (s : State) : (conflictWrite s).response = some ⟨.okay, none⟩ := rfl
@[simp] theorem conflictWrite_drawCount (s : State) : (conflictWrite s).drawCount = s.drawCount := rfl

/-! ### `takeEvent` -/

@[simp] theorem takeEvent_memSize (s : State) : (s.takeEvent).memSize = s.memSize := rfl
@[simp] theorem takeEvent_irqEn (s : State) : (s.takeEvent).irqEn = s.irqEn := rfl
@[simp] theorem takeEvent_done (s : State) : (s.takeEvent).done = s.done := rfl
@[simp] theorem takeEvent_treeValid (s : State) : (s.takeEvent).treeValid = s.treeValid := rfl
@[simp] theorem takeEvent_codesValid (s : State) : (s.takeEvent).codesValid = s.codesValid := rfl
@[simp] theorem takeEvent_hostConflict (s : State) : (s.takeEvent).hostConflict = s.hostConflict := rfl
@[simp] theorem takeEvent_err (s : State) : (s.takeEvent).err = s.err := rfl
@[simp] theorem takeEvent_lastOpc (s : State) : (s.takeEvent).lastOpc = s.lastOpc := rfl
@[simp] theorem takeEvent_arg0 (s : State) : (s.takeEvent).arg0 = s.arg0 := rfl
@[simp] theorem takeEvent_arg1 (s : State) : (s.takeEvent).arg1 = s.arg1 := rfl
@[simp] theorem takeEvent_arg2 (s : State) : (s.takeEvent).arg2 = s.arg2 := rfl
@[simp] theorem takeEvent_arg3 (s : State) : (s.takeEvent).arg3 = s.arg3 := rfl
@[simp] theorem takeEvent_res0 (s : State) : (s.takeEvent).res0 = s.res0 := rfl
@[simp] theorem takeEvent_res1 (s : State) : (s.takeEvent).res1 = s.res1 := rfl
@[simp] theorem takeEvent_errInfo (s : State) : (s.takeEvent).errInfo = s.errInfo := rfl
@[simp] theorem takeEvent_nleaf (s : State) : (s.takeEvent).nleaf = s.nleaf := rfl
@[simp] theorem takeEvent_root (s : State) : (s.takeEvent).root = s.root := rfl
@[simp] theorem takeEvent_freq (s : State) : (s.takeEvent).freq = s.freq := rfl
@[simp] theorem takeEvent_nodes (s : State) : (s.takeEvent).nodes = s.nodes := rfl
@[simp] theorem takeEvent_codes (s : State) : (s.takeEvent).codes = s.codes := rfl
@[simp] theorem takeEvent_latch (s : State) : (s.takeEvent).latch = s.latch := rfl
@[simp] theorem takeEvent_mem (s : State) : (s.takeEvent).mem = s.mem := rfl
@[simp] theorem takeEvent_hostQueue (s : State) : (s.takeEvent).hostQueue = s.hostQueue.tail := rfl
@[simp] theorem takeEvent_response (s : State) : (s.takeEvent).response = s.response := rfl
@[simp] theorem takeEvent_drawCount (s : State) : (s.takeEvent).drawCount = s.drawCount := rfl

/-! ### `spoilDestination` and `raiseError` -/

@[simp] theorem spoilDestination_memSize (l : Latch) (c : ErrCode) (s : State) : (spoilDestination l c s).memSize = s.memSize := by
  unfold spoilDestination; split <;> rfl
@[simp] theorem spoilDestination_irqEn (l : Latch) (c : ErrCode) (s : State) : (spoilDestination l c s).irqEn = s.irqEn := by
  unfold spoilDestination; split <;> rfl
@[simp] theorem spoilDestination_done (l : Latch) (c : ErrCode) (s : State) : (spoilDestination l c s).done = s.done := by
  unfold spoilDestination; split <;> rfl
@[simp] theorem spoilDestination_treeValid (l : Latch) (c : ErrCode) (s : State) : (spoilDestination l c s).treeValid = s.treeValid := by
  unfold spoilDestination; split <;> rfl
@[simp] theorem spoilDestination_codesValid (l : Latch) (c : ErrCode) (s : State) : (spoilDestination l c s).codesValid = s.codesValid := by
  unfold spoilDestination; split <;> rfl
@[simp] theorem spoilDestination_hostConflict (l : Latch) (c : ErrCode) (s : State) : (spoilDestination l c s).hostConflict = s.hostConflict := by
  unfold spoilDestination; split <;> rfl
@[simp] theorem spoilDestination_err (l : Latch) (c : ErrCode) (s : State) : (spoilDestination l c s).err = s.err := by
  unfold spoilDestination; split <;> rfl
@[simp] theorem spoilDestination_lastOpc (l : Latch) (c : ErrCode) (s : State) : (spoilDestination l c s).lastOpc = s.lastOpc := by
  unfold spoilDestination; split <;> rfl
@[simp] theorem spoilDestination_arg0 (l : Latch) (c : ErrCode) (s : State) : (spoilDestination l c s).arg0 = s.arg0 := by
  unfold spoilDestination; split <;> rfl
@[simp] theorem spoilDestination_arg1 (l : Latch) (c : ErrCode) (s : State) : (spoilDestination l c s).arg1 = s.arg1 := by
  unfold spoilDestination; split <;> rfl
@[simp] theorem spoilDestination_arg2 (l : Latch) (c : ErrCode) (s : State) : (spoilDestination l c s).arg2 = s.arg2 := by
  unfold spoilDestination; split <;> rfl
@[simp] theorem spoilDestination_arg3 (l : Latch) (c : ErrCode) (s : State) : (spoilDestination l c s).arg3 = s.arg3 := by
  unfold spoilDestination; split <;> rfl
@[simp] theorem spoilDestination_res0 (l : Latch) (c : ErrCode) (s : State) : (spoilDestination l c s).res0 = s.res0 := by
  unfold spoilDestination; split <;> rfl
@[simp] theorem spoilDestination_res1 (l : Latch) (c : ErrCode) (s : State) : (spoilDestination l c s).res1 = s.res1 := by
  unfold spoilDestination; split <;> rfl
@[simp] theorem spoilDestination_errInfo (l : Latch) (c : ErrCode) (s : State) : (spoilDestination l c s).errInfo = s.errInfo := by
  unfold spoilDestination; split <;> rfl
@[simp] theorem spoilDestination_nleaf (l : Latch) (c : ErrCode) (s : State) : (spoilDestination l c s).nleaf = s.nleaf := by
  unfold spoilDestination; split <;> rfl
@[simp] theorem spoilDestination_root (l : Latch) (c : ErrCode) (s : State) : (spoilDestination l c s).root = s.root := by
  unfold spoilDestination; split <;> rfl
@[simp] theorem spoilDestination_freq (l : Latch) (c : ErrCode) (s : State) : (spoilDestination l c s).freq = s.freq := by
  unfold spoilDestination; split <;> rfl
@[simp] theorem spoilDestination_nodes (l : Latch) (c : ErrCode) (s : State) : (spoilDestination l c s).nodes = s.nodes := by
  unfold spoilDestination; split <;> rfl
@[simp] theorem spoilDestination_codes (l : Latch) (c : ErrCode) (s : State) : (spoilDestination l c s).codes = s.codes := by
  unfold spoilDestination; split <;> rfl
@[simp] theorem spoilDestination_latch (l : Latch) (c : ErrCode) (s : State) : (spoilDestination l c s).latch = s.latch := by
  unfold spoilDestination; split <;> rfl
@[simp] theorem spoilDestination_hostQueue (l : Latch) (c : ErrCode) (s : State) : (spoilDestination l c s).hostQueue = s.hostQueue := by
  unfold spoilDestination; split <;> rfl
@[simp] theorem spoilDestination_response (l : Latch) (c : ErrCode) (s : State) : (spoilDestination l c s).response = s.response := by
  unfold spoilDestination; split <;> rfl

@[simp] theorem raiseError_memSize (l : Latch) (c : ErrCode) (n : Nat) (s : State) : (raiseError l c n s).memSize = s.memSize :=
  spoilDestination_memSize l c s
@[simp] theorem raiseError_irqEn (l : Latch) (c : ErrCode) (n : Nat) (s : State) : (raiseError l c n s).irqEn = s.irqEn :=
  spoilDestination_irqEn l c s
@[simp] theorem raiseError_done (l : Latch) (c : ErrCode) (n : Nat) (s : State) : (raiseError l c n s).done = true := rfl
@[simp] theorem raiseError_treeValid (l : Latch) (c : ErrCode) (n : Nat) (s : State) : (raiseError l c n s).treeValid = s.treeValid :=
  spoilDestination_treeValid l c s
@[simp] theorem raiseError_codesValid (l : Latch) (c : ErrCode) (n : Nat) (s : State) : (raiseError l c n s).codesValid = s.codesValid :=
  spoilDestination_codesValid l c s
@[simp] theorem raiseError_hostConflict (l : Latch) (c : ErrCode) (n : Nat) (s : State) : (raiseError l c n s).hostConflict = s.hostConflict :=
  spoilDestination_hostConflict l c s
@[simp] theorem raiseError_err (l : Latch) (c : ErrCode) (n : Nat) (s : State) : (raiseError l c n s).err = c := rfl
@[simp] theorem raiseError_lastOpc (l : Latch) (c : ErrCode) (n : Nat) (s : State) : (raiseError l c n s).lastOpc = s.lastOpc :=
  spoilDestination_lastOpc l c s
@[simp] theorem raiseError_arg0 (l : Latch) (c : ErrCode) (n : Nat) (s : State) : (raiseError l c n s).arg0 = s.arg0 :=
  spoilDestination_arg0 l c s
@[simp] theorem raiseError_arg1 (l : Latch) (c : ErrCode) (n : Nat) (s : State) : (raiseError l c n s).arg1 = s.arg1 :=
  spoilDestination_arg1 l c s
@[simp] theorem raiseError_arg2 (l : Latch) (c : ErrCode) (n : Nat) (s : State) : (raiseError l c n s).arg2 = s.arg2 :=
  spoilDestination_arg2 l c s
@[simp] theorem raiseError_arg3 (l : Latch) (c : ErrCode) (n : Nat) (s : State) : (raiseError l c n s).arg3 = s.arg3 :=
  spoilDestination_arg3 l c s
@[simp] theorem raiseError_res0 (l : Latch) (c : ErrCode) (n : Nat) (s : State) : (raiseError l c n s).res0 = 0#32 := rfl
@[simp] theorem raiseError_res1 (l : Latch) (c : ErrCode) (n : Nat) (s : State) : (raiseError l c n s).res1 = 0#32 := rfl
@[simp] theorem raiseError_errInfo (l : Latch) (c : ErrCode) (n : Nat) (s : State) : (raiseError l c n s).errInfo = BitVec.ofNat 32 n := rfl
@[simp] theorem raiseError_nleaf (l : Latch) (c : ErrCode) (n : Nat) (s : State) : (raiseError l c n s).nleaf = s.nleaf :=
  spoilDestination_nleaf l c s
@[simp] theorem raiseError_root (l : Latch) (c : ErrCode) (n : Nat) (s : State) : (raiseError l c n s).root = s.root :=
  spoilDestination_root l c s
@[simp] theorem raiseError_freq (l : Latch) (c : ErrCode) (n : Nat) (s : State) : (raiseError l c n s).freq = s.freq :=
  spoilDestination_freq l c s
@[simp] theorem raiseError_nodes (l : Latch) (c : ErrCode) (n : Nat) (s : State) : (raiseError l c n s).nodes = s.nodes :=
  spoilDestination_nodes l c s
@[simp] theorem raiseError_codes (l : Latch) (c : ErrCode) (n : Nat) (s : State) : (raiseError l c n s).codes = s.codes :=
  spoilDestination_codes l c s
@[simp] theorem raiseError_latch (l : Latch) (c : ErrCode) (n : Nat) (s : State) : (raiseError l c n s).latch = none := rfl
@[simp] theorem raiseError_mem (l : Latch) (c : ErrCode) (n : Nat) (s : State) : (raiseError l c n s).mem = (spoilDestination l c s).mem := rfl
@[simp] theorem raiseError_hostQueue (l : Latch) (c : ErrCode) (n : Nat) (s : State) : (raiseError l c n s).hostQueue = s.hostQueue :=
  spoilDestination_hostQueue l c s
@[simp] theorem raiseError_response (l : Latch) (c : ErrCode) (n : Nat) (s : State) : (raiseError l c n s).response = s.response :=
  spoilDestination_response l c s
@[simp] theorem raiseError_drawCount (l : Latch) (c : ErrCode) (n : Nat) (s : State) : (raiseError l c n s).drawCount = (spoilDestination l c s).drawCount := rfl

/-! ### `abandon` and `softReset` -/

@[simp] theorem abandon_memSize (s : State) : (abandon s).memSize = s.memSize := by
  unfold abandon; split <;> rfl
@[simp] theorem abandon_irqEn (s : State) : (abandon s).irqEn = s.irqEn := by
  unfold abandon; split <;> rfl
@[simp] theorem abandon_done (s : State) : (abandon s).done = s.done := by
  unfold abandon; split <;> rfl
@[simp] theorem abandon_treeValid (s : State) : (abandon s).treeValid = s.treeValid := by
  unfold abandon; split <;> rfl
@[simp] theorem abandon_codesValid (s : State) : (abandon s).codesValid = s.codesValid := by
  unfold abandon; split <;> rfl
@[simp] theorem abandon_hostConflict (s : State) : (abandon s).hostConflict = s.hostConflict := by
  unfold abandon; split <;> rfl
@[simp] theorem abandon_err (s : State) : (abandon s).err = s.err := by
  unfold abandon; split <;> rfl
@[simp] theorem abandon_lastOpc (s : State) : (abandon s).lastOpc = s.lastOpc := by
  unfold abandon; split <;> rfl
@[simp] theorem abandon_arg0 (s : State) : (abandon s).arg0 = s.arg0 := by
  unfold abandon; split <;> rfl
@[simp] theorem abandon_arg1 (s : State) : (abandon s).arg1 = s.arg1 := by
  unfold abandon; split <;> rfl
@[simp] theorem abandon_arg2 (s : State) : (abandon s).arg2 = s.arg2 := by
  unfold abandon; split <;> rfl
@[simp] theorem abandon_arg3 (s : State) : (abandon s).arg3 = s.arg3 := by
  unfold abandon; split <;> rfl
@[simp] theorem abandon_res0 (s : State) : (abandon s).res0 = s.res0 := by
  unfold abandon; split <;> rfl
@[simp] theorem abandon_res1 (s : State) : (abandon s).res1 = s.res1 := by
  unfold abandon; split <;> rfl
@[simp] theorem abandon_errInfo (s : State) : (abandon s).errInfo = s.errInfo := by
  unfold abandon; split <;> rfl
@[simp] theorem abandon_nleaf (s : State) : (abandon s).nleaf = s.nleaf := by
  unfold abandon; split <;> rfl
@[simp] theorem abandon_root (s : State) : (abandon s).root = s.root := by
  unfold abandon; split <;> rfl
@[simp] theorem abandon_freq (s : State) : (abandon s).freq = s.freq := by
  unfold abandon; split <;> rfl
@[simp] theorem abandon_nodes (s : State) : (abandon s).nodes = s.nodes := by
  unfold abandon; split <;> rfl
@[simp] theorem abandon_codes (s : State) : (abandon s).codes = s.codes := by
  unfold abandon; split <;> rfl
@[simp] theorem abandon_latch (s : State) : (abandon s).latch = s.latch := by
  unfold abandon; split <;> rfl
@[simp] theorem abandon_hostQueue (s : State) : (abandon s).hostQueue = s.hostQueue := by
  unfold abandon; split <;> rfl
@[simp] theorem abandon_response (s : State) : (abandon s).response = s.response := by
  unfold abandon; split <;> rfl

@[simp] theorem softReset_memSize (s : State) : (softReset s).memSize = s.memSize :=
  abandon_memSize s
@[simp] theorem softReset_irqEn (s : State) : (softReset s).irqEn = State.reset.irqEn := rfl
@[simp] theorem softReset_done (s : State) : (softReset s).done = State.reset.done := rfl
@[simp] theorem softReset_treeValid (s : State) : (softReset s).treeValid = State.reset.treeValid := rfl
@[simp] theorem softReset_codesValid (s : State) : (softReset s).codesValid = State.reset.codesValid := rfl
@[simp] theorem softReset_hostConflict (s : State) : (softReset s).hostConflict = State.reset.hostConflict := rfl
@[simp] theorem softReset_err (s : State) : (softReset s).err = State.reset.err := rfl
@[simp] theorem softReset_lastOpc (s : State) : (softReset s).lastOpc = State.reset.lastOpc := rfl
@[simp] theorem softReset_arg0 (s : State) : (softReset s).arg0 = State.reset.arg0 := rfl
@[simp] theorem softReset_arg1 (s : State) : (softReset s).arg1 = State.reset.arg1 := rfl
@[simp] theorem softReset_arg2 (s : State) : (softReset s).arg2 = State.reset.arg2 := rfl
@[simp] theorem softReset_arg3 (s : State) : (softReset s).arg3 = State.reset.arg3 := rfl
@[simp] theorem softReset_res0 (s : State) : (softReset s).res0 = State.reset.res0 := rfl
@[simp] theorem softReset_res1 (s : State) : (softReset s).res1 = State.reset.res1 := rfl
@[simp] theorem softReset_errInfo (s : State) : (softReset s).errInfo = State.reset.errInfo := rfl
@[simp] theorem softReset_nleaf (s : State) : (softReset s).nleaf = State.reset.nleaf := rfl
@[simp] theorem softReset_root (s : State) : (softReset s).root = State.reset.root := rfl
@[simp] theorem softReset_freq (s : State) : (softReset s).freq = State.reset.freq := rfl
@[simp] theorem softReset_nodes (s : State) : (softReset s).nodes = State.reset.nodes := rfl
@[simp] theorem softReset_codes (s : State) : (softReset s).codes = State.reset.codes := rfl
@[simp] theorem softReset_latch (s : State) : (softReset s).latch = State.reset.latch := rfl
@[simp] theorem softReset_mem (s : State) : (softReset s).mem = (abandon s).mem := rfl
@[simp] theorem softReset_hostQueue (s : State) : (softReset s).hostQueue = s.hostQueue :=
  abandon_hostQueue s
@[simp] theorem softReset_response (s : State) : (softReset s).response = State.reset.response := rfl
@[simp] theorem softReset_drawCount (s : State) : (softReset s).drawCount = (abandon s).drawCount := rfl

/-! ### BUSY after an update -/

@[simp] theorem issue_busy (w : Word) (s : State) : (issue w s).busy = true := rfl
@[simp] theorem complete_busy (s : State) : (complete s).busy = false := rfl
@[simp] theorem raiseError_busy (l : Latch) (c : ErrCode) (n : Nat) (s : State) : (raiseError l c n s).busy = false := rfl
@[simp] theorem hardwareReset_busy (s : State) : (hardwareReset s).busy = false := rfl
@[simp] theorem softReset_busy (s : State) : (softReset s).busy = false := rfl

end Sys2Proof.Machine
end

