-- ==== Sys2Proof/Laws/Command.lean ====
section
/-! SUPPORT. What the engine step of a command can do, said once: the common checks (R63), completion (R109) and failure
(R123). -/

namespace Sys2Proof.Machine

/-! ### The monad of a running command -/

@[simp] theorem Run.ok_bind {α β : Type} (a : α) (f : α → Run β) : ((Except.ok a : Run α) >>= f) = f a := rfl

@[simp] theorem Run.error_bind {α β : Type} (e : Abort) (f : α → Run β) :
    ((Except.error e : Run α) >>= f) = .error e := rfl

@[simp] theorem Run.pure_eq {α : Type} (a : α) : (pure a : Run α) = .ok a := rfl

theorem Run.bind_eq_ok {α β : Type} {x : Run α} {f : α → Run β} {b : β} :
    (x >>= f) = .ok b ↔ ∃ a, x = .ok a ∧ f a = .ok b := by
  cases x <;> simp

theorem Run.bind_eq_error {α β : Type} {x : Run α} {f : α → Run β} {e : Abort} :
    (x >>= f) = .error e ↔ x = .error e ∨ ∃ a, x = .ok a ∧ f a = .error e := by
  cases x <;> simp

/-! ### The common checks -/

theorem preCheck_eq_ok {i : Instr} {l : Latch} {s : State} {u : Unit} :
    preCheck i l s = .ok u ↔ ready i s = true ∧ rangesValid (Config.memBytes s.memSize) i l = true := by
  unfold preCheck; cases ready i s <;> cases rangesValid (Config.memBytes s.memSize) i l <;> simp

/-- A check that fails raises NOT_READY or BAD_RANGE with position 0, NOT_READY first (R63, R122). -/
theorem preCheck_eq_error {i : Instr} {l : Latch} {s : State} {e : Abort} :
    preCheck i l s = .error e ↔
      (ready i s = false ∧ e = .error .notReady 0) ∨
      (ready i s = true ∧ rangesValid (Config.memBytes s.memSize) i l = false ∧ e = .error .badRange 0) := by
  unfold preCheck
  cases ready i s <;> cases rangesValid (Config.memBytes s.memSize) i l <;> simp [eq_comm]

theorem inMem_iff {M a n : Nat} : inMem M a n = true ↔ n = 0 ∨ a + n ≤ M := by simp [inMem]

/-- A destination range that passed the check lies in MEM (R60). -/
theorem destRange_inMem {M : Nat} {i : Instr} {l : Latch} {a n : Nat} (h : rangesValid M i l = true)
    (hd : destRange i l = some (a, n)) : n = 0 ∨ a + n ≤ M := by
  cases i <;> simp [destRange] at hd <;> obtain ⟨rfl, rfl⟩ := hd <;>
    simp [rangesValid, sourceRange, destRange, inMem] at h <;> omega

/-- A source range that passed the check lies in MEM (R60). -/
theorem sourceRange_inMem {M : Nat} {i : Instr} {l : Latch} {a n : Nat} (h : rangesValid M i l = true)
    (hd : sourceRange i l = some (a, n)) : n = 0 ∨ a + n ≤ M := by
  cases i <;> simp [sourceRange] at hd <;> obtain ⟨rfl, rfl⟩ := hd <;>
    simp [rangesValid, sourceRange, destRange, inMem] at h <;> omega

/-- Source and destination that passed the check share no byte (R60, R145). -/
theorem ranges_disjoint {M : Nat} {i : Instr} {l : Latch} {a m b k x : Nat} (h : rangesValid M i l = true)
    (hs : sourceRange i l = some (a, m)) (hd : destRange i l = some (b, k)) (hx : a ≤ x ∧ x < a + m) :
    x < b ∨ b + k ≤ x := by
  simp [rangesValid, hs, hd, overlap] at h
  omega

/-! ### The engine step of a command -/

theorem runCommand_latch {i : Instr} {body : Latch → State → Run State} {s : State} {l : Latch}
    (h : s.latch = some l) : runCommand i body s = finish l s (preCheck i l s >>= fun _ => body l s) := by
  simp [runCommand, h]

/-- A command whose checks pass and whose body succeeds completes (R109). -/
theorem runCommand_complete {i : Instr} {body : Latch → State → Run State} {s u : State} {l : Latch}
    (h : s.latch = some l) (hr : ready i s = true) (hv : rangesValid (Config.memBytes s.memSize) i l = true)
    (hb : body l s = .ok u) : runCommand i body s = .next (complete u) := by
  simp [runCommand_latch h, preCheck, hr, hv, hb, finish]

/-- A command whose checks pass and whose body raises an error fails with it (R123). -/
theorem runCommand_fail {i : Instr} {body : Latch → State → Run State} {s : State} {l : Latch} {c : ErrCode} {n : Nat}
    (h : s.latch = some l) (hr : ready i s = true) (hv : rangesValid (Config.memBytes s.memSize) i l = true)
    (hb : body l s = .error (.error c n)) : runCommand i body s = .next (raiseError l c n s) := by
  simp [runCommand_latch h, preCheck, hr, hv, hb, finish]

/-- Everything the engine step of a command can do when it goes on: completion, a failed check, or an error of the body. -/
theorem runCommand_next {i : Instr} {body : Latch → State → Run State} {s t : State}
    (h : runCommand i body s = .next t) :
    ∃ l, s.latch = some l ∧
      ((ready i s = true ∧ rangesValid (Config.memBytes s.memSize) i l = true ∧ ∃ u, body l s = .ok u ∧ t = complete u) ∨
       (ready i s = false ∧ t = raiseError l .notReady 0 s) ∨
       (ready i s = true ∧ rangesValid (Config.memBytes s.memSize) i l = false ∧ t = raiseError l .badRange 0 s) ∨
       (ready i s = true ∧ rangesValid (Config.memBytes s.memSize) i l = true ∧
         ∃ c n, body l s = .error (.error c n) ∧ t = raiseError l c n s)) := by
  unfold runCommand at h
  cases hl : s.latch with
  | none => simp [hl] at h
  | some l =>
    refine ⟨l, rfl, ?_⟩
    simp only [hl] at h
    cases hr : ready i s with
    | false => simp [preCheck, hr, finish] at h; simp [h]
    | true =>
      cases hv : rangesValid (Config.memBytes s.memSize) i l with
      | false => simp [preCheck, hr, hv, finish] at h; simp [h]
      | true =>
        simp only [preCheck, hr, hv, Bool.true_eq_false, if_false, Run.ok_bind] at h
        cases hb : body l s with
        | ok u => simp [hb, finish] at h; simp [h]
        | error e =>
          cases e with
          | error c n => simp [hb, finish] at h; simp [h]
          | fault f => simp [hb, finish] at h

/-- Everything a command can stop with: no command is latched, or a fault of the body after the checks passed. -/
theorem runCommand_fault {i : Instr} {body : Latch → State → Run State} {s : State} {f : Fault}
    (h : runCommand i body s = .fault f) :
    (s.latch = none ∧ f = .engineIdle) ∨
      ∃ l, s.latch = some l ∧ ready i s = true ∧ rangesValid (Config.memBytes s.memSize) i l = true ∧
        body l s = .error (.fault f) := by
  unfold runCommand at h
  cases hl : s.latch with
  | none => simp [hl] at h; simp [h]
  | some l =>
    right
    refine ⟨l, rfl, ?_⟩
    simp only [hl] at h
    cases hr : ready i s with
    | false => simp [preCheck, hr, finish] at h
    | true =>
      cases hv : rangesValid (Config.memBytes s.memSize) i l with
      | false => simp [preCheck, hr, hv, finish] at h
      | true =>
        simp only [preCheck, hr, hv, Bool.true_eq_false, if_false, Run.ok_bind] at h
        cases hb : body l s with
        | ok u => simp [hb, finish] at h
        | error e =>
          cases e with
          | error c n => simp [hb, finish] at h
          | fault g => simp [hb, finish] at h; simp [h]

theorem runCommand_refused {i : Instr} {body : Latch → State → Run State} {s : State} {r : Refusal} :
    runCommand i body s ≠ .refused r := by
  unfold runCommand
  split
  · simp
  · unfold finish; split <;> simp

/-! ### The effects of a failure on MEM (R123) -/

theorem read_raiseError (l : Latch) (c : ErrCode) (n : Nat) (s : State) (b : Nat) :
    Memory.read (raiseError l c n s).mem b =
      if c.spoilsDestination = true ∧ l.a2.toNat ≤ b ∧ b < l.a2.toNat + l.a3.toNat ∧ b < Config.memBytes s.memSize
      then some (Config.drawByte (s.drawCount + (b - l.a2.toNat))) else Memory.read s.mem b := by
  simp only [raiseError_mem, spoilDestination]
  cases hc : c.spoilsDestination <;> simp [read_drawRange]

theorem wf_raiseError (l : Latch) (c : ErrCode) (n : Nat) {s : State} (h : Memory.wf s.mem) :
    Memory.wf (raiseError l c n s).mem := by
  rw [raiseError_mem]; unfold spoilDestination; split
  · exact wf_drawRange _ _ h
  · exact h

theorem within_raiseError (l : Latch) (c : ErrCode) (n : Nat) {s : State}
    (h : Memory.within (Config.memBytes s.memSize) s.mem) :
    Memory.within (Config.memBytes s.memSize) (raiseError l c n s).mem := by
  rw [raiseError_mem]; unfold spoilDestination; split
  · exact within_drawRange _ _ h
  · exact h

end Sys2Proof.Machine
end

