-- ==== Sys2Proof/Laws/Bits.lean ====
section
/-! SUPPORT. The laws of packed bits (R47, R48), big-endian fields (R9) and little-endian lanes (R42). -/

namespace Sys2Proof.Machine

/-! ### Packing -/

theorem byte_of_bits (b0 b1 b2 b3 b4 b5 b6 b7 : Bool) (m : Fin 8) :
    ([b0, b1, b2, b3, b4, b5, b6, b7].zipIdx.foldl
      (fun (acc : Byte) (c : Bool × Nat) => if c.1 then acc ||| (1#8 <<< (7 - c.2)) else acc) 0#8).getLsbD (7 - m) =
      [b0, b1, b2, b3, b4, b5, b6, b7][m] := by
  revert b0 b1 b2 b3 b4 b5 b6 b7 m; decide

theorem packByte_eq (p : Bits) (k : Nat) :
    packByte p k = ([p.getD (8 * k) false, p.getD (8 * k + 1) false, p.getD (8 * k + 2) false, p.getD (8 * k + 3) false,
      p.getD (8 * k + 4) false, p.getD (8 * k + 5) false, p.getD (8 * k + 6) false, p.getD (8 * k + 7) false].zipIdx.foldl
      (fun (acc : Byte) (c : Bool × Nat) => if c.1 then acc ||| (1#8 <<< (7 - c.2)) else acc) 0#8) := rfl

/-- Bit 7 − m of byte k of a packed bit-string is its bit 8·k + m, 0 past its end (R47). -/
theorem packByte_bit (p : Bits) (k m : Nat) (hm : m < 8) :
    (packByte p k).getLsbD (7 - m) = p.getD (8 * k + m) false := by
  rw [packByte_eq]
  have h := byte_of_bits (p.getD (8 * k) false) (p.getD (8 * k + 1) false) (p.getD (8 * k + 2) false)
    (p.getD (8 * k + 3) false) (p.getD (8 * k + 4) false) (p.getD (8 * k + 5) false) (p.getD (8 * k + 6) false)
    (p.getD (8 * k + 7) false) ⟨m, hm⟩
  refine h.trans ?_
  interval_cases m <;> rfl

@[simp] theorem pack_length (p : Bits) : (pack p).length = ceil8 p.length := by simp [pack]

theorem pack_getElem (p : Bits) (k : Nat) (h : k < (pack p).length) : (pack p)[k] = packByte p k := by simp [pack]

theorem ceil8_le {n c : Nat} : ceil8 n ≤ c ↔ n ≤ 8 * c := by unfold ceil8; omega

theorem lt_ceil8 {j n : Nat} (h : j < n) : j / 8 < ceil8 n := by unfold ceil8; omega

theorem ceil8_mono {m n : Nat} (h : m ≤ n) : ceil8 m ≤ ceil8 n := by unfold ceil8; omega

@[simp] theorem ceil8_zero : ceil8 0 = 0 := rfl

/-- The engine reads a payload bit exactly if the byte that holds it is written. -/
theorem payloadBit_eq_ok {m : Memory} {base j : Nat} {b : Bool} :
    payloadBit m base j = .ok b ↔ ∃ v, Memory.read m (base + j / 8) = some v ∧ v.getLsbD (7 - j % 8) = b := by
  unfold payloadBit
  rw [Run.bind_eq_ok]
  simp [readByte_eq_ok]

theorem payloadBit_eq_error {m : Memory} {base j : Nat} {e : Abort} (h : payloadBit m base j = .error e) :
    ∃ a, e = .fault (.unwrittenRead a) := by
  unfold payloadBit at h
  rcases Run.bind_eq_error.1 h with h | ⟨v, _, h⟩
  · exact ⟨_, (readByte_eq_error h).1⟩
  · simp at h

/-- Unpacking undoes packing: where MEM holds Pack(p), payload bit j is bit j of p (R47, R48). -/
theorem payloadBit_pack {m : Memory} {base : Nat} {p : Bits}
    (h : ∀ k (hk : k < (pack p).length), Memory.read m (base + k) = some (pack p)[k]) {j : Nat} (hj : j < p.length) :
    payloadBit m base j = .ok p[j] := by
  refine payloadBit_eq_ok.2 ⟨packByte p (j / 8), ?_, ?_⟩
  · have hk : j / 8 < (pack p).length := by simpa using lt_ceil8 hj
    rw [h _ hk, pack_getElem]
  · rw [packByte_bit _ _ _ (Nat.mod_lt _ (by omega)), Nat.div_add_mod, List.getD_eq_getElem _ _ hj]

/-! ### Big-endian fields -/

theorem toBe16_length (v : Nat) : (toBe16 v).length = 2 := rfl

theorem toBe32_length (v : Nat) : (toBe32 v).length = 4 := rfl

theorem beNat_toBe16 {v : Nat} (h : v < 2 ^ 16) : beNat (toBe16 v) = v := by
  simp [beNat, toBe16]; omega

theorem beNat_toBe32 {v : Nat} (h : v < 2 ^ 32) : beNat (toBe32 v) = v := by
  simp [beNat, toBe32]; omega

theorem beNat_lt (bs : List Byte) : beNat bs < 256 ^ bs.length := by
  have key : ∀ (bs : List Byte) (acc : Nat),
      bs.foldl (fun acc b => acc * 256 + b.toNat) acc < (acc + 1) * 256 ^ bs.length := by
    intro bs
    induction bs with
    | nil => intro acc; simp
    | cons b bs ih =>
      intro acc
      refine lt_of_lt_of_le (ih _) ?_
      have hb : b.toNat < 256 := b.isLt
      calc (acc * 256 + b.toNat + 1) * 256 ^ bs.length
          ≤ ((acc + 1) * 256) * 256 ^ bs.length := Nat.mul_le_mul_right _ (by omega)
        _ = (acc + 1) * 256 ^ (b :: bs).length := by rw [List.length_cons, pow_succ]; ring
  simpa [beNat] using key bs 0

/-! ### Little-endian lanes -/

@[simp] theorem leBytes_length (n : Nat) (v : Word) : (leBytes n v).length = n := by simp [leBytes]

theorem leBytes_getElem (n : Nat) (v : Word) (k : Nat) (h : k < (leBytes n v).length) :
    (leBytes n v)[k] = v.extractLsb' (8 * k) 8 := by simp [leBytes]

/-! ### The container (R95, R97) -/

@[simp] theorem pairBytes_length (p : Byte × Word) : (pairBytes p).length = 5 := rfl

theorem flatMap_pairBytes_length (ps : List (Byte × Word)) : (ps.flatMap pairBytes).length = 5 * ps.length := by
  induction ps with
  | nil => rfl
  | cons p ps ih => simp only [List.flatMap_cons, List.length_append, pairBytes_length, ih, List.length_cons]; ring

@[simp] theorem clearPadding_length (pb : List Byte) (len : Nat) : (clearPadding pb len).length = pb.length := by
  unfold clearPadding; split <;> simp

/-- `|out| = T(|pairs|, L)` (R97). -/
theorem containerOf_length (ps : List (Byte × Word)) (pb : List Byte) (len : Nat) (h : pb.length = ceil8 len) :
    (containerOf ps pb len).length = containerSize ps.length len := by
  simp [containerOf, toBe16_length, toBe32_length, containerSize, h]; omega

/-! ### Bit fields of register words -/

/-- The value of two bit fields side by side. -/
theorem toNat_append_eq {m n : Nat} (x : BitVec m) (y : BitVec n) : (x ++ y).toNat = x.toNat * 2 ^ n + y.toNat := by
  rw [BitVec.toNat_append, ← Nat.shiftLeft_add_eq_or_of_lt y.isLt, Nat.shiftLeft_eq]

/-- Word 0 of a NODE entry: VALID, IS_LEAF, SYMBOL (R31). -/
theorem nodeWord_head (nd : Node) :
    (nodeWord (some nd) 0).toNat = 1 + 2 * (if nd.isLeaf then 1 else 0) + 256 * nd.symbol.toNat := by
  show (0#16 ++ nd.symbol ++ 0#6 ++ BitVec.ofBool nd.isLeaf ++ 1#1).toNat = _
  simp only [toNat_append_eq]
  cases nd.isLeaf <;> simp <;> omega

/-- Word 1: FREQ[31:0] (R31). -/
theorem nodeWord_freqLow (nd : Node) : (nodeWord (some nd) 1).toNat = nd.freq.toNat % 2 ^ 32 := by simp [nodeWord]

/-- Word 2: FREQ[39:32] (R31). -/
theorem nodeWord_freqHigh (nd : Node) : (nodeWord (some nd) 2).toNat = nd.freq.toNat / 2 ^ 32 := by
  have := nd.freq.isLt
  show (0#24 ++ nd.freq.extractLsb' 32 8).toNat = _
  rw [toNat_append_eq]
  simp [Nat.shiftRight_eq_div_pow]
  omega

/-- Word 3: LEFT, RIGHT (R31). -/
theorem nodeWord_children (nd : Node) :
    (nodeWord (some nd) 3).toNat = nd.left.toNat + 2 ^ 16 * nd.right.toNat := by
  show (0#7 ++ nd.right ++ 0#7 ++ nd.left).toNat = _
  simp only [toNat_append_eq]
  simp
  omega

/-- The padding bits of the last byte are its low `8 − L mod 8` bits (R99, R103). -/
theorem and_paddingMask_eq_zero (b : Byte) {L : Nat} (h : L % 8 ≠ 0) :
    b &&& paddingMask L = 0#8 ↔ b.toNat % 2 ^ (8 - L % 8) = 0 := by
  unfold paddingMask
  have h8 := Nat.mod_lt L (show 0 < 8 by decide)
  generalize L % 8 = r at h h8
  have all : ∀ r : Fin 8, r ≠ 0 → ∀ b : Byte,
      b &&& BitVec.ofNat 8 (0xFF >>> (r : Nat)) = 0#8 ↔ b.toNat % 2 ^ (8 - (r : Nat)) = 0 := by decide +kernel
  exact all ⟨r, h8⟩ (fun h' => h (by simpa using congrArg Fin.val h')) b

end Sys2Proof.Machine
end

