-- ==== Sys2Proof/Laws/Tree.lean ====
section
/-! SUPPORT. The tree that a node list denotes, and what the priority-queue merge keeps (R70–R75). -/

namespace Sys2Proof.Machine

/-! ### The present symbols -/

theorem freqTable_length (f : FreqTable) : f.toList.length = 256 := by simp

/-- The present pairs are the symbols with a count that is not 0 (R12, R27). -/
theorem mem_presentPairs {f : FreqTable} {p : Byte × Word} :
    p ∈ presentPairs f ↔ freqOf f p.1 = p.2 ∧ p.2 ≠ 0#32 := by
  obtain ⟨s, c⟩ := p
  simp only [presentPairs, List.mem_filterMap, Prod.exists]
  constructor
  · rintro ⟨c', k, hmem, hif⟩
    have hk := List.mem_zipIdx' hmem
    split at hif
    · simp at hif
    · next hc =>
      simp only [Option.some.injEq, Prod.mk.injEq] at hif
      obtain ⟨rfl, rfl⟩ := hif
      have hlt : k < 256 := by simpa using hk.1
      refine ⟨?_, hc⟩
      simp only [freqOf, BitVec.toNat_ofNat, Nat.mod_eq_of_lt (show k < 2 ^ 8 from hlt)]
      simpa using hk.2.symm
  · rintro ⟨hf, hc⟩
    refine ⟨c, s.toNat, ?_, by simp [hc]⟩
    rw [List.mem_zipIdx_iff_getElem?]
    simp only [freqOf] at hf
    have hs : s.toNat < 256 := s.isLt
    rw [List.getElem?_eq_getElem (by simpa using hs)]
    simp [hf]

theorem presentPairs_sorted (f : FreqTable) : (presentPairs f).Pairwise (fun p q => p.1.toNat < q.1.toNat) := by
  have hz : (f.toList.zipIdx).Pairwise (fun p q => p.2 < q.2 ∧ q.2 < 256) := by
    rw [List.pairwise_iff_getElem]
    intro i j hi hj hij
    simp only [List.length_zipIdx, Vector.length_toList] at hi hj
    simpa using ⟨hij, hj⟩
  refine List.Pairwise.filterMap _ ?_ hz
  rintro ⟨c, k⟩ ⟨c', k'⟩ ⟨h, h'⟩ p hp q hq
  simp only at hp hq h h'
  split at hp <;> simp at hp
  split at hq <;> simp at hq
  subst hp hq
  simp only [BitVec.toNat_ofNat]
  rw [Nat.mod_eq_of_lt (by omega), Nat.mod_eq_of_lt (by omega)]
  exact h

theorem presentPairs_length_le (f : FreqTable) : (presentPairs f).length ≤ 256 := by
  have h := List.length_filterMap_le (fun (x : Word × Nat) =>
    if x.1 = 0#32 then none else some (BitVec.ofNat 8 x.2, x.1)) f.toList.zipIdx
  simpa [presentPairs] using h

theorem presentPairs_symbols_nodup (f : FreqTable) : ((presentPairs f).map Prod.fst).Nodup := by
  rw [List.nodup_iff_pairwise_ne, List.pairwise_map]
  refine (presentPairs_sorted f).imp fun {p q} h he => ?_
  rw [he] at h
  exact lt_irrefl _ h

/-! ### Extraction -/

theorem Key.before_iff {a b : Key} : a.before b = true ↔ a.freq < b.freq ∨ (a.freq = b.freq ∧ a.idx < b.idx) := by
  simp [Key.before]

theorem extractMin_eq_none {q : List Key} : extractMin q = none ↔ q = [] := by
  cases q with
  | nil => simp [extractMin]
  | cons k ks =>
    simp only [extractMin]
    split
    · simp
    · split <;> simp

/-- Extraction takes one member out of the queue and keeps the others. -/
theorem extractMin_perm {q : List Key} {m : Key} {rest : List Key} (h : extractMin q = some (m, rest)) :
    (m :: rest).Perm q := by
  induction q generalizing m rest with
  | nil => simp [extractMin] at h
  | cons k ks ih =>
    simp only [extractMin] at h
    split at h
    · next hn =>
      obtain rfl := extractMin_eq_none.1 hn
      simp only [Option.some.injEq, Prod.mk.injEq] at h
      obtain ⟨rfl, rfl⟩ := h
      exact List.Perm.refl _
    · next m' rest' hs =>
      split at h <;> simp only [Option.some.injEq, Prod.mk.injEq] at h <;> obtain ⟨rfl, rfl⟩ := h
      · exact List.Perm.refl _
      · exact (List.Perm.swap _ _ _).trans ((ih hs).cons k)

theorem extractMin_length {q : List Key} {m : Key} {rest : List Key} (h : extractMin q = some (m, rest)) :
    rest.length + 1 = q.length := (extractMin_perm h).length_eq

/-! ### Trees -/

/-- A strict binary tree with the symbols and counts at its leaves (the source's TreeNode, R11). -/
inductive HTree where
  | leaf (s : Byte) (c : Word)
  | node (l r : HTree)
deriving DecidableEq, Repr

/-- The sum of the counts at the leaves. -/
def HTree.weight : HTree → Nat
  | .leaf _ c => c.toNat
  | .node l r => l.weight + r.weight

/-- The leaves from left to right. -/
def HTree.leaves : HTree → List (Byte × Word)
  | .leaf s c => [(s, c)]
  | .node l r => l.leaves ++ r.leaves

/-- The symbols with the paths from the root to their leaves, 0 for left and 1 for right. -/
def HTree.paths : HTree → List (Byte × Bits)
  | .leaf s _ => [(s, [])]
  | .node l r => l.paths.map (fun x => (x.1, false :: x.2)) ++ r.paths.map (fun x => (x.1, true :: x.2))

/-- The number of edges of the longest path. -/
def HTree.height : HTree → Nat
  | .leaf _ _ => 0
  | .node l r => max l.height r.height + 1

/-- Index `i` of a node list is the root of the tree `t`. -/
inductive Denotes (nodes : List Node) : Nat → HTree → Prop
  | leaf {i : Nat} {s : Byte} {c : Word} (h : nodes[i]? = some (.leaf s (c.setWidth 40))) :
      Denotes nodes i (.leaf s c)
  | node {i : Nat} {f : NodeFreq} {l r : NodeIdx} {tl tr : HTree} (h : nodes[i]? = some (.internal f l r))
      (hl : Denotes nodes l.toNat tl) (hr : Denotes nodes r.toNat tr)
      (hf : f = BitVec.ofNat 40 (tl.weight + tr.weight)) : Denotes nodes i (.node tl tr)

theorem Denotes.append {nodes : List Node} {i : Nat} {t : HTree} (h : Denotes nodes i t) (more : List Node) :
    Denotes (nodes ++ more) i t := by
  induction h with
  | leaf h => exact .leaf (by rw [List.getElem?_append_left (List.getElem?_eq_some_iff.1 h).1]; exact h)
  | node h _ _ hf ihl ihr =>
    exact .node (by rw [List.getElem?_append_left (List.getElem?_eq_some_iff.1 h).1]; exact h) ihl ihr hf

theorem HTree.leaves_ne_nil (t : HTree) : t.leaves ≠ [] := by
  induction t with
  | leaf s c => simp [HTree.leaves]
  | node l r ihl _ => simp [HTree.leaves, ihl]

theorem HTree.leaves_length_pos (t : HTree) : 0 < t.leaves.length := List.length_pos_iff.2 t.leaves_ne_nil

theorem HTree.height_lt (t : HTree) : t.height < t.leaves.length := by
  induction t with
  | leaf s c => simp [HTree.height, HTree.leaves]
  | node l r ihl ihr =>
    have := l.leaves_length_pos
    have := r.leaves_length_pos
    simp only [HTree.height, HTree.leaves, List.length_append]
    omega

theorem HTree.paths_symbols (t : HTree) : t.paths.map Prod.fst = t.leaves.map Prod.fst := by
  induction t with
  | leaf s c => rfl
  | node l r ihl ihr =>
    simp only [HTree.paths, HTree.leaves, List.map_append, List.map_map, ← ihl, ← ihr]
    rfl

theorem HTree.weight_eq (t : HTree) : t.weight = (t.leaves.map fun p => p.2.toNat).sum := by
  induction t with
  | leaf s c => simp [HTree.weight, HTree.leaves]
  | node l r ihl ihr => simp [HTree.weight, HTree.leaves, ihl, ihr]

/-! ### What the merge keeps -/

/-- The child indices of a node. -/
def Node.children : Node → List Nat
  | .leaf _ _ => []
  | .internal _ l r => [l.toNat, r.toNat]

/-- A queue member stands for a tree of the node list, and its frequency is the tree's weight. -/
def Represents (nodes : List Node) (k : Key) (t : HTree) : Prop := Denotes nodes k.idx t ∧ t.weight = k.freq

/-- What holds of the node list and the queue before and after each pass of the merge loop (R70, R75). -/
structure MergeInv (pairs : List (Byte × Word)) (nodes : List Node) (q : List Key) : Prop where
  /-- The queue members stand for trees whose leaves together are the present pairs. -/
  forest : ∃ ts, List.Forall₂ (Represents nodes) q ts ∧ (ts.flatMap HTree.leaves).Perm pairs
  /-- Each pass adds one node and takes one member away. -/
  count : nodes.length + q.length = 2 * pairs.length
  /-- The leaves come first, in ascending symbol order. -/
  leavesFirst : (pairs.map fun p => Node.leaf p.1 (p.2.setWidth 40)) <+: nodes
  /-- Every node is either in the queue or the child of exactly one node. -/
  parents : (nodes.flatMap Node.children ++ q.map Key.idx).Perm (List.range nodes.length)
  /-- After the leaves come internal nodes, whose children have smaller indices. -/
  internals : ∀ i nd, pairs.length ≤ i → nodes[i]? = some nd →
    ∃ f l r, nd = .internal f l r ∧ l.toNat < i ∧ r.toNat < i

theorem forall₂_perm {α β : Type} {R : α → β → Prop} {l l' : List α} {u : List β} (h : List.Forall₂ R l u)
    (hp : l'.Perm l) : ∃ u', List.Forall₂ R l' u' ∧ u'.Perm u := by
  obtain ⟨u', h1, h2⟩ := List.perm_comp_forall₂ hp h
  exact ⟨u', h1, h2⟩

theorem Represents.append {nodes : List Node} {k : Key} {t : HTree} (h : Represents nodes k t) (more : List Node) :
    Represents (nodes ++ more) k t := ⟨h.1.append more, h.2⟩

theorem MergeInv.pass {pairs : List (Byte × Word)} {nodes : List Node} {q q₁ q₂ : List Key} {i j : Key}
    (hn : pairs.length ≤ 256) (h : MergeInv pairs nodes q) (hi : extractMin q = some (i, q₁))
    (hj : extractMin q₁ = some (j, q₂)) :
    MergeInv pairs (nodes ++ [mergeNode i j]) (q₂ ++ [⟨i.freq + j.freq, nodes.length⟩]) := by
  have hp : (i :: j :: q₂).Perm q := ((extractMin_perm hj).cons i).trans (extractMin_perm hi)
  have hlen : q₂.length + 2 = q.length := by simpa using hp.length_eq
  have hmem : ∀ k ∈ q, k.idx < nodes.length := by
    intro k hk
    have := h.parents.subset (List.mem_append_right _ (List.mem_map_of_mem hk))
    simpa using this
  have hqi : i.idx < nodes.length := hmem i (hp.subset (by simp))
  have hqj : j.idx < nodes.length := hmem j (hp.subset (by simp))
  have hsmall : nodes.length < 512 := by have := h.count; omega
  have hi9 : (BitVec.ofNat 9 i.idx).toNat = i.idx := by simp; omega
  have hj9 : (BitVec.ofNat 9 j.idx).toNat = j.idx := by simp; omega
  obtain ⟨ts, hts, hleaves⟩ := h.forest
  obtain ⟨ts', hts', hperm⟩ := forall₂_perm hts hp
  obtain ⟨t1, hts1, h1, hts1', rfl⟩ := List.forall₂_cons_left_iff.1 hts'
  obtain ⟨t2, ts2, h2, hts2, rfl⟩ := List.forall₂_cons_left_iff.1 hts1'
  refine ⟨⟨ts2 ++ [.node t1 t2], ?_, ?_⟩, ?_, ?_, ?_, ?_⟩
  · refine List.rel_append (hts2.imp fun _ _ hr => hr.append _) (.cons ⟨?_, ?_⟩ .nil)
    · refine .node (f := BitVec.ofNat 40 (i.freq + j.freq)) (l := BitVec.ofNat 9 i.idx) (r := BitVec.ofNat 9 j.idx)
        (by simp [mergeNode]) (by rw [hi9]; exact h1.1.append _) (by rw [hj9]; exact h2.1.append _) ?_
      rw [h1.2, h2.2]
    · show t1.weight + t2.weight = _
      rw [h1.2, h2.2]
  · refine List.Perm.trans ?_ ((hperm.flatMap_right _).trans hleaves)
    simp only [List.flatMap_append, List.flatMap_cons, List.flatMap_nil, List.append_nil, HTree.leaves]
    exact List.perm_append_comm.trans (by simp [List.append_assoc])
  · simp only [List.length_append, List.length_singleton]
    have := h.count
    omega
  · exact h.leavesFirst.trans (List.prefix_append _ _)
  · have hpar := h.parents
    rw [List.length_append, List.length_singleton, List.range_succ]
    simp only [List.flatMap_append, List.flatMap_cons, List.flatMap_nil, List.append_nil, mergeNode, Node.children, hi9, hj9,
      List.map_append, List.map_cons, List.map_nil]
    rw [← List.append_assoc]
    refine List.Perm.append_right _ (List.Perm.trans ?_ hpar)
    rw [List.append_assoc]
    refine List.Perm.append_left _ ?_
    exact (hp.map Key.idx)
  · intro k nd hk hnd
    by_cases hlt : k < nodes.length
    · rw [List.getElem?_append_left hlt] at hnd
      exact h.internals k nd hk hnd
    · have hkn : k = nodes.length := by
        have := (List.getElem?_eq_some_iff.1 hnd).1
        simp at this; omega
      subst hkn
      simp [mergeNode] at hnd
      exact ⟨_, _, _, hnd.symm, by rw [hi9]; exact hqi, by rw [hj9]; exact hqj⟩

theorem extractMin_pair {q : List Key} (h : 2 ≤ q.length) :
    ∃ i q₁ j q₂, extractMin q = some (i, q₁) ∧ extractMin q₁ = some (j, q₂) := by
  cases h1 : extractMin q with
  | none => rw [extractMin_eq_none.1 h1] at h; simp at h
  | some x =>
    obtain ⟨i, q₁⟩ := x
    cases h2 : extractMin q₁ with
    | none =>
      have := extractMin_length h1
      rw [extractMin_eq_none.1 h2] at this
      simp at this; omega
    | some y => exact ⟨i, q₁, y.1, y.2, rfl, h2⟩

/-- What the merge loop leaves: the queue has come down to one member, and the invariant still holds. -/
theorem mergeLoop_inv {pairs : List (Byte × Word)} (hn : pairs.length ≤ 256) (fuel : Nat) {nodes : List Node}
    {q : List Key} (h : MergeInv pairs nodes q) (hq : q ≠ []) (hf : q.length ≤ fuel + 1) :
    MergeInv pairs (mergeLoop fuel nodes q).1 (mergeLoop fuel nodes q).2 ∧ (mergeLoop fuel nodes q).2.length = 1 := by
  induction fuel generalizing nodes q with
  | zero => exact ⟨h, by have := List.length_pos_iff.2 hq; simp only [mergeLoop]; omega⟩
  | succ fuel ih =>
    by_cases h2 : 2 ≤ q.length
    · obtain ⟨i, q₁, j, q₂, e1, e2⟩ := extractMin_pair h2
      have hlen : q₂.length + 2 = q.length := by
        have := extractMin_length e1; have := extractMin_length e2; omega
      simp only [mergeLoop, e1, e2]
      exact ih (h.pass hn e1 e2) (by simp) (by simp; omega)
    · have h1 : q.length = 1 := by have := List.length_pos_iff.2 hq; omega
      obtain ⟨k, rfl⟩ := List.length_eq_one_iff.1 h1
      simp only [mergeLoop, extractMin]
      exact ⟨h, rfl⟩

theorem mergeInv_start (f : FreqTable) : MergeInv (presentPairs f) (leafNodes f) (leafKeys f) := by
  have hlen : (leafNodes f).length = (presentPairs f).length := by simp [leafNodes]
  have hklen : (leafKeys f).length = (presentPairs f).length := by simp [leafKeys]
  refine ⟨⟨(presentPairs f).map fun p => .leaf p.1 p.2, ?_, ?_⟩, by omega, by simp [leafNodes], ?_, ?_⟩
  · rw [List.forall₂_iff_get]
    refine ⟨by simp [leafKeys], fun k hk hk' => ?_⟩
    simp only [leafKeys, List.get_eq_getElem, List.getElem_map, List.getElem_zipIdx]
    rw [hklen] at hk
    exact ⟨.leaf (by simp [leafNodes, hk]), rfl⟩
  · rw [List.flatMap_map]
    simp [HTree.leaves]
  · have h0 : (leafNodes f).flatMap Node.children = [] := by
      simp [leafNodes, List.flatMap_map, Node.children]
    have h1 : (leafKeys f).map Key.idx = List.range (leafNodes f).length := by
      rw [hlen]
      apply List.ext_getElem <;> simp [leafKeys]
    rw [h0, h1]; exact List.Perm.refl _
  · intro i nd hi hnd
    have := (List.getElem?_eq_some_iff.1 hnd).1
    omega

theorem buildTree_empty {f : FreqTable} (h : presentPairs f = []) : buildTree f = ⟨[], 0, Config.noNode⟩ := by
  simp [buildTree, leafKeys, leafNodes, h, mergeLoop, rootOf]

theorem buildTree_n (f : FreqTable) : (buildTree f).n = (presentPairs f).length := by simp [buildTree, leafNodes]

/-- BuildTree of a table with a present symbol: the invariant holds of its node list with the root alone in the
queue. -/
theorem buildTree_inv {f : FreqTable} (h : presentPairs f ≠ []) :
    ∃ k, MergeInv (presentPairs f) (buildTree f).nodes [k] ∧ (buildTree f).root = BitVec.ofNat 9 k.idx := by
  have hne : leafKeys f ≠ [] := by
    intro he
    have : (leafKeys f).length = (presentPairs f).length := by simp [leafKeys]
    rw [he] at this
    exact h (List.length_eq_zero_iff.1 this.symm)
  have hm := mergeLoop_inv (presentPairs_length_le f) (leafKeys f).length (mergeInv_start f) hne (by omega)
  obtain ⟨k, hk⟩ := List.length_eq_one_iff.1 hm.2
  refine ⟨k, ?_, ?_⟩
  · have := hm.1
    rw [hk] at this
    exact this
  · simp [buildTree, hk, rootOf]

/-- With one member left in the queue, it is the last node (R75). -/
theorem MergeInv.root_last {pairs : List (Byte × Word)} {nodes : List Node} {k : Key} (h : MergeInv pairs nodes [k]) :
    k.idx + 1 = nodes.length := by
  have hk : k.idx < nodes.length := by
    have := h.parents.subset (List.mem_append_right _ (by simp : k.idx ∈ [k].map Key.idx))
    simpa using this
  have hmem : nodes.length - 1 ∈ nodes.flatMap Node.children ++ [k].map Key.idx :=
    h.parents.symm.subset (List.mem_range.2 (by omega))
  rcases List.mem_append.1 hmem with hc | hc
  · exfalso
    obtain ⟨nd, hnd, hch⟩ := List.mem_flatMap.1 hc
    obtain ⟨i, hi, rfl⟩ := List.getElem_of_mem hnd
    by_cases hp : pairs.length ≤ i
    · obtain ⟨f, l, r, he, hl, hr⟩ := h.internals i nodes[i] hp (List.getElem?_eq_getElem hi)
      rw [he] at hch
      simp [Node.children] at hch
      omega
    · obtain ⟨more, hmore⟩ := h.leavesFirst
      have : nodes[i]? = some (.leaf pairs[i].1 (pairs[i].2.setWidth 40)) := by
        rw [← hmore, List.getElem?_append_left (by simp; omega)]
        simp [show i < pairs.length by omega]
      rw [List.getElem?_eq_getElem hi] at this
      simp only [Option.some.injEq] at this
      rw [this] at hch
      simp [Node.children] at hch
  · simp at hc; omega

end Sys2Proof.Machine
end

