-- ==== Sys2Proof/Laws/Codes.lean ====
section
/-! SUPPORT. The code table of a tree (R78–R82), and what the encoder's loop and the decoder's walk do (R84–R92). -/

namespace Sys2Proof.Machine

/-! ### Tables -/

theorem codeOf_setCode (c : CodeTable) (s : Byte) (p : Bits) (x : Byte) :
    codeOf (setCode c s p) x = if s = x then some p else codeOf c x := by
  simp only [codeOf, setCode, Vector.getElem_set, ← BitVec.toNat_inj]

@[simp] theorem codeOf_emptyCodes (x : Byte) : codeOf emptyCodes x = none := by simp [codeOf, emptyCodes]

theorem codeTable_ext {c d : CodeTable} (h : ∀ s, codeOf c s = codeOf d s) : c = d := by
  ext i hi : 1
  have := h (BitVec.ofNat 8 i)
  simp only [codeOf, BitVec.toNat_ofNat, Nat.mod_eq_of_lt (show i < 2 ^ 8 from hi)] at this
  exact this

theorem freqOf_setFreq (f : FreqTable) (s : Byte) (v : Word) (x : Byte) :
    freqOf (setFreq f s v) x = if s = x then v else freqOf f x := by
  simp only [freqOf, setFreq, Vector.getElem_set, ← BitVec.toNat_inj]

@[simp] theorem freqOf_emptyFreq (x : Byte) : freqOf emptyFreq x = 0#32 := by simp [freqOf, emptyFreq]

theorem freqTable_ext {f g : FreqTable} (h : ∀ s, freqOf f s = freqOf g s) : f = g := by
  ext i hi : 1
  have := h (BitVec.ofNat 8 i)
  simp only [freqOf, BitVec.toNat_ofNat, Nat.mod_eq_of_lt (show i < 2 ^ 8 from hi)] at this
  exact this

/-! ### The walk -/

/-- The table after the codes of the list, each behind the bits `p`, are written one after another. -/
def setPaths (c : CodeTable) (p : Bits) (xs : List (Byte × Bits)) : CodeTable :=
  xs.foldl (fun c x => setCode c x.1 (p ++ x.2)) c

theorem nodeAt_eq_ok {nodes : List Node} {i : NodeIdx} {nd : Node} :
    nodeAt nodes i = .ok nd ↔ nodes[i.toNat]? = some nd := by
  unfold nodeAt; cases h : nodes[i.toNat]? <;> simp

/-- The walk from a node that denotes a tree writes the code of each of its leaves (R78). -/
theorem walkCodes_denotes {nodes : List Node} {k : Nat} {t : HTree} (h : Denotes nodes k t) (i : NodeIdx)
    (hi : i.toNat = k) (fuel : Nat) (hf : t.height < fuel) (p : Bits) (c : CodeTable) :
    walkCodes nodes fuel i p c = .ok (setPaths c p t.paths) := by
  induction h generalizing i fuel p c with
  | @leaf k s w h =>
    obtain ⟨fuel, rfl⟩ : ∃ n, fuel = n + 1 := ⟨fuel - 1, by omega⟩
    have : nodeAt nodes i = .ok (.leaf s (w.setWidth 40)) := nodeAt_eq_ok.2 (hi ▸ h)
    simp [walkCodes, this, HTree.paths, setPaths]
  | @node k f l r tl tr h _ _ _ ihl ihr =>
    simp only [HTree.height] at hf
    obtain ⟨fuel, rfl⟩ : ∃ n, fuel = n + 1 := ⟨fuel - 1, by omega⟩
    have : nodeAt nodes i = .ok (.internal f l r) := nodeAt_eq_ok.2 (hi ▸ h)
    simp only [walkCodes, this, Run.ok_bind, ihl l rfl fuel (by omega), ihr r rfl fuel (by omega)]
    simp [setPaths, HTree.paths, List.foldl_append, List.foldl_map, List.append_assoc]

theorem codeOf_setPaths_of_notMem {xs : List (Byte × Bits)} {s : Byte} (h : s ∉ xs.map Prod.fst) (c : CodeTable)
    (p : Bits) : codeOf (setPaths c p xs) s = codeOf c s := by
  induction xs generalizing c with
  | nil => rfl
  | cons x xs ih =>
    simp only [List.map_cons, List.mem_cons, not_or] at h
    simp only [setPaths, List.foldl_cons] at ih ⊢
    rw [ih h.2, codeOf_setCode, if_neg fun he => h.1 he.symm]

theorem codeOf_setPaths {xs : List (Byte × Bits)} (hn : (xs.map Prod.fst).Nodup) (c : CodeTable) (p : Bits) {s : Byte}
    {b : Bits} (h : (s, b) ∈ xs) : codeOf (setPaths c p xs) s = some (p ++ b) := by
  induction xs generalizing c with
  | nil => simp at h
  | cons x xs ih =>
    simp only [List.map_cons, List.nodup_cons] at hn
    rcases List.mem_cons.1 h with rfl | h
    · have := codeOf_setPaths_of_notMem hn.1 (setCode c s (p ++ b)) p
      rw [codeOf_setCode, if_pos rfl] at this
      exact this
    · exact ih hn.2 _ h

theorem codeOf_setPaths_empty {xs : List (Byte × Bits)} (hn : (xs.map Prod.fst).Nodup) {s : Byte} {b : Bits} :
    codeOf (setPaths emptyCodes [] xs) s = some b ↔ (s, b) ∈ xs := by
  constructor
  · intro h
    by_cases hs : s ∈ xs.map Prod.fst
    · obtain ⟨⟨s', b'⟩, hx, rfl⟩ := List.mem_map.1 hs
      have := codeOf_setPaths hn emptyCodes [] hx
      rw [h] at this
      simp only [List.nil_append, Option.some.injEq] at this
      exact this ▸ hx
    · rw [codeOf_setPaths_of_notMem hs] at h
      simp at h
  · intro h
    simpa using codeOf_setPaths hn emptyCodes [] h

/-! ### The tree and the codes of a frequency table -/

/-- A table with two or more present symbols: its node list denotes a tree with the present pairs at the leaves, and
its code table holds that tree's paths. -/
theorem genCodes_buildTree_tree {f : FreqTable} (h : 2 ≤ (presentPairs f).length) :
    ∃ t l r, t = HTree.node l r ∧ Denotes (buildTree f).nodes (buildTree f).root.toNat t ∧
      t.leaves.Perm (presentPairs f) ∧
      genCodes (buildTree f).nodes (buildTree f).n (buildTree f).root = .ok (setPaths emptyCodes [] t.paths) ∧
      (t.paths.map Prod.fst).Nodup := by
  obtain ⟨k, hk, hroot⟩ := buildTree_inv (f := f) (by intro he; simp [he] at h)
  obtain ⟨ts, hts, hperm⟩ := hk.forest
  obtain ⟨t, ts', ht, hnil, rfl⟩ := List.forall₂_cons_left_iff.1 hts
  obtain rfl := List.forall₂_nil_left_iff.1 hnil
  simp only [List.flatMap_cons, List.flatMap_nil, List.append_nil] at hperm
  have hidx : (buildTree f).root.toNat = k.idx := by
    have h1 := hk.root_last
    have h2 := hk.count
    have h3 := presentPairs_length_le f
    simp only [List.length_singleton] at h2
    rw [hroot]; simp; omega
  have hd : Denotes (buildTree f).nodes (buildTree f).root.toNat t := hidx ▸ ht.1
  have hlen := hperm.length_eq
  cases t with
  | leaf s c => simp [HTree.leaves] at hlen; omega
  | node l r =>
    refine ⟨.node l r, l, r, rfl, hd, hperm, ?_, ?_⟩
    · have hn := buildTree_n f
      have hh := (HTree.node l r).height_lt
      have h3 := presentPairs_length_le f
      unfold genCodes
      rw [if_neg (by omega), if_neg (by omega)]
      exact walkCodes_denotes hd _ rfl _ (by simp [Config.maxNodes]; omega) _ _
    · rw [HTree.paths_symbols]
      exact (hperm.map Prod.fst).nodup_iff.2 (presentPairs_symbols_nodup f)

/-- A table with one present symbol: a single leaf, which is the root, and the code [0] (R73, R79). -/
theorem genCodes_buildTree_single {f : FreqTable} {s : Byte} {c : Word} (h : presentPairs f = [(s, c)]) :
    buildTree f = ⟨[.leaf s (c.setWidth 40)], 1, 0#9⟩ ∧
      genCodes (buildTree f).nodes (buildTree f).n (buildTree f).root = .ok (setCode emptyCodes s [false]) := by
  have hb : buildTree f = ⟨[.leaf s (c.setWidth 40)], 1, 0#9⟩ := by
    simp [buildTree, leafKeys, leafNodes, h, mergeLoop, extractMin, rootOf]
  refine ⟨hb, ?_⟩
  simp [hb, genCodes, nodeAt, Node.symbol]

/-- Every table has a code table (R82). -/
theorem genCodes_buildTree_ok (f : FreqTable) :
    ∃ c, genCodes (buildTree f).nodes (buildTree f).n (buildTree f).root = .ok c := by
  rcases hp : presentPairs f with _ | ⟨⟨s, c⟩, _ | ⟨q, ps⟩⟩
  · exact ⟨emptyCodes, by simp [buildTree_empty hp, genCodes]⟩
  · exact ⟨_, (genCodes_buildTree_single hp).2⟩
  · obtain ⟨t, l, r, _, _, _, hg, _⟩ := genCodes_buildTree_tree (f := f) (by rw [hp]; simp)
    exact ⟨_, hg⟩

/-! ### The encoder's loop -/

/-- The loop of ENCODE succeeds exactly if every input byte is written and has a code and the payload fits; the payload is
the codes in input order (R84, R87). -/
theorem encodeFrom_eq_ok {c : CodeTable} {m : Memory} {a0 cap n i : Nat} {bits out : Bits} :
    encodeFrom c m a0 cap n i bits = .ok out ↔
      ∃ xs : List (Byte × Bits), xs.length = n ∧
        (∀ k (h : k < xs.length), Memory.read m (a0 + i + k) = some xs[k].1 ∧ codeOf c xs[k].1 = some xs[k].2) ∧
        out = bits ++ xs.flatMap Prod.snd ∧ (n = 0 ∨ ceil8 out.length ≤ cap) := by
  induction n generalizing i bits with
  | zero =>
    constructor
    · intro h
      simp only [encodeFrom, Except.ok.injEq] at h
      exact ⟨[], by simp [h]⟩
    · rintro ⟨xs, hl, -, rfl, -⟩
      obtain rfl := List.length_eq_zero_iff.1 hl
      simp [encodeFrom]
  | succ n ih =>
    simp only [encodeFrom, Run.bind_eq_ok]
    constructor
    · rintro ⟨s, hs, h⟩
      rw [readByte_eq_ok] at hs
      cases hc : codeOf c s with
      | none => simp [hc] at h
      | some code =>
        simp only [hc] at h
        split at h
        · simp at h
        · next hcap =>
          obtain ⟨xs, hl, hk, rfl, hfit⟩ := ih.1 h
          refine ⟨(s, code) :: xs, by simp [hl], ?_, by simp, .inr ?_⟩
          · rintro (_ | k) hk'
            · simpa [hs] using hc
            · have := hk k (by simpa using hk')
              simpa [Nat.add_assoc, Nat.add_comm 1] using this
          · rcases hfit with rfl | hfit
            · obtain rfl := List.length_eq_zero_iff.1 hl
              simpa using hcap
            · exact hfit
    · rintro ⟨xs, hl, hk, rfl, hfit⟩
      cases xs with
      | nil => simp at hl
      | cons x xs =>
        have h0 := hk 0 (by simp)
        refine ⟨x.1, readByte_eq_ok.2 (by simpa using h0.1), ?_⟩
        have hc : codeOf c x.1 = some x.2 := by simpa using h0.2
        have hfit' : ceil8 (bits ++ (x :: xs).flatMap Prod.snd).length ≤ cap := by
          rcases hfit with h | h
          · omega
          · exact h
        have hle : ceil8 (bits ++ x.2).length ≤ cap := by
          refine le_trans (ceil8_mono ?_) hfit'
          simp
        simp only [hc]
        rw [if_neg (by omega)]
        refine ih.2 ⟨xs, by simpa using hl, fun k hk' => ?_, by simp, .inr hfit'⟩
        have := hk (k + 1) (by simpa using hk')
        simpa [Nat.add_assoc, Nat.add_comm 1] using this

/-- The loop of ENCODE raises nothing but UNKNOWN_SYMBOL and OUTPUT_OVERFLOW, and stops only at an unwritten byte. -/
theorem encodeFrom_eq_error {c : CodeTable} {m : Memory} {a0 cap n i : Nat} {bits : Bits} {e : Abort}
    (h : encodeFrom c m a0 cap n i bits = .error e) :
    (∃ k, i ≤ k ∧ k < i + n ∧ (e = .error .unknownSymbol k ∨ e = .error .outputOverflow k)) ∨
      ∃ a, e = .fault (.unwrittenRead a) := by
  induction n generalizing i bits with
  | zero => simp [encodeFrom] at h
  | succ n ih =>
    simp only [encodeFrom] at h
    rcases Run.bind_eq_error.1 h with h | ⟨s, _, h⟩
    · exact .inr ⟨_, (readByte_eq_error h).1⟩
    · cases hc : codeOf c s with
      | none => simp only [hc, Except.error.injEq] at h; exact .inl ⟨i, le_rfl, by omega, .inl h.symm⟩
      | some code =>
        simp only [hc] at h
        split at h
        · simp only [Except.error.injEq] at h; exact .inl ⟨i, le_rfl, by omega, .inr h.symm⟩
        · rcases ih h with ⟨k, h1, h2, h3⟩ | h
          · exact .inl ⟨k, by omega, by omega, h3⟩
          · exact .inr h

/-! ### The decoder's walk -/

/-- Payload bits `j`, `j + 1`, … at `base` are the bits of `p`. -/
def PayloadAt (m : Memory) (base j : Nat) (p : Bits) : Prop :=
  ∀ k (h : k < p.length), payloadBit m base (j + k) = .ok p[k]

theorem PayloadAt.tail {m : Memory} {base j : Nat} {b : Bool} {p : Bits} (h : PayloadAt m base j (b :: p)) :
    PayloadAt m base (j + 1) p := fun k hk => by
  have := h (k + 1) (by simpa using hk)
  simpa [Nat.add_assoc, Nat.add_comm 1] using this

theorem PayloadAt.append {m : Memory} {base j : Nat} {p q : Bits} (h : PayloadAt m base j (p ++ q)) :
    PayloadAt m base j p ∧ PayloadAt m base (j + p.length) q := by
  constructor
  · intro k hk
    have := h k (by simp; omega)
    rwa [List.getElem_append_left hk] at this
  · intro k hk
    have := h (p.length + k) (by simp; omega)
    rw [List.getElem_append_right (by omega)] at this
    simpa [Nat.add_assoc] using this

/-- Following the code of a symbol from an inner node of the tree emits that symbol, or overflows (R88, R92). -/
theorem decodeFrom_path {nodes : List Node} {root : NodeIdx} {m : Memory} {a0 cap : Nat} {k : Nat} {t : HTree}
    (h : Denotes nodes k t) (cur : NodeIdx) (hc : cur.toNat = k) {s : Byte} {p : Bits} (hp : (s, p) ∈ t.paths)
    (hne : p ≠ []) (n j : Nat) (out : List Byte) (hbits : PayloadAt m a0 j p) :
    decodeFrom nodes root m a0 cap (p.length + n) j cur out =
      if out.length = cap then .error (.error .outputOverflow (j + p.length - 1))
      else decodeFrom nodes root m a0 cap n (j + p.length) root (out ++ [s]) := by
  induction h generalizing cur p j with
  | leaf => simp [HTree.paths] at hp; exact absurd hp.2 hne
  | @node k f l r tl tr h hl hr _ ihl ihr =>
    have hat : nodeAt nodes cur = .ok (.internal f l r) := nodeAt_eq_ok.2 (hc ▸ h)
    have step : ∀ (b : Bool) (q : Bits) (sub : HTree) (nx : NodeIdx), p = b :: q → (s, q) ∈ sub.paths →
        Denotes nodes nx.toNat sub → nx = (if b then r else l) →
        (q ≠ [] → decodeFrom nodes root m a0 cap (q.length + n) (j + 1) nx out =
          if out.length = cap then .error (.error .outputOverflow (j + 1 + q.length - 1))
          else decodeFrom nodes root m a0 cap n (j + 1 + q.length) root (out ++ [s])) →
        decodeFrom nodes root m a0 cap (p.length + n) j cur out =
          if out.length = cap then .error (.error .outputOverflow (j + p.length - 1))
          else decodeFrom nodes root m a0 cap n (j + p.length) root (out ++ [s]) := by
      rintro b q sub nx rfl hq hsub hnx hrec
      have hb : payloadBit m a0 j = .ok b := hbits 0 (by simp)
      have hlen : (b :: q).length + n = (q.length + n) + 1 := by simp; omega
      rw [hlen]
      simp only [decodeFrom, hb, Run.ok_bind, hat, Node.left, Node.right, ← hnx]
      cases hsub with
      | @leaf _ s' c h' =>
        simp [HTree.paths] at hq
        obtain ⟨rfl, rfl⟩ := hq
        rw [nodeAt_eq_ok.2 h']
        simp
      | @node _ f' l' r' tl' tr' h' _ _ _ =>
        have hqne : q ≠ [] := by
          rintro rfl
          simp [HTree.paths] at hq
        rw [nodeAt_eq_ok.2 h']
        simp only [Run.ok_bind]
        rw [hrec hqne]
        have e1 : j + 1 + q.length - 1 = j + (b :: q).length - 1 := by simp
        have e2 : j + 1 + q.length = j + (b :: q).length := by simp; omega
        rw [e1, e2]
    simp only [HTree.paths, List.mem_append, List.mem_map, Prod.mk.injEq, Prod.exists] at hp
    rcases hp with ⟨s', q, hq, rfl, rfl⟩ | ⟨s', q, hq, rfl, rfl⟩
    · exact step false q tl l rfl hq hl rfl fun hqne => ihl l rfl hq hqne (j + 1) hbits.tail
    · exact step true q tr r rfl hq hr rfl fun hqne => ihr r rfl hq hqne (j + 1) hbits.tail

/-- The walk emits no more symbols than fit (R92). -/
theorem decodeFrom_length_le {nodes : List Node} {root cur : NodeIdx} {m : Memory} {a0 cap n j : Nat}
    {out : List Byte} {r : NodeIdx × List Byte} (h : decodeFrom nodes root m a0 cap n j cur out = .ok r)
    (ho : out.length ≤ cap) : r.2.length ≤ cap := by
  induction n generalizing j cur out with
  | zero => simp only [decodeFrom, Except.ok.injEq] at h; subst h; exact ho
  | succ n ih =>
    simp only [decodeFrom] at h
    obtain ⟨b, _, h⟩ := Run.bind_eq_ok.1 h
    obtain ⟨nd, _, h⟩ := Run.bind_eq_ok.1 h
    obtain ⟨nx, _, h⟩ := Run.bind_eq_ok.1 h
    cases nx with
    | leaf s f =>
      simp only at h
      split at h
      · simp at h
      · exact ih h (by simp; omega)
    | internal f l r => exact ih h ho

theorem decodeLeafFrom_length_le {sym : Byte} {m : Memory} {a0 cap n j : Nat} {out r : List Byte}
    (h : decodeLeafFrom sym m a0 cap n j out = .ok r) (ho : out.length ≤ cap) : r.length ≤ cap := by
  induction n generalizing j out with
  | zero => simp only [decodeLeafFrom, Except.ok.injEq] at h; subst h; exact ho
  | succ n ih =>
    simp only [decodeLeafFrom] at h
    obtain ⟨b, _, h⟩ := Run.bind_eq_ok.1 h
    split at h
    · simp at h
    · split at h
      · simp at h
      · exact ih h (by simp; omega)

/-- DECODE emits no more symbols than fit (R92). -/
theorem decodePayload_length_le {nodes : List Node} {n : Nat} {root : NodeIdx} {m : Memory} {a0 len cap : Nat}
    {out : List Byte} (h : decodePayload nodes n root m a0 len cap = .ok out) : out.length ≤ cap := by
  unfold decodePayload at h
  split at h
  · split at h <;> simp at h; subst h; simp
  · split at h
    · obtain ⟨nd, _, h⟩ := Run.bind_eq_ok.1 h
      exact decodeLeafFrom_length_le h (by simp)
    · obtain ⟨⟨cur, syms⟩, hr, h⟩ := Run.bind_eq_ok.1 h
      simp only at h
      split at h
      · simp only [Run.pure_eq, Except.ok.injEq] at h
        subst h
        exact decodeFrom_length_le hr (by simp)
      · simp at h

end Sys2Proof.Machine
end

