-- ==== Sys2Proof/Laws/Meanings.lean ====
section
/-! SUPPORT. What each command's body can do, and what all of them leave alone (R77, R83, R87, R94, R98, R105). -/

namespace Sys2Proof.Machine

/-- The body of each command's rule, the part after the common checks. -/
def bodyOf : Instr → Latch → State → Run State
  | .buildTree => buildTreeBody
  | .genCodes => genCodesBody
  | .encode => encodeBody
  | .decode => decodeBody
  | .serialize => serializeBody
  | .deserialize => deserializeBody

theorem exec_eq_runCommand (i : Instr) (s : State) : exec i s = runCommand i (bodyOf i) s := by cases i <;> rfl

/-! ### One lemma per body -/

theorem genCodesBody_eq_ok {l : Latch} {s u : State} :
    genCodesBody l s = .ok u ↔
      ∃ c, genCodes s.nodes s.nleaf.toNat s.root = .ok c ∧
        u = { s with codes := c, codesValid := true, res0 := s.nleaf.setWidth 32, res1 := BitVec.ofNat 32 (maxLen c) } := by
  simp only [genCodesBody, Run.bind_eq_ok, Run.pure_eq, Except.ok.injEq]
  exact exists_congr fun c => and_congr_right fun _ => eq_comm

theorem encodeBody_eq_ok {l : Latch} {s u : State} :
    encodeBody l s = .ok u ↔
      ∃ bits, encodeFrom s.codes s.mem l.a0.toNat l.a3.toNat l.a1.toNat 0 [] = .ok bits ∧
        u = { s with
          mem := Memory.writeBytes s.mem l.a2.toNat (pack bits)
          res0 := BitVec.ofNat 32 (ceil8 bits.length)
          res1 := BitVec.ofNat 32 bits.length } := by
  simp only [encodeBody, Run.bind_eq_ok, Run.pure_eq, Except.ok.injEq]
  exact exists_congr fun c => and_congr_right fun _ => eq_comm

theorem decodeBody_eq_ok {l : Latch} {s u : State} :
    decodeBody l s = .ok u ↔
      ∃ out, decodePayload s.nodes s.nleaf.toNat s.root s.mem l.a0.toNat l.a1.toNat l.a3.toNat = .ok out ∧
        u = { s with
          mem := Memory.writeBytes s.mem l.a2.toNat out
          res0 := BitVec.ofNat 32 out.length
          res1 := l.a1 } := by
  simp only [decodeBody, Run.bind_eq_ok, Run.pure_eq, Except.ok.injEq]
  exact exists_congr fun c => and_congr_right fun _ => eq_comm

theorem serializeBody_eq_ok {l : Latch} {s u : State} :
    serializeBody l s = .ok u ↔
      containerSize (presentPairs s.freq).length l.a1.toNat ≤ l.a3.toNat ∧
      ∃ pb, readBytes s.mem l.a0.toNat (ceil8 l.a1.toNat) = .ok pb ∧
        u = { s with
          mem := Memory.writeBytes s.mem l.a2.toNat (serialize s.freq pb l.a1.toNat)
          res0 := BitVec.ofNat 32 (containerSize (presentPairs s.freq).length l.a1.toNat)
          res1 := l.a1 } := by
  unfold serializeBody
  simp only
  split
  · next h => simp; omega
  · next h =>
    simp only [Run.bind_eq_ok, Run.pure_eq, Except.ok.injEq, not_lt.1 h, true_and]
    exact exists_congr fun c => and_congr_right fun _ => eq_comm

theorem deserializeBody_eq_ok {l : Latch} {s u : State} :
    deserializeBody l s = .ok u ↔
      ∃ c, parse s.mem l.a0.toNat l.a1.toNat = .ok c ∧ ceil8 c.len ≤ l.a3.toNat ∧
        u = { clearTree s with
          freq := c.freq
          mem := Memory.writeBytes s.mem l.a2.toNat c.payload
          res0 := BitVec.ofNat 32 (ceil8 c.len)
          res1 := BitVec.ofNat 32 c.len } := by
  simp only [deserializeBody, Run.bind_eq_ok]
  refine exists_congr fun c => and_congr_right fun _ => ?_
  split
  · next h => simp; omega
  · next h =>
    simp only [Run.pure_eq, Except.ok.injEq, not_lt.1 h, true_and]
    exact eq_comm

/-! ### Parse -/

theorem parsePayload_eq_ok {m : Memory} {a0 size n len : Nat} {pb : List Byte} :
    parsePayload m a0 size n len = .ok pb ↔
      size = containerSize n len ∧ checkPadding m (a0 + 6 + 5 * n) (5 + 5 * n + ceil8 len) len = .ok () ∧
        (n = 0 → len = 0) ∧ readBytes m (a0 + 6 + 5 * n) (ceil8 len) = .ok pb := by
  unfold parsePayload containerSize
  simp only
  split
  · next h => simp; omega
  · split
    · next h => simp; omega
    · next h1 h2 =>
      have hs : size = 6 + 5 * n + ceil8 len := by omega
      simp only [Run.bind_eq_ok, hs, true_and]
      constructor
      · rintro ⟨⟨⟩, hc, h⟩
        split at h
        · simp at h
        · next h3 => exact ⟨hc, fun h0 => by by_contra hl; exact h3 ⟨h0, hl⟩, h⟩
      · rintro ⟨hc, h0, h⟩
        refine ⟨(), hc, ?_⟩
        rw [if_neg (by rintro ⟨a, b⟩; exact b (h0 a))]
        exact h

theorem parse_eq_ok {m : Memory} {a0 size : Nat} {c : Parsed} :
    parse m a0 size = .ok c ↔
      2 ≤ size ∧ (∃ cb, readBytes m a0 2 = .ok cb ∧ beNat cb = c.count) ∧ c.count ≤ 256 ∧ 6 + 5 * c.count ≤ size ∧
        parsePairs m a0 c.count 0 emptyFreq [] = .ok c.freq ∧
        (∃ lb, readBytes m (a0 + 2 + 5 * c.count) 4 = .ok lb ∧ beNat lb = c.len) ∧
        parsePayload m a0 size c.count c.len = .ok c.payload := by
  unfold parse parseTable
  split
  · next h => simp; omega
  · next h =>
    simp only [Run.bind_eq_ok]
    constructor
    · rintro ⟨cb, hcb, h⟩
      split at h
      · simp at h
      · split at h
        · simp at h
        · next h1 h2 =>
          obtain ⟨f, hf, h⟩ := Run.bind_eq_ok.1 h
          obtain ⟨lb, hlb, h⟩ := Run.bind_eq_ok.1 h
          obtain ⟨pb, hpb, h⟩ := Run.bind_eq_ok.1 h
          simp only [Run.pure_eq, Except.ok.injEq] at h
          subst h
          exact ⟨by omega, ⟨cb, hcb, rfl⟩, by simpa using h1, by simp only; omega, hf, ⟨lb, hlb, rfl⟩, hpb⟩
    · rintro ⟨_, ⟨cb, hcb, hn⟩, h1, h2, hf, ⟨lb, hlb, hl⟩, hpb⟩
      refine ⟨cb, hcb, ?_⟩
      rw [hn, if_neg (by omega), if_neg (by omega)]
      simp only [hf, Run.ok_bind, hlb, hl, hpb, Run.pure_eq]

/-- A container that parses has the payload bytes its BITLEN asks for. -/
theorem parse_payload_length {m : Memory} {a0 size : Nat} {c : Parsed} (h : parse m a0 size = .ok c) :
    c.payload.length = ceil8 c.len :=
  readBytes_length (parsePayload_eq_ok.1 (parse_eq_ok.1 h).2.2.2.2.2.2).2.2.2

/-- The pair loop raises nothing but CORRUPT_CONTAINER and stops only at an unwritten byte. -/
theorem parsePairs_eq_error {m : Memory} {a0 n k : Nat} {f : FreqTable} {seen : List Byte} {e : Abort}
    (h : parsePairs m a0 n k f seen = .error e) :
    (∃ x, e = .error .corruptContainer x) ∨ ∃ a, e = .fault (.unwrittenRead a) := by
  induction n generalizing k f seen with
  | zero => simp [parsePairs] at h
  | succ n ih =>
    simp only [parsePairs] at h
    rcases Run.bind_eq_error.1 h with h | ⟨s, _, h⟩
    · exact .inr ⟨_, (readByte_eq_error h).1⟩
    · rcases Run.bind_eq_error.1 h with h | ⟨c, _, h⟩
      · obtain ⟨x, hx, _⟩ := readBytes_eq_error h; exact .inr ⟨x, hx⟩
      · split at h
        · simp only [Except.error.injEq] at h; exact .inl ⟨_, h.symm⟩
        · split at h
          · simp only [Except.error.injEq] at h; exact .inl ⟨_, h.symm⟩
          · exact ih h

theorem checkPadding_eq_error {m : Memory} {base off len : Nat} {e : Abort} (h : checkPadding m base off len = .error e) :
    e = .error .corruptContainer off ∨ ∃ a, e = .fault (.unwrittenRead a) := by
  unfold checkPadding at h
  split at h
  · rcases Run.bind_eq_error.1 h with h | ⟨b, _, h⟩
    · exact .inr ⟨_, (readByte_eq_error h).1⟩
    · split at h <;> simp at h; exact .inl h.symm
  · simp at h

/-- Parse raises nothing but CORRUPT_CONTAINER and MALFORMED_PAYLOAD (R99) and stops only at an unwritten byte. -/
theorem parse_eq_error {m : Memory} {a0 size : Nat} {e : Abort} (h : parse m a0 size = .error e) :
    (∃ x, e = .error .corruptContainer x ∨ e = .error .malformedPayload x) ∨ ∃ a, e = .fault (.unwrittenRead a) := by
  unfold parse parseTable at h
  split at h
  · simp only [Except.error.injEq] at h; exact .inl ⟨_, .inl h.symm⟩
  · rcases Run.bind_eq_error.1 h with h | ⟨cb, _, h⟩
    · obtain ⟨x, hx, _⟩ := readBytes_eq_error h; exact .inr ⟨x, hx⟩
    · split at h
      · simp only [Except.error.injEq] at h; exact .inl ⟨_, .inl h.symm⟩
      · split at h
        · simp only [Except.error.injEq] at h; exact .inl ⟨_, .inl h.symm⟩
        · rcases Run.bind_eq_error.1 h with h | ⟨f, _, h⟩
          · rcases parsePairs_eq_error h with ⟨x, h⟩ | h
            · exact .inl ⟨x, .inl h⟩
            · exact .inr h
          · rcases Run.bind_eq_error.1 h with h | ⟨lb, _, h⟩
            · obtain ⟨x, hx, _⟩ := readBytes_eq_error h; exact .inr ⟨x, hx⟩
            · rcases Run.bind_eq_error.1 h with h | ⟨pb, _, h⟩
              · unfold parsePayload at h
                simp only at h
                split at h
                · simp only [Except.error.injEq] at h; exact .inl ⟨_, .inr h.symm⟩
                · split at h
                  · simp only [Except.error.injEq] at h; exact .inl ⟨_, .inl h.symm⟩
                  · rcases Run.bind_eq_error.1 h with h | ⟨_, _, h⟩
                    · rcases checkPadding_eq_error h with h | h
                      · exact .inl ⟨_, .inl h⟩
                      · exact .inr h
                    · split at h
                      · simp only [Except.error.injEq] at h; exact .inl ⟨_, .inr h.symm⟩
                      · obtain ⟨x, hx, _⟩ := readBytes_eq_error h; exact .inr ⟨x, hx⟩
              · simp at h

/-! ### The decoder's errors -/

theorem decodeLeafFrom_eq_error {sym : Byte} {m : Memory} {a0 cap n j : Nat} {out : List Byte} {e : Abort}
    (h : decodeLeafFrom sym m a0 cap n j out = .error e) :
    (∃ k, e = .error .malformedPayload k ∨ e = .error .outputOverflow k) ∨ ∃ f, e = .fault f := by
  induction n generalizing j out with
  | zero => simp [decodeLeafFrom] at h
  | succ n ih =>
    simp only [decodeLeafFrom] at h
    rcases Run.bind_eq_error.1 h with h | ⟨b, _, h⟩
    · obtain ⟨a, ha⟩ := payloadBit_eq_error h; exact .inr ⟨_, ha⟩
    · split at h
      · simp only [Except.error.injEq] at h; exact .inl ⟨j, .inl h.symm⟩
      · split at h
        · simp only [Except.error.injEq] at h; exact .inl ⟨j, .inr h.symm⟩
        · exact ih h

theorem nodeAt_eq_error {nodes : List Node} {i : NodeIdx} {e : Abort} (h : nodeAt nodes i = .error e) :
    e = .fault (.invalidNode i.toNat) ∧ nodes[i.toNat]? = none := by
  unfold nodeAt at h; cases hr : nodes[i.toNat]? <;> simp_all

theorem decodeFrom_eq_error {nodes : List Node} {root cur : NodeIdx} {m : Memory} {a0 cap n j : Nat} {out : List Byte}
    {e : Abort} (h : decodeFrom nodes root m a0 cap n j cur out = .error e) :
    (∃ k, e = .error .outputOverflow k) ∨ ∃ f, e = .fault f := by
  induction n generalizing j cur out with
  | zero => simp [decodeFrom] at h
  | succ n ih =>
    simp only [decodeFrom] at h
    rcases Run.bind_eq_error.1 h with h | ⟨b, _, h⟩
    · obtain ⟨a, ha⟩ := payloadBit_eq_error h; exact .inr ⟨_, ha⟩
    · rcases Run.bind_eq_error.1 h with h | ⟨nd, _, h⟩
      · exact .inr ⟨_, (nodeAt_eq_error h).1⟩
      · rcases Run.bind_eq_error.1 h with h | ⟨nx, _, h⟩
        · exact .inr ⟨_, (nodeAt_eq_error h).1⟩
        · cases nx with
          | leaf s f =>
            simp only at h
            split at h
            · simp only [Except.error.injEq] at h; exact .inl ⟨j, h.symm⟩
            · exact ih h
          | internal f l r => exact ih h

theorem decodePayload_eq_error {nodes : List Node} {n : Nat} {root : NodeIdx} {m : Memory} {a0 len cap : Nat} {e : Abort}
    (h : decodePayload nodes n root m a0 len cap = .error e) :
    (∃ k, e = .error .malformedPayload k ∨ e = .error .outputOverflow k) ∨ ∃ f, e = .fault f := by
  unfold decodePayload at h
  split at h
  · split at h <;> simp at h; exact .inl ⟨0, .inl h.symm⟩
  · split at h
    · rcases Run.bind_eq_error.1 h with h | ⟨nd, _, h⟩
      · exact .inr ⟨_, (nodeAt_eq_error h).1⟩
      · exact decodeLeafFrom_eq_error h
    · rcases Run.bind_eq_error.1 h with h | ⟨⟨cur, syms⟩, _, h⟩
      · rcases decodeFrom_eq_error h with ⟨k, h⟩ | h
        · exact .inl ⟨k, .inr h⟩
        · exact .inr h
      · simp only at h
        split at h <;> simp at h; exact .inl ⟨len, .inl h.symm⟩

theorem walkCodes_eq_error {nodes : List Node} {fuel : Nat} {i : NodeIdx} {p : Bits} {c : CodeTable} {e : Abort}
    (h : walkCodes nodes fuel i p c = .error e) : ∃ k, e = .fault (.invalidNode k) := by
  induction fuel generalizing i p c with
  | zero => simp only [walkCodes, Except.error.injEq] at h; exact ⟨_, h.symm⟩
  | succ fuel ih =>
    simp only [walkCodes] at h
    rcases Run.bind_eq_error.1 h with h | ⟨nd, _, h⟩
    · exact ⟨_, (nodeAt_eq_error h).1⟩
    · cases nd with
      | leaf s f => simp at h
      | internal f l r =>
        rcases Run.bind_eq_error.1 h with h | ⟨c₁, _, h⟩
        · exact ih h
        · exact ih h

theorem genCodes_eq_error {nodes : List Node} {n : Nat} {root : NodeIdx} {e : Abort}
    (h : genCodes nodes n root = .error e) : ∃ k, e = .fault (.invalidNode k) := by
  unfold genCodes at h
  split at h
  · simp at h
  · split at h
    · rcases Run.bind_eq_error.1 h with h | ⟨nd, _, h⟩
      · exact ⟨_, (nodeAt_eq_error h).1⟩
      · simp at h
    · exact walkCodes_eq_error h

/-! ### All bodies -/

/-- An error of a body, after the common checks, is one of the codes 4..7, whose failure spoils the destination (R123). -/
theorem bodyOf_error_code {i : Instr} {l : Latch} {s : State} {c : ErrCode} {n : Nat}
    (h : bodyOf i l s = .error (.error c n)) : c.spoilsDestination = true := by
  cases i with
  | buildTree => simp [bodyOf, buildTreeBody] at h
  | genCodes =>
    rcases Run.bind_eq_error.1 h with h | ⟨c, _, h⟩
    · obtain ⟨k, hk⟩ := genCodes_eq_error h; simp at hk
    · simp at h
  | encode =>
    rcases Run.bind_eq_error.1 h with h | ⟨c, _, h⟩
    · rcases encodeFrom_eq_error h with ⟨k, _, _, hk⟩ | ⟨a, hk⟩
      · rcases hk with hk | hk <;> simp at hk <;> obtain ⟨rfl, rfl⟩ := hk <;> rfl
      · simp at hk
    · simp at h
  | decode =>
    rcases Run.bind_eq_error.1 h with h | ⟨c, _, h⟩
    · rcases decodePayload_eq_error h with ⟨k, hk⟩ | ⟨a, hk⟩
      · rcases hk with hk | hk <;> simp at hk <;> obtain ⟨rfl, rfl⟩ := hk <;> rfl
      · simp at hk
    · simp at h
  | serialize =>
    simp only [bodyOf, serializeBody] at h
    split at h
    · simp at h; obtain ⟨rfl, _⟩ := h; rfl
    · rcases Run.bind_eq_error.1 h with h | ⟨c, _, h⟩
      · obtain ⟨x, hx, _⟩ := readBytes_eq_error h; simp at hx
      · simp at h
  | deserialize =>
    rcases Run.bind_eq_error.1 h with h | ⟨c, _, h⟩
    · rcases parse_eq_error h with ⟨k, hk⟩ | ⟨a, hk⟩
      · rcases hk with hk | hk <;> simp at hk <;> obtain ⟨rfl, rfl⟩ := hk <;> rfl
      · simp at hk
    · simp only at h
      split at h <;> simp at h; obtain ⟨rfl, _⟩ := h; rfl

/-- What no command's effects touch: the parameters, CTRL, HOST_CONFLICT, LAST_OPC, the arguments, the latch and the model's own
fields. -/
structure BodyFrame (s u : State) : Prop where
  memSize : u.memSize = s.memSize
  irqEn : u.irqEn = s.irqEn
  done : u.done = s.done
  hostConflict : u.hostConflict = s.hostConflict
  err : u.err = s.err
  lastOpc : u.lastOpc = s.lastOpc
  arg0 : u.arg0 = s.arg0
  arg1 : u.arg1 = s.arg1
  arg2 : u.arg2 = s.arg2
  arg3 : u.arg3 = s.arg3
  errInfo : u.errInfo = s.errInfo
  latch : u.latch = s.latch
  hostQueue : u.hostQueue = s.hostQueue
  response : u.response = s.response
  drawCount : u.drawCount = s.drawCount

theorem bodyOf_frame {i : Instr} {l : Latch} {s u : State} (h : bodyOf i l s = .ok u) : BodyFrame s u := by
  cases i with
  | buildTree => simp only [bodyOf, buildTreeBody, Except.ok.injEq] at h; subst h; constructor <;> rfl
  | genCodes => obtain ⟨c, _, rfl⟩ := (genCodesBody_eq_ok (l := l)).1 h; constructor <;> rfl
  | encode => obtain ⟨c, _, rfl⟩ := encodeBody_eq_ok.1 h; constructor <;> rfl
  | decode => obtain ⟨c, _, rfl⟩ := decodeBody_eq_ok.1 h; constructor <;> rfl
  | serialize => obtain ⟨_, c, _, rfl⟩ := serializeBody_eq_ok.1 h; constructor <;> rfl
  | deserialize => obtain ⟨c, _, _, rfl⟩ := deserializeBody_eq_ok.1 h; constructor <;> rfl

/-- What a command's effects do to MEM: nothing, or a write that begins at the destination address and stays in the
destination range. -/
theorem bodyOf_mem {i : Instr} {l : Latch} {s u : State} (h : bodyOf i l s = .ok u) :
    u.mem = s.mem ∨ (destRange i l = some (l.a2.toNat, l.a3.toNat) ∧
      ∃ vs, vs.length ≤ l.a3.toNat ∧ u.mem = Memory.writeBytes s.mem l.a2.toNat vs) := by
  cases i with
  | buildTree => simp only [bodyOf, buildTreeBody, Except.ok.injEq] at h; subst h; exact .inl rfl
  | genCodes => obtain ⟨c, _, rfl⟩ := (genCodesBody_eq_ok (l := l)).1 h; exact .inl rfl
  | encode =>
    obtain ⟨bits, hb, rfl⟩ := encodeBody_eq_ok.1 h
    refine .inr ⟨rfl, pack bits, ?_, rfl⟩
    obtain ⟨xs, hl, _, rfl, hfit⟩ := encodeFrom_eq_ok.1 hb
    rw [pack_length]
    rcases hfit with h0 | h0
    · rw [h0] at hl; obtain rfl := List.length_eq_zero_iff.1 hl; simp
    · exact h0
  | decode =>
    obtain ⟨out, ho, rfl⟩ := decodeBody_eq_ok.1 h
    exact .inr ⟨rfl, out, decodePayload_length_le ho, rfl⟩
  | serialize =>
    obtain ⟨hfit, pb, hpb, rfl⟩ := serializeBody_eq_ok.1 h
    refine .inr ⟨rfl, _, ?_, rfl⟩
    unfold serialize
    rw [containerOf_length _ _ _ (readBytes_length hpb)]
    exact hfit
  | deserialize =>
    obtain ⟨c, hc, hfit, rfl⟩ := deserializeBody_eq_ok.1 h
    refine .inr ⟨rfl, c.payload, ?_, rfl⟩
    rw [parse_payload_length hc]
    exact hfit

end Sys2Proof.Machine
end

