-- ==== Sys2Proof/Laws/PerInstr.lean ====
section
/-! SUPPORT. The per-instruction family `EncodingIsOpc` (R58, R59): a command is well formed as syntax, its word has RSVD = 0
and an OPC field in 1..6, and the decoder reads the command back from that word. -/

namespace Sys2Proof.Laws.EncodingIsOpc

/-- The word of `i` passes both checks of a command word and decodes to `i`. -/
def Statement (i : Instr) : Prop :=
  i.wellFormed = true ∧ rsvdField (Sys2Proof.encode i) = 0#28 ∧ commandWordWellFormed (Sys2Proof.encode i) = true ∧
    Sys2Proof.decode (Sys2Proof.encode i) = .ok i

theorem buildTree : Statement .buildTree := ⟨rfl, rfl, rfl, rfl⟩

theorem genCodes : Statement .genCodes := ⟨rfl, rfl, rfl, rfl⟩

theorem encode : Statement .encode := ⟨rfl, rfl, rfl, rfl⟩

theorem decode : Statement .decode := ⟨rfl, rfl, rfl, rfl⟩

theorem serialize : Statement .serialize := ⟨rfl, rfl, rfl, rfl⟩

theorem deserialize : Statement .deserialize := ⟨rfl, rfl, rfl, rfl⟩

end Sys2Proof.Laws.EncodingIsOpc
end

