-- ==== Sys2Proof/Laws/Runs.lean ====
section
/-! SUPPORT. The loops of ENCODE, DECODE and Parse over whole lists: a run of input symbols, a run of codes, a walk that stops
inside a code, and the pairs of a container (R87, R88, R91, R99). -/

namespace Sys2Proof.Machine

/-- A run of symbols with codes that fit takes the loop of ENCODE past them (R84, R87). -/
theorem encodeFrom_run {c : CodeTable} {m : Memory} {a0 cap : Nat} (xs : List (Byte × Bits)) (n i : Nat) (bits : Bits)
    (hr : ∀ k (h : k < xs.length), Memory.read m (a0 + i + k) = some xs[k].1)
    (hc : ∀ x ∈ xs, codeOf c x.1 = some x.2)
    (hfit : xs = [] ∨ ceil8 (bits ++ xs.flatMap Prod.snd).length ≤ cap) :
    encodeFrom c m a0 cap (xs.length + n) i bits =
      encodeFrom c m a0 cap n (i + xs.length) (bits ++ xs.flatMap Prod.snd) := by
  induction xs generalizing i bits with
  | nil => simp
  | cons x xs ih =>
    have h0 : Memory.read m (a0 + i) = some x.1 := hr 0 (by simp)
    have hx : codeOf c x.1 = some x.2 := hc x (by simp)
    have hfit' : ceil8 (bits ++ (x :: xs).flatMap Prod.snd).length ≤ cap := hfit.resolve_left (by simp)
    have hle : ceil8 (bits ++ x.2).length ≤ cap := le_trans (ceil8_mono (by simp)) hfit'
    have hlen : (x :: xs).length + n = (xs.length + n) + 1 := by simp; omega
    rw [hlen, encodeFrom, readByte_eq_ok.2 h0]
    simp only [Run.ok_bind, hx]
    rw [if_neg (by omega), ih (i + 1) (bits ++ x.2) _ (fun y hy => hc y (by simp [hy])) (.inr (by simpa using hfit'))]
    · simp [Nat.add_assoc, Nat.add_comm 1]
    · intro k hk
      have := hr (k + 1) (by simpa using hk)
      simpa [Nat.add_assoc, Nat.add_comm 1] using this

/-- A node index stands for at most one tree. -/
theorem Denotes.unique {nodes : List Node} {i : Nat} {t u : HTree} (ht : Denotes nodes i t) (hu : Denotes nodes i u) :
    t = u := by
  induction ht generalizing u with
  | @leaf i s c h =>
    cases hu with
    | @leaf _ s' c' h' =>
      rw [h] at h'
      simp only [Option.some.injEq, Node.leaf.injEq] at h'
      obtain ⟨rfl, h'⟩ := h'
      have : c = c' := by
        apply BitVec.eq_of_toNat_eq
        have := congrArg BitVec.toNat h'
        simp only [BitVec.toNat_setWidth] at this
        have := c.isLt; have := c'.isLt
        omega
      rw [this]
    | node h' => rw [h] at h'; simp at h'
  | node h _ _ _ ihl ihr =>
    cases hu with
    | leaf h' => rw [h] at h'; simp at h'
    | node h' hl hr _ =>
      rw [h] at h'
      simp only [Option.some.injEq, Node.internal.injEq] at h'
      obtain ⟨-, rfl, rfl⟩ := h'
      rw [ihl hl, ihr hr]

/-- A run of whole codes takes the walk of DECODE back to the root and emits their symbols (R88). -/
theorem decodeFrom_run {nodes : List Node} {root : NodeIdx} {m : Memory} {a0 cap : Nat} {t : HTree}
    (h : Denotes nodes root.toNat t) (xs : List (Byte × Bits)) (hx : ∀ x ∈ xs, x ∈ t.paths ∧ x.2 ≠ []) (n j : Nat)
    (out : List Byte) (hbits : PayloadAt m a0 j (xs.flatMap Prod.snd)) (hcap : out.length + xs.length ≤ cap) :
    decodeFrom nodes root m a0 cap ((xs.flatMap Prod.snd).length + n) j root out =
      decodeFrom nodes root m a0 cap n (j + (xs.flatMap Prod.snd).length) root (out ++ xs.map Prod.fst) := by
  induction xs generalizing j out with
  | nil => simp
  | cons x xs ih =>
    obtain ⟨hp, hne⟩ := hx x (by simp)
    simp only [List.flatMap_cons] at hbits ⊢
    obtain ⟨h1, h2⟩ := hbits.append
    have hlen : (x.2 ++ xs.flatMap Prod.snd).length + n = x.2.length + ((xs.flatMap Prod.snd).length + n) := by
      simp; omega
    simp only [List.length_cons] at hcap
    rw [hlen, decodeFrom_path h root rfl (s := x.1) (p := x.2) hp hne _ _ _ h1, if_neg (by omega),
      ih (fun y hy => hx y (by simp [hy])) _ _ h2 (by simp; omega)]
    simp [Nat.add_assoc]

/-- A walk whose bits end inside a code stands at an inner node below the node it started from (R91). -/
theorem decodeFrom_inside {nodes : List Node} {root : NodeIdx} {m : Memory} {a0 cap : Nat} {k : Nat} {t : HTree}
    (h : Denotes nodes k t) (cur : NodeIdx) (hc : cur.toNat = k) {s : Byte} {p q : Bits} (hp : (s, p) ∈ t.paths)
    (hq : q <+: p) (hne : q ≠ p) (j : Nat) (out : List Byte) (hbits : PayloadAt m a0 j q) :
    ∃ (cur' : NodeIdx) (u : HTree), decodeFrom nodes root m a0 cap q.length j cur out = .ok (cur', out) ∧
      Denotes nodes cur'.toNat u ∧ u.height ≤ t.height ∧ (q ≠ [] → u.height < t.height) := by
  induction h generalizing cur p q j with
  | leaf h =>
    simp only [HTree.paths, List.mem_singleton, Prod.mk.injEq] at hp
    obtain ⟨-, rfl⟩ := hp
    exact absurd (List.prefix_nil.1 hq) hne
  | @node k f l r tl tr h hl hr hf ihl ihr =>
    have hat : nodeAt nodes cur = .ok (.internal f l r) := nodeAt_eq_ok.2 (hc ▸ h)
    cases q with
    | nil => exact ⟨cur, .node tl tr, by simp [decodeFrom], hc ▸ .node h hl hr hf, le_rfl, fun h => absurd rfl h⟩
    | cons b q =>
      have step : ∀ (p' : Bits) (sub : HTree) (nx : NodeIdx), p = b :: p' → (s, p') ∈ sub.paths →
          Denotes nodes nx.toNat sub → nx = (if b then r else l) → sub.height < (HTree.node tl tr).height →
          (∀ (p : Bits), (s, p) ∈ sub.paths → q <+: p → q ≠ p → PayloadAt m a0 (j + 1) q →
            ∃ (cur' : NodeIdx) (u : HTree), decodeFrom nodes root m a0 cap q.length (j + 1) nx out = .ok (cur', out) ∧
              Denotes nodes cur'.toNat u ∧ u.height ≤ sub.height ∧ (q ≠ [] → u.height < sub.height)) →
          ∃ (cur' : NodeIdx) (u : HTree),
            decodeFrom nodes root m a0 cap (b :: q).length j cur out = .ok (cur', out) ∧
              Denotes nodes cur'.toNat u ∧ u.height ≤ (HTree.node tl tr).height ∧
              ((b :: q) ≠ [] → u.height < (HTree.node tl tr).height) := by
        rintro p' sub nx rfl hp' hsub hnx hlt hrec
        have hq' : q <+: p' := by simpa using hq
        have hne' : q ≠ p' := fun h => hne (by rw [h])
        obtain ⟨cur', u, hd, hu, hle, _⟩ := hrec p' hp' hq' hne' hbits.tail
        refine ⟨cur', u, ?_, hu, by omega, fun _ => by omega⟩
        have hb : payloadBit m a0 j = .ok b := hbits 0 (by simp)
        simp only [List.length_cons, decodeFrom, hb, Run.ok_bind, hat, Node.left, Node.right, ← hnx]
        cases hsub with
        | leaf h' =>
          simp only [HTree.paths, List.mem_singleton, Prod.mk.injEq] at hp'
          obtain ⟨-, rfl⟩ := hp'
          exact absurd (List.prefix_nil.1 hq') hne'
        | node h' _ _ _ =>
          rw [nodeAt_eq_ok.2 h']
          exact hd
      simp only [HTree.paths, List.mem_append, List.mem_map, Prod.mk.injEq, Prod.exists] at hp
      rcases hp with ⟨s', p', hp', rfl, rfl⟩ | ⟨s', p', hp', rfl, rfl⟩
      · have hb : b = false := by have := hq; simp at this; exact this.1
        subst hb
        exact step p' tl l rfl hp' hl rfl (by simp [HTree.height]) fun p hp hq hne hb => ihl l rfl hp hq hne (j + 1) hb
      · have hb : b = true := by have := hq; simp at this; exact this.1
        subst hb
        exact step p' tr r rfl hp' hr rfl (by simp [HTree.height]) fun p hp hq hne hb => ihr r rfl hp hq hne (j + 1) hb

/-- The counts of a list of pairs, over the table `f`. -/
def loadPairs (f : FreqTable) (ps : List (Byte × Word)) : FreqTable := ps.foldl (fun g p => setFreq g p.1 p.2) f

theorem freqOf_loadPairs_of_notMem (ps : List (Byte × Word)) (f : FreqTable) {y : Byte} (h : y ∉ ps.map Prod.fst) :
    freqOf (loadPairs f ps) y = freqOf f y := by
  induction ps generalizing f with
  | nil => rfl
  | cons p ps ih =>
    simp only [List.map_cons, List.mem_cons, not_or] at h
    rw [show loadPairs f (p :: ps) = loadPairs (setFreq f p.1 p.2) ps from rfl, ih _ h.2, freqOf_setFreq,
      if_neg (Ne.symm h.1)]

theorem freqOf_loadPairs (ps : List (Byte × Word)) (f : FreqTable) (hn : (ps.map Prod.fst).Nodup) {p : Byte × Word}
    (h : p ∈ ps) : freqOf (loadPairs f ps) p.1 = p.2 := by
  induction ps generalizing f with
  | nil => simp at h
  | cons q ps ih =>
    simp only [List.map_cons, List.nodup_cons] at hn
    rw [show loadPairs f (q :: ps) = loadPairs (setFreq f q.1 q.2) ps from rfl]
    rcases List.mem_cons.1 h with rfl | h
    · rw [freqOf_loadPairs_of_notMem _ _ hn.1, freqOf_setFreq, if_pos rfl]
    · exact ih _ hn.2 h

/-- MEM holds the bytes `bs` from `a` on. -/
def BytesAt (m : Memory) (a : Nat) (bs : List Byte) : Prop := ∀ k (h : k < bs.length), Memory.read m (a + k) = some bs[k]

theorem BytesAt.append {m : Memory} {a : Nat} {xs ys : List Byte} (h : BytesAt m a (xs ++ ys)) :
    BytesAt m a xs ∧ BytesAt m (a + xs.length) ys := by
  constructor
  · intro k hk
    have := h k (by simp; omega)
    rwa [List.getElem_append_left hk] at this
  · intro k hk
    have := h (xs.length + k) (by simp; omega)
    rw [List.getElem_append_right (by omega)] at this
    simpa [Nat.add_assoc] using this

theorem BytesAt.readBytes {m : Memory} {a n : Nat} {bs : List Byte} (h : BytesAt m a bs) (hn : bs.length = n) :
    Machine.readBytes m a n = .ok bs := readBytes_eq_ok.2 ((Memory.readMany_eq_ok m a n bs).2 ⟨hn, h⟩)

/-- One turn of Parse's pair loop at a written pair: the checks for a repeated symbol and a zero count, in that order, or the
next turn (R99). -/
theorem parsePairs_pair {m : Memory} {a0 : Nat} (p : Byte × Word) (n k : Nat) (f : FreqTable) (seen : List Byte)
    (hb : BytesAt m (a0 + 2 + 5 * k) (pairBytes p)) :
    parsePairs m a0 (n + 1) k f seen =
      if p.1 ∈ seen then .error (.error .corruptContainer (2 + 5 * k))
      else if p.2 = 0#32 then .error (.error .corruptContainer (3 + 5 * k))
      else parsePairs m a0 n (k + 1) (setFreq f p.1 p.2) (p.1 :: seen) := by
  obtain ⟨h3, h4⟩ := BytesAt.append (xs := [p.1]) (ys := toBe32 p.2.toNat) hb
  have hsym : readByte m (a0 + 2 + 5 * k) = .ok p.1 := readByte_eq_ok.2 (h3 0 (by simp))
  have hcnt : readBytes m (a0 + 3 + 5 * k) 4 = .ok (toBe32 p.2.toNat) := by
    refine BytesAt.readBytes ?_ rfl
    rwa [show a0 + 3 + 5 * k = a0 + 2 + 5 * k + [p.1].length by simp; omega]
  have hv : beNat (toBe32 p.2.toNat) = p.2.toNat := beNat_toBe32 p.2.isLt
  have hz : p.2.toNat = 0 ↔ p.2 = 0#32 := ⟨fun h => BitVec.eq_of_toNat_eq (by simpa using h), fun h => by simp [h]⟩
  rw [parsePairs, hsym]
  simp only [Run.ok_bind]
  rw [hcnt]
  simp only [Run.ok_bind, hv, hz, BitVec.ofNat_toNat, BitVec.setWidth_eq]

/-- A run of written pairs takes Parse's pair loop past them and loads them, if no symbol is repeated and no count is 0 (R99,
R100). -/
theorem parsePairs_run {m : Memory} {a0 : Nat} (ps : List (Byte × Word)) (n k : Nat) (f : FreqTable) (seen : List Byte)
    (hb : BytesAt m (a0 + 2 + 5 * k) (ps.flatMap pairBytes)) (hn : (ps.map Prod.fst).Nodup)
    (hs : ∀ y ∈ ps.map Prod.fst, y ∉ seen) (h0 : ∀ p ∈ ps, p.2 ≠ 0#32) :
    parsePairs m a0 (ps.length + n) k f seen =
      parsePairs m a0 n (k + ps.length) (loadPairs f ps) ((ps.map Prod.fst).reverse ++ seen) := by
  induction ps generalizing k f seen with
  | nil => simp [loadPairs]
  | cons p ps ih =>
    simp only [List.map_cons, List.nodup_cons] at hn
    obtain ⟨h1, h2⟩ := BytesAt.append (xs := pairBytes p) (ys := ps.flatMap pairBytes) (by simpa using hb)
    rw [show (p :: ps).length + n = (ps.length + n) + 1 by simp; omega, parsePairs_pair p _ _ _ _ h1,
      if_neg (hs p.1 (by simp)), if_neg (h0 p (by simp)), ih (k + 1) _ _ ?_ hn.2 ?_ fun q hq => h0 q (by simp [hq])]
    · rw [show k + 1 + ps.length = k + (p :: ps).length by simp; omega]
      simp [loadPairs]
    · rwa [show a0 + 2 + 5 * (k + 1) = a0 + 2 + 5 * k + (pairBytes p).length by simp; omega]
    · intro y hy
      simp only [List.mem_cons, not_or]
      exact ⟨fun h => hn.1 (h ▸ hy), hs y (by simp only [List.map_cons, List.mem_cons]; exact .inr hy)⟩

/-- Parse's pair loop over all pairs of a container that pass its checks loads them (R99, R100). -/
theorem parsePairs_all {m : Memory} {a0 : Nat} (ps : List (Byte × Word))
    (hb : BytesAt m (a0 + 2) (ps.flatMap pairBytes)) (hn : (ps.map Prod.fst).Nodup) (h0 : ∀ p ∈ ps, p.2 ≠ 0#32) :
    parsePairs m a0 ps.length 0 emptyFreq [] = .ok (loadPairs emptyFreq ps) :=
  (parsePairs_run ps 0 0 emptyFreq [] (by simpa using hb) hn (by simp) h0).trans rfl

/-- Parse of two written bytes goes on with their value as COUNT (R9, R99). -/
theorem parse_count {m : Memory} {a0 size : Nat} {b0 b1 : Byte} (h2 : 2 ≤ size) (hb : BytesAt m a0 [b0, b1]) :
    parse m a0 size = parseTable m a0 size (b0.toNat * 256 + b1.toNat) := by
  have h : readBytes m a0 2 = .ok [b0, b1] := BytesAt.readBytes hb rfl
  have hv : beNat [b0, b1] = b0.toNat * 256 + b1.toNat := by simp [beNat]
  rw [parse, if_neg (by omega), h, Run.ok_bind, hv]

/-- Parse whose checks of the size and of COUNT pass goes on to the pairs, BITLEN and the payload (R99). -/
theorem parse_table {m : Memory} {a0 size n : Nat} (hn : n ≤ 256) (h : 6 + 5 * n ≤ size) (hb : BytesAt m a0 (toBe16 n)) :
    parse m a0 size = (do
      let f ← parsePairs m a0 n 0 emptyFreq []
      let lenBytes ← readBytes m (a0 + 2 + 5 * n) 4
      let pb ← parsePayload m a0 size n (beNat lenBytes)
      return { freq := f, count := n, len := beNat lenBytes, payload := pb }) := by
  have hc : readBytes m a0 2 = .ok (toBe16 n) := BytesAt.readBytes hb rfl
  rw [parse, if_neg (by omega), hc, Run.ok_bind, beNat_toBe16 (by omega), parseTable, if_neg (by omega), if_neg (by omega)]

end Sys2Proof.Machine
end

