-- ==== Sys2Proof/Laws/Step.lean ====
section
/-! SUPPORT. What one step can do, said once: a host read, a host write, a hardware reset, or the engine step (R53, R107,
R109, R137). -/

namespace Sys2Proof.Machine

/-! ### The address map -/

theorem AccessSize.bytes_pos (sz : AccessSize) : 0 < sz.bytes := by cases sz <;> decide

/-- A transaction that reaches MEM stays inside it (R41). -/
theorem hostTarget_mem {m : MemSize} {off : Nat} {sz : AccessSize} {a : Nat} (h : hostTarget m off sz = some (.mem a)) :
    off = 0x10000 + a ∧ off % sz.bytes = 0 ∧ a + sz.bytes ≤ Config.memBytes m := by
  unfold hostTarget at h
  split at h
  · split at h
    · simp only [Option.some.injEq, Target.mem.injEq] at h; omega
    · simp at h
  · split at h
    · unfold wordTarget at h
      split at h
      · unfold controlRegister at h
        split at h <;> simp at h
      · repeat' split at h
        all_goals simp at h
    · simp at h

/-! ### Reads and writes -/

/-- Everything a host read can do: the ERROR response, a conflicting read, an OKAY read that changes nothing but the
answer, or the fault of U4. -/
theorem hostRead_cases (off : HostOffset) (sz : AccessSize) (s : State) :
    (hostTarget s.memSize off.toNat sz = none ∧ hostRead off sz s = .next (answerRead .error 0#32 s)) ∨
    ∃ t, hostTarget s.memSize off.toNat sz = some t ∧
      ((s.busy = true ∧ t.isWindow = true ∧ hostRead off sz s = .next (conflictRead sz s)) ∨
       ((s.busy = false ∨ t.isWindow = false) ∧
         ((∃ v, readTarget t sz s = .ok v ∧ hostRead off sz s = .next (answerRead .okay v s)) ∨
          ∃ x, readTarget t sz s = .error x ∧ hostRead off sz s = .fault (.unwrittenRead x)))) := by
  unfold hostRead
  cases ht : hostTarget s.memSize off.toNat sz with
  | none => exact .inl ⟨rfl, rfl⟩
  | some t =>
    refine .inr ⟨t, rfl, ?_⟩
    cases hb : s.busy <;> cases hw : t.isWindow <;> cases hr : readTarget t sz s <;> simp [hw, hr]

/-- Everything a host write can do: the ERROR response, a conflicting write, or an OKAY write. -/
theorem hostWrite_cases (off : HostOffset) (sz : AccessSize) (data : Word) (s : State) :
    (hostTarget s.memSize off.toNat sz = none ∧ hostWrite off sz data s = .next (answerWrite .error s)) ∨
    ∃ t, hostTarget s.memSize off.toNat sz = some t ∧
      ((s.busy = true ∧ t.isWindow = true ∧ hostWrite off sz data s = .next (conflictWrite s)) ∨
       ((s.busy = false ∨ t.isWindow = false) ∧
         hostWrite off sz data s = .next (answerWrite .okay (writeTarget t sz data s)))) := by
  unfold hostWrite
  cases ht : hostTarget s.memSize off.toNat sz with
  | none => exact .inl ⟨rfl, rfl⟩
  | some t =>
    refine .inr ⟨t, rfl, ?_⟩
    cases hb : s.busy <;> cases hw : t.isWindow <;> simp [hw]

/-! ### The engine and the step -/

/-- Everything the engine step can do: nothing while idle, the latched command, or BAD_COMMAND. -/
theorem engineStep_cases (s : State) :
    (s.latch = none ∧ engineStep s = .next s) ∨
    ∃ l, s.latch = some l ∧
      ((∃ i, Sys2Proof.decode l.word = .ok i ∧ engineStep s = exec i s) ∨
       ((∃ e, Sys2Proof.decode l.word = .error e) ∧ engineStep s = .next (raiseError l .badCommand 0 s))) := by
  unfold engineStep
  cases hl : s.latch with
  | none => exact .inl ⟨rfl, rfl⟩
  | some l =>
    refine .inr ⟨l, rfl, ?_⟩
    cases hd : Sys2Proof.decode l.word <;> simp [hd]

theorem step_nil {s : State} (h : s.hostQueue = []) : step s = engineStep s := by simp [step, h]

theorem step_cons {s : State} {e : HostEvent} {es : List HostEvent} (h : s.hostQueue = e :: es) :
    step s = hostEvent e s.takeEvent := by simp [step, h]

/-- A latched command whose meaning runs answers as `exec` does. -/
theorem engineStep_exec {s : State} {l : Latch} {i : Instr} (hl : s.latch = some l)
    (hd : Sys2Proof.decode l.word = .ok i) : engineStep s = exec i s := by simp [engineStep, hl, hd]

/-- A property that every kind of step keeps is kept by `step`: the engine step, the reads, the writes and the resets. -/
theorem step_keeps {P : State → Prop}
    (take : ∀ s : State, P s → P s.takeEvent)
    (command : ∀ i l s t, P s → s.latch = some l → exec i s = .next t → P t)
    (bad : ∀ l s, P s → s.latch = some l → P (raiseError l .badCommand 0 s))
    (answerR : ∀ b v s, P s → P (answerRead b v s))
    (answerW : ∀ b s, P s → P (answerWrite b s))
    (conflictR : ∀ z s, P s → P (conflictRead z s))
    (conflictW : ∀ s, P s → P (conflictWrite s))
    (write : ∀ t z d s, P s → (s.busy = false ∨ t.isWindow = false) →
      (∀ a, t = .mem a → a + z.bytes ≤ Config.memBytes s.memSize) → P (writeTarget t z d s))
    (reset : ∀ s, P s → P (hardwareReset s))
    {s t : State} (hs : P s) (h : step s = .next t) : P t := by
  have engine : ∀ s t, P s → engineStep s = .next t → P t := by
    intro s t hs h
    rcases engineStep_cases s with ⟨_, he⟩ | ⟨l, hl, ⟨i, _, he⟩ | ⟨_, he⟩⟩
    · rw [he] at h; cases h; exact hs
    · rw [he] at h; exact command i l s t hs hl h
    · rw [he] at h; cases h; exact bad l s hs hl
  cases hq : s.hostQueue with
  | nil => rw [step_nil hq] at h; exact engine s t hs h
  | cons e es =>
    rw [step_cons hq] at h
    have ht := take s hs
    cases e with
    | read off sz =>
      rcases hostRead_cases off sz s.takeEvent with ⟨_, he⟩ | ⟨tg, _, ⟨_, _, he⟩ | ⟨_, ⟨v, _, he⟩ | ⟨x, _, he⟩⟩⟩ <;>
        simp only [hostEvent, he] at h <;> cases h
      · exact answerR _ _ _ ht
      · exact conflictR _ _ ht
      · exact answerR _ _ _ ht
    | write off sz data =>
      rcases hostWrite_cases off sz data s.takeEvent with ⟨_, he⟩ | ⟨tg, htg, ⟨_, _, he⟩ | ⟨hb, he⟩⟩ <;>
        simp only [hostEvent, he] at h <;> cases h
      · exact answerW _ _ ht
      · exact conflictW _ ht
      · exact answerW _ _ (write tg sz data _ ht hb fun a ha => (hostTarget_mem (ha ▸ htg)).2.2)
    | hardwareReset => simp only [hostEvent] at h; cases h; exact reset _ ht
    | engineTurn => simp only [hostEvent] at h; exact engine _ t ht h

end Sys2Proof.Machine
end

