-- ==== Sys2Proof/Laws/Vocabulary.lean ====
section
/-! SUPPORT. The statements' words (`Sys2Proof.Claims`) and the model's: the present symbols are the symbols of
`presentPairs`, the payload bits of a claim are `PayloadAt`, the range check is `RangesOk`, and a body that raises an error
gives `FailsSpoiled`. -/

namespace Sys2Proof.Claims

open Sys2Proof.Machine

theorem toList_eq_map_freqOf (f : FreqTable) :
    f.toList = (List.range 256).map fun k => freqOf f (BitVec.ofNat 8 k) := by
  apply List.ext_getElem
  · simp
  · intro k h₁ h₂
    have hk : k < 256 := by simpa using h₁
    simp only [List.getElem_map, List.getElem_range, Vector.getElem_toList, freqOf, BitVec.toNat_ofNat]
    congr 1
    omega

theorem presentPairs_eq_filterMap (f : FreqTable) :
    presentPairs f = (List.range 256).filterMap fun k =>
      if freqOf f (BitVec.ofNat 8 k) = 0#32 then none else some (BitVec.ofNat 8 k, freqOf f (BitVec.ofNat 8 k)) := by
  have h : f.toList.zipIdx = (List.range 256).map fun k => (freqOf f (BitVec.ofNat 8 k), k) := by
    rw [toList_eq_map_freqOf]
    apply List.ext_getElem
    · simp
    · intro k h₁ h₂
      simp
  rw [presentPairs, h, List.filterMap_map]
  rfl

/-- The present symbols, in ascending order, with their counts (R12, R96). -/
theorem presentPairs_eq_map (f : FreqTable) : presentPairs f = (presentSymbols f).map fun y => (y, freqOf f y) := by
  rw [presentPairs_eq_filterMap, presentSymbols, List.filter_map, List.map_map]
  induction List.range 256 with
  | nil => rfl
  | cons k ks ih =>
    by_cases h : freqOf f (BitVec.ofNat 8 k) = 0#32 <;> simp [h, ih]

theorem presentSymbols_eq_map (f : FreqTable) : presentSymbols f = (presentPairs f).map Prod.fst := by
  rw [presentPairs_eq_map, List.map_map]
  exact (List.map_id _).symm

theorem presentSymbols_length (f : FreqTable) : (presentSymbols f).length = (presentPairs f).length := by
  rw [presentPairs_eq_map, List.length_map]

theorem mem_presentSymbols {f : FreqTable} {y : Byte} : y ∈ presentSymbols f ↔ freqOf f y ≠ 0#32 := by
  rw [presentSymbols_eq_map, List.mem_map]
  constructor
  · rintro ⟨p, hp, rfl⟩
    obtain ⟨h, hne⟩ := mem_presentPairs.1 hp
    rwa [h]
  · exact fun h => ⟨(y, freqOf f y), mem_presentPairs.2 ⟨rfl, h⟩, rfl⟩

theorem presentSymbols_nodup (f : FreqTable) : (presentSymbols f).Nodup := by
  rw [presentSymbols_eq_map]
  exact presentPairs_symbols_nodup f

theorem holdsBits_iff_payloadAt (m : Memory) (base : Nat) (p : Bits) : HoldsBits m base p ↔ PayloadAt m base 0 p := by
  simp [HoldsBits, PayloadAt]

theorem holdsBytes_iff_readMany (m : Memory) (a : Nat) (bs : List Byte) :
    HoldsBytes m a bs ↔ Memory.readMany m a bs.length = .ok bs := by
  rw [Memory.readMany_eq_ok]
  exact ⟨fun h => ⟨rfl, h⟩, fun h => h.2⟩

/-- The range check is R60 on the ranges of the command (R61). -/
theorem rangesValid_iff_rangesOk {M : Nat} {i : Instr} {l : Latch} {a m b k : Nat} (hs : sourceRange i l = some (a, m))
    (hd : destRange i l = some (b, k)) : rangesValid M i l = true ↔ RangesOk M a m b k := by
  simp [rangesValid, hs, hd, inMem, overlap, RangesOk, InMem, Overlap]
  omega

/-- A ready command with valid ranges whose body raises an error has the effects of R123 and no others. -/
theorem failsSpoiled_of_body {s : State} {l : Latch} {c : ErrCode} {n : Nat} {i : Instr} (hl : s.latch = some l)
    (hr : ready i s = true) (hd : destRange i l = some (l.a2.toNat, l.a3.toNat))
    (hv : rangesValid (Config.memBytes s.memSize) i l = true) (hb : bodyOf i l s = .error (.error c n)) :
    FailsSpoiled s l c n (exec i s) := by
  have hsp := bodyOf_error_code hb
  refine ⟨_, (exec_eq_runCommand i s).trans (runCommand_fail hl hr hv hb), ?_, fun a h1 h2 => ?_, fun b hb => ?_⟩
  · simp [raiseError, spoilDestination, hsp, drawRange]
  · have := destRange_inMem hv hd
    rw [read_raiseError, if_pos ⟨hsp, h1, h2, by omega⟩]
  · rw [read_raiseError, if_neg (by omega)]

/-- The words of the NODE window (R31), and what a claim says of them. -/
theorem nodeWords_getElem? (nd : Node) {w : Nat} (h : w < 4) :
    (nodeWords nd)[w]? = some (nodeWord (some nd) w).toNat := by
  obtain _ | _ | _ | _ | w := w
  · rw [nodeWord_head]; cases nd <;> simp [nodeWords, Node.isLeaf, Node.symbol]
  · rw [nodeWord_freqLow]; cases nd <;> rfl
  · rw [nodeWord_freqHigh]; cases nd <;> rfl
  · rw [nodeWord_children]; cases nd <;> rfl
  · omega

/-- The bytes of COUNT and the pairs, as `containerOf` lays them out (R95). -/
theorem tableBytes_eq (n : Nat) (ps : List (Byte × Word)) : tableBytes n ps = toBe16 n ++ ps.flatMap pairBytes := rfl

theorem be32Bytes_eq (n : Nat) : be32Bytes n = toBe32 n := rfl

end Sys2Proof.Claims
end

