-- ==== Sys2Proof/Tests/Slice0.lean ====
section
/-! SUPPORT. The model's own tests: ill-formed words for each check, the six words of R59, one step for each command with the
expected values of spec/95_test_vectors.md (the vector is named at each test), and for every statement of
Certificates/Slice0/Obligations.lean that has hypotheses a witness that meets all of them together. -/

namespace Sys2Proof.Tests

open Sys2Proof Sys2Proof.Machine Sys2Proof.Claims

/-! ### The checks of a command word (R58, R59, R64) -/

theorem test_rsvd_check_refuses : rsvdOk 0x00000011#32 = false ∧ rsvdOk 0x80000003#32 = false := by decide

theorem test_opc_check_refuses :
    opcOk 0x00000000#32 = false ∧ opcOk 0x00000007#32 = false ∧ opcOk 0x0000000F#32 = false := by decide

theorem test_rejects_by_name :
    Sys2Proof.decode 0x00000011#32 = .error .reservedBitsSet ∧
    Sys2Proof.decode 0x80000003#32 = .error .reservedBitsSet ∧
    Sys2Proof.decode 0x00000000#32 = .error .reservedOpcode ∧
    Sys2Proof.decode 0x00000007#32 = .error .reservedOpcode := by
  decide

/-! ### The words of R59's table, bit by bit -/

theorem test_decode_buildTree : Sys2Proof.decode 0b00000000000000000000000000000001#32 = .ok .buildTree := by decide

theorem test_decode_genCodes : Sys2Proof.decode 0b00000000000000000000000000000010#32 = .ok .genCodes := by decide

theorem test_decode_encode : Sys2Proof.decode 0b00000000000000000000000000000011#32 = .ok .encode := by decide

theorem test_decode_decode : Sys2Proof.decode 0b00000000000000000000000000000100#32 = .ok .decode := by decide

theorem test_decode_serialize : Sys2Proof.decode 0b00000000000000000000000000000101#32 = .ok .serialize := by decide

theorem test_decode_deserialize : Sys2Proof.decode 0b00000000000000000000000000000110#32 = .ok .deserialize := by decide

/-! ### Small states -/

/-- A view of the next state of an outcome. -/
def view {α : Type} (o : Outcome) (f : State → α) : Option α :=
  match o with
  | .next t => some (f t)
  | .fault _ => none
  | .refused _ => none

theorem next_of_view {α : Type} {o : Outcome} {f : State → α} {v : α} (h : view o f = some v) :
    ∃ t, o = .next t ∧ f t = v := by
  cases o with
  | next t => exact ⟨t, rfl, by simpa [view] using h⟩
  | fault _ => simp [view] at h
  | refused _ => simp [view] at h

/-- FREQ with the listed counts, every other entry 0. -/
def freqFrom (ps : List (Byte × Word)) : FreqTable := ps.foldl (fun f p => Machine.setFreq f p.1 p.2) emptyFreq

/-- a 5, b 2, c 1, d 1, r 2: the counts of "abracadabra" (V-T1). -/
def abra : FreqTable := freqFrom [(0x61, 5), (0x62, 2), (0x63, 1), (0x64, 1), (0x72, 2)]

/-- "abracadabra". -/
def abraText : List Byte := [0x61, 0x62, 0x72, 0x61, 0x63, 0x61, 0x64, 0x61, 0x62, 0x72, 0x61]

/-- The code table V-C1, as the spec lists it. -/
def abraCodes : List (Byte × Bits) :=
  [(0x61, [false]), (0x62, [true, true, false]), (0x63, [true, false, false]), (0x64, [true, false, true]),
    (0x72, [true, true, true])]

/-- "abracadabra" with the code of each symbol (V-C1). -/
def abraPairs : List (Byte × Bits) :=
  [(0x61, [false]), (0x62, [true, true, false]), (0x72, [true, true, true]), (0x61, [false]),
    (0x63, [true, false, false]), (0x61, [false]), (0x64, [true, false, true]), (0x61, [false]),
    (0x62, [true, true, false]), (0x72, [true, true, true]), (0x61, [false])]

/-- The container V-S1. -/
def abraContainer : List Byte :=
  [0x00, 0x05, 0x61, 0, 0, 0, 5, 0x62, 0, 0, 0, 2, 0x63, 0, 0, 0, 1, 0x64, 0, 0, 0, 1, 0x72, 0, 0, 0, 2, 0, 0, 0, 0x17,
    0x6E, 0x8A, 0xDC]

/-- MEM holding `bs` from `a` on. -/
def bytesAt (a : Nat) (bs : List Byte) : Memory := Memory.writeBytes [] a bs

/-- After rst_n and the writes of `f`. -/
def loaded (f : FreqTable) : State := { State.reset with freq := f }

/-- After BUILD_TREE of `f`. -/
def built (f : FreqTable) : State :=
  { loaded f with
    nodes := (buildTree f).nodes, nleaf := BitVec.ofNat 9 (buildTree f).n, root := (buildTree f).root, treeValid := true }

/-- After GEN_CODES too. -/
def coded (f : FreqTable) : State :=
  { built f with
    codes := (genCodes (buildTree f).nodes (buildTree f).n (buildTree f).root).toOption.getD emptyCodes
    codesValid := true }

/-- `s` with MEM `m` and the command `i` issued with these arguments. -/
def running (s : State) (m : Memory) (i : Instr) (a0 a1 a2 a3 : Word) : State :=
  { s with mem := m, latch := some ⟨Sys2Proof.encode i, a0, a1, a2, a3⟩, lastOpc := opcField (Sys2Proof.encode i) }

/-- The latch of `running`. -/
def latchOf (i : Instr) (a0 a1 a2 a3 : Word) : Latch := ⟨Sys2Proof.encode i, a0, a1, a2, a3⟩

/-- `s` with the event `e` to come. -/
def facing (s : State) (e : HostEvent) : State := { s with hostQueue := [e] }

/-- The data a read answered. -/
def dataOf (t : State) : Option Word := t.response.bind PortAnswer.data

theorem buildTree_n_lt (f : FreqTable) : (buildTree f).n < 2 ^ 9 := by
  have := presentPairs_length_le f
  rw [buildTree_n]; omega

theorem coded_codes (f : FreqTable) :
    genCodes (coded f).nodes (coded f).nleaf.toNat (coded f).root = .ok (coded f).codes := by
  obtain ⟨c, hc⟩ := genCodes_buildTree_ok f
  have hn : (BitVec.ofNat 9 (buildTree f).n).toNat = (buildTree f).n := by
    rw [BitVec.toNat_ofNat, Nat.mod_eq_of_lt (buildTree_n_lt f)]
  show genCodes (buildTree f).nodes (BitVec.ofNat 9 (buildTree f).n).toNat (buildTree f).root = .ok _
  rw [hn, hc]
  simp [coded, hc, Except.toOption]

/-- The states of these tests meet the invariant. -/
theorem loaded_inv (f : FreqTable) {m : Memory} (hw : Memory.wf m) (hm : Memory.within (Config.memBytes .bytes65536) m)
    (i : Instr) (a0 a1 a2 a3 : Word) : (running (loaded f) m i a0 a1 a2 a3).Inv where
  memWf := hw
  memWithin := hm
  tree := by simp [running, loaded, State.reset]
  noTree := by simp [running, loaded, State.reset]
  codes := by simp [running, loaded, State.reset]
  running := by simp [running, loaded, State.reset]
  lastOpc := by simp [running]

theorem built_inv (f : FreqTable) {m : Memory} (hw : Memory.wf m) (hm : Memory.within (Config.memBytes .bytes65536) m)
    (i : Instr) (a0 a1 a2 a3 : Word) : (running (built f) m i a0 a1 a2 a3).Inv where
  memWf := hw
  memWithin := hm
  tree := fun _ => ⟨rfl, rfl, rfl⟩
  noTree := by simp [running, built]
  codes := by simp [running, built, loaded, State.reset]
  running := by simp [running, built, loaded, State.reset]
  lastOpc := by simp [running]

theorem coded_inv (f : FreqTable) {m : Memory} (hw : Memory.wf m) (hm : Memory.within (Config.memBytes .bytes65536) m)
    (i : Instr) (a0 a1 a2 a3 : Word) : (running (coded f) m i a0 a1 a2 a3).Inv where
  memWf := hw
  memWithin := hm
  tree := fun _ => ⟨rfl, rfl, rfl⟩
  noTree := by simp [running, coded, built]
  codes := fun _ => coded_codes f
  running := by simp [running, coded, built, loaded, State.reset]
  lastOpc := by simp [running]

/-! ### One step of each command (spec/95_test_vectors.md) -/

/-- V-T1. -/
theorem test_buildTree_abra :
    view (exec .buildTree (running (loaded abra) [] .buildTree 0 0 0 0)) (fun t => (statusWord t, t.res0, t.res1, t.root)) =
      some (0x1006#32, 5#32, 9#32, 8#9) := by decide

/-- V-T1: the node list. -/
theorem test_buildTree_nodes :
    (buildTree abra).nodes =
      [.leaf 0x61 5, .leaf 0x62 2, .leaf 0x63 1, .leaf 0x64 1, .leaf 0x72 2, .internal 2 2 3, .internal 4 1 4,
        .internal 6 5 6, .internal 11 0 7] := by decide

/-- V-C1. -/
theorem test_genCodes_abra :
    view (exec .genCodes (running (built abra) [] .genCodes 0 0 0 0))
      (fun t => (statusWord t, t.res0 ++ t.res1, [0x61, 0x62, 0x63, 0x64, 0x72, 0x7A].map (codeOf t.codes))) =
      some (0x200E#32, 5#32 ++ 3#32, (abraCodes.map fun x => some x.2) ++ [none]) := by
  decide +kernel

/-- V-C11. -/
theorem test_genCodes_not_ready :
    view (exec .genCodes (running (loaded abra) [] .genCodes 0 0 0 0)) statusWord = some 0x2202#32 := by decide

/-- V-E1. -/
theorem test_encode_abra :
    view (exec .encode (running (coded abra) (bytesAt 0 abraText) .encode 0 11 0x100 16))
      (fun t => (statusWord t, t.res0, t.res1, t.mem.drop 11)) =
      some (0x300E#32, 3#32, 23#32, bytesAt 0x100 [0x6E, 0x8A, 0xDC]) := by decide

/-- V-E3: the symbol whose code crosses bit 16 is at index 8. -/
theorem test_encode_overflow :
    view (exec .encode (running (coded abra) (bytesAt 0 abraText) .encode 0 11 0x100 2))
      (fun t => (statusWord t, t.errInfo, t.res0)) = some (0x340E#32, 8#32, 0#32) := by decide

/-- V-D1. -/
theorem test_decode_abra :
    view (exec .decode (running (built abra) (bytesAt 0x100 [0x6E, 0x8A, 0xDC]) .decode 0x100 23 0x200 64))
      (fun t => (statusWord t, t.res0, t.res1, Memory.readMany t.mem 0x200 11)) =
      some (0x4006#32, 11#32, 23#32, .ok abraText) := by decide

/-- V-D4: the walk ends inside the code of r. -/
theorem test_decode_truncated :
    view (exec .decode (running (built abra) (bytesAt 0x100 [0x6E, 0x8A, 0xDC]) .decode 0x100 21 0x200 64))
      (fun t => (statusWord t, t.errInfo)) = some (0x4606#32, 21#32) := by decide

/-- V-S1. -/
theorem test_serialize_abra :
    view (exec .serialize (running (loaded abra) (bytesAt 0x100 [0x6E, 0x8A, 0xDC]) .serialize 0x100 23 0x200 64))
      (fun t => (statusWord t, t.res0, t.res1, Memory.readMany t.mem 0x200 34)) =
      some (0x5002#32, 34#32, 23#32, .ok abraContainer) := by decide

/-- V-S8: the overflow position is the size T. -/
theorem test_serialize_overflow :
    view (exec .serialize (running (loaded abra) (bytesAt 0x100 [0x6E, 0x8A, 0xDC]) .serialize 0x100 23 0x200 33))
      (fun t => (statusWord t, t.errInfo)) = some (0x5402#32, 34#32) := by decide

/-- V-S2. -/
theorem test_deserialize_abra :
    view (exec .deserialize (running (loaded (freqFrom [(0x7A, 9)])) (bytesAt 0 abraContainer) .deserialize 0 34 0x100 64))
      (fun t => (statusWord t, t.res0, [0x61, 0x62, 0x63, 0x64, 0x72, 0x7A].map (freqOf t.freq),
        Memory.readMany t.mem 0x100 3)) =
      some (0x6002#32, 3#32, [5, 2, 1, 1, 2, 0], .ok [0x6E, 0x8A, 0xDC]) := by decide

/-- V-S3: a truncated container, and FREQ kept. -/
theorem test_deserialize_truncated :
    view (exec .deserialize (running (loaded (freqFrom [(0x7A, 9)])) (bytesAt 0 abraContainer) .deserialize 0 33 0x100 64))
      (fun t => (statusWord t, t.errInfo, freqOf t.freq 0x7A)) = some (0x6602#32, 27#32, 9#32) := by decide

/-! ### The host port and reset (V-H1 to V-H13) -/

/-- V-H1. -/
theorem test_reset_reads :
    [0x000, 0x004, 0x010, 0x034, 0x00C, 0x014].map
        (fun off => view (step (facing State.reset (HostProgram.rd off))) dataOf) =
      [some (some 0x48554646#32), some (some 0x01FFFF10#32), some (some 0#32), some (some 0x1FF#32), some (some 0#32),
        some (some 0#32)] := by decide

/-- V-T1's window reads of NODE[0] and NODE[8], and of NODE[9], which is no valid entry. -/
theorem test_node_window :
    [0x4000, 0x4004, 0x4008, 0x400C, 0x4080, 0x4084, 0x408C, 0x4090].map
        (fun off => view (step (facing (built abra) (HostProgram.rd off))) dataOf) =
      [some (some 0x00006103#32), some (some 5#32), some (some 0#32), some (some 0x01FF01FF#32), some (some 1#32),
        some (some 0xB#32), some (some 0x00070000#32), some (some 0#32)] := by decide

/-- V-C1's window reads. -/
theorem test_code_windows :
    [0x984, 0x988, 0x800, 0x2C20, 0x2C40, 0x2C60, 0x2C80, 0x2E40, 0x2C44].map
        (fun off => view (step (facing (coded abra) (HostProgram.rd off))) dataOf) =
      [some (some 0x101#32), some (some 0x301#32), some (some 0#32), some (some 0#32), some (some 0xC0000000#32),
        some (some 0x80000000#32), some (some 0xA0000000#32), some (some 0xE0000000#32), some (some 0#32)] := by decide

/-- V-H3, V-H4: a reserved word fails with BAD_COMMAND. -/
theorem test_reserved_words :
    view (engineStep (issue 7#32 (built abra))) statusWord = some 0x7106#32 ∧
    view (engineStep (issue 0x11#32 (coded abra))) statusWord = some 0x110E#32 := by decide

/-- V-H8: a write of the same count clears the tree. -/
theorem test_freq_write :
    view (step (facing (coded abra) (HostProgram.setFreq 0x61 5))) (fun t => (statusWord t, t.nleaf, t.root)) =
      some (0#32, 0#9, 0x1FF#9) := by decide

/-- V-H10: the destination range becomes draws, other bytes stay. -/
theorem test_soft_reset :
    view (step (facing (running (coded abra) (bytesAt 0xFF [7]) .encode 0 11 0x100 16) (HostProgram.wr 0x00C 2)))
      (fun t => (statusWord t, t.irqEn, t.mem.length, Memory.read t.mem 0xFF, Memory.read t.mem 0x110)) =
      some (0#32, false, 17, some 7, none) := by decide

/-- V-H11. -/
theorem test_error_responses :
    view (step (facing State.reset (.read 0x002 .bits32))) (fun t => t.response) = some (some ⟨.error, some 0#32⟩) ∧
    view (step (facing State.reset (.write 0x038 .bits32 1))) (fun t => t.response) = some (some ⟨.error, none⟩) ∧
    view (step (facing State.reset (.read 0x010 .bits8))) (fun t => t.response) = some (some ⟨.error, some 0#32⟩) := by
  decide

/-- V-H13. -/
theorem test_mem_window :
    view (step (facing State.reset (.write 0x10008 .bits32 0x44332211))) (fun t => t.mem) =
      some [(8, 0x11#8), (9, 0x22#8), (10, 0x33#8), (11, 0x44#8)] := by decide

/-- V-H6, V-H7: a conflicting access sets HOST_CONFLICT, and a STATUS write of 0x12 clears it with DONE. -/
theorem test_conflict :
    view (step (facing (running (coded abra) [] .encode 0 11 0x100 16) (HostProgram.wb 0 1))) statusWord = some 0x301D#32 ∧
    view (step (facing { coded abra with done := true, hostConflict := true, lastOpc := 3#4 } (HostProgram.wr 0x010 0x12)))
      statusWord = some 0x300C#32 := by decide

/-- The interface of the host: a word placed with `withFetchWord` runs at the next step. -/
theorem test_withFetchWord :
    view (step (State.reset.withFetchWord 32 1)) statusWord = some 0x1006#32 := by decide

/-! ### Witnesses: every statement's hypotheses are met, each clause at values of its range -/

/-- ENCODE of "abracadabra" with room (V-E1), and the other commands of the worked example. -/
def encoding : State := running (coded abra) (bytesAt 0 abraText) .encode 0 11 0x100 16

def decoding : State := running (coded abra) (bytesAt 0x100 [0x6E, 0x8A, 0xDC]) .decode 0x100 23 0x200 64

def serializing : State := running (coded abra) (bytesAt 0x100 [0x6E, 0x8A, 0xDC]) .serialize 0x100 23 0x200 64

def deserializing : State := running (coded abra) (bytesAt 0 abraContainer) .deserialize 0 34 0x100 16

theorem encoding_inv : encoding.Inv := coded_inv abra (by decide) (by decide) _ _ _ _ _

theorem decoding_inv : decoding.Inv := coded_inv abra (by decide) (by decide) _ _ _ _ _

theorem witness_EachCommandHasExactlyItsWord :
    (∃ w : Word, w.toNat / 16 ≠ 0) ∧ (∃ w : Word, w.toNat / 16 = 0 ∧ w.toNat % 16 = 0) ∧
    ∃ w : Word, w.toNat / 16 = 0 ∧ 6 < w.toNat % 16 :=
  ⟨⟨0x10, by decide⟩, ⟨0, by decide⟩, ⟨7, by decide⟩⟩

theorem witness_StepRunsLatchedCommand :
    (∃ (s : State) (l : Latch) (i : Instr), s.hostQueue = [] ∧ s.latch = some l ∧ Sys2Proof.decode l.word = .ok i) ∧
    (∃ (s : State) (l : Latch) (i : Instr), s.hostQueue.head? = some .engineTurn ∧ s.latch = some l ∧
      Sys2Proof.decode l.word = .ok i) ∧
    (∃ (s : State) (es : List HostEvent), s.hostQueue = .engineTurn :: es ∧ s.latch = none) ∧
    ∃ s : State, s.hostQueue = [] ∧ s.latch = none :=
  ⟨⟨encoding, latchOf .encode 0 11 0x100 16, .encode, rfl, rfl, rfl⟩,
    ⟨facing decoding .engineTurn, latchOf .decode 0x100 23 0x200 64, .decode, rfl, rfl, rfl⟩,
    ⟨facing (coded abra) .engineTurn, [], rfl, rfl⟩, ⟨coded abra, rfl, rfl⟩⟩

theorem witness_CmdWriteIssuesWhileIdle :
    (∃ (s : State) (es : List HostEvent) (w : _), s.hostQueue = .write 0x00008#17 .bits32 w :: es ∧ s.latch = none) ∧
    ∃ (s : State) (es : List HostEvent) (w : _) (l : Latch), s.hostQueue = .write 0x00008#17 .bits32 w :: es ∧
      s.latch = some l :=
  ⟨⟨facing State.reset (.write 8 .bits32 3), [], 3, rfl, rfl⟩,
    ⟨facing encoding (.write 8 .bits32 1), [], 1, latchOf .encode 0 11 0x100 16, rfl, rfl⟩⟩

theorem witness_ReservedWordFailsWithBadCommand :
    (∃ (s : State) (es : List HostEvent), ∃ w : Word, s.hostQueue = .write 0x00008#17 .bits32 w :: .engineTurn :: es ∧
      s.latch = none ∧
      w.toNat / 16 ≠ 0) ∧
    (∃ (s : State) (es : List HostEvent), ∃ w : Word, s.hostQueue = .write 0x00008#17 .bits32 w :: .engineTurn :: es ∧
      s.latch = none ∧
      w.toNat % 16 = 0) ∧
    ∃ (s : State) (es : List HostEvent), ∃ w : Word, s.hostQueue = .write 0x00008#17 .bits32 w :: .engineTurn :: es ∧
      s.latch = none ∧
      6 < w.toNat % 16 :=
  ⟨⟨{ State.reset with hostQueue := [.write 8 .bits32 0x11, .engineTurn] }, [], 0x11, rfl, rfl, by decide⟩,
    ⟨{ State.reset with hostQueue := [.write 8 .bits32 0, .engineTurn] }, [], 0, rfl, rfl, by decide⟩,
    ⟨{ State.reset with hostQueue := [.write 8 .bits32 7, .engineTurn] }, [], 7, rfl, rfl, by decide⟩⟩

/-- One success and one failure. -/
theorem witness_EngineStepEndsTheCommand :
    (∃ (s : State) (t : State) (l : Latch), s.latch = some l ∧ engineStep s = .next t ∧ t.err = .ok) ∧
    ∃ (s : State) (t : State) (l : Latch), s.latch = some l ∧ engineStep s = .next t ∧ t.err ≠ .ok := by
  obtain ⟨t, ht, he⟩ := next_of_view (o := engineStep encoding) (f := State.err) (v := .ok) (by decide +kernel)
  obtain ⟨u, hu, hf⟩ := next_of_view (o := engineStep (running State.reset [] .encode 0 0 0 0)) (f := State.err)
    (v := .notReady) (by decide +kernel)
  exact ⟨⟨_, t, _, rfl, ht, he⟩, ⟨_, u, _, rfl, hu, by rw [hf]; decide⟩⟩

theorem witness_EveryCommandEndsWithinTheQueue :
    ∃ s t : State, s.hostQueue ≠ [] ∧ Sys2Proof.core.run (s.hostQueue.length + 1) s = .next t :=
  ⟨facing State.reset .engineTurn, _, by decide, rfl⟩

theorem witness_IrqFollowsDoneAndEnable :
    (∃ (s : State) (t : State) (l : Latch), s.latch = some l ∧ engineStep s = .next t) ∧
    ∃ (s : State) (t : State) (es : List HostEvent), ∃ d : Word, s.hostQueue = .write 0x0000C#17 .bits32 d :: es ∧
      d.getLsbD 0 = true ∧ d.getLsbD 1 = false ∧
      s.done = true ∧ step s = .next t := by
  obtain ⟨t, ht, _⟩ := next_of_view (o := engineStep encoding) (f := State.err) (v := .ok) (by decide +kernel)
  exact ⟨⟨_, t, _, rfl, ht⟩,
    ⟨facing { State.reset with done := true } (.write 0xC .bits32 1), _, [], 1, rfl, rfl, rfl, rfl, rfl⟩⟩

/-- A read of STATUS while BUSY = 0 and one while BUSY = 1. -/
theorem witness_StatusWordLayout :
    (∃ (s : State) (es : List HostEvent), s.hostQueue = .read 0x00010#17 .bits32 :: es ∧ s.busy = false) ∧
    ∃ (s : State) (es : List HostEvent), s.hostQueue = .read 0x00010#17 .bits32 :: es ∧ s.busy = true :=
  ⟨⟨facing (coded abra) (.read 0x10 .bits32), [], rfl, rfl⟩, ⟨facing encoding (.read 0x10 .bits32), [], rfl, rfl⟩⟩

theorem witness_StatusWriteClearsOnes : ∃ (s : State) (es : List HostEvent),
  ∃ d : Word, s.hostQueue = .write 0x00010#17 .bits32 d :: es :=
  ⟨facing encoding (.write 0x10 .bits32 0x12), [], 0x12, rfl⟩

theorem witness_CtrlWriteAndRead :
    (∃ (s : State) (es : List HostEvent), ∃ d : Word, s.hostQueue = .write 0x0000C#17 .bits32 d :: es ∧
      d.getLsbD 1 = false) ∧
    (∃ (s : State) (es : List HostEvent), ∃ d : Word, s.hostQueue = .write 0x0000C#17 .bits32 d :: es ∧
      d.getLsbD 1 = true) ∧
    ∃ (s : State) (es : List HostEvent), s.hostQueue = .read 0x0000C#17 .bits32 :: es :=
  ⟨⟨facing encoding (.write 0xC .bits32 1), [], 1, rfl, rfl⟩, ⟨facing encoding (.write 0xC .bits32 3), [], 3, rfl, rfl⟩,
    ⟨facing encoding (.read 0xC .bits32), [], rfl⟩⟩

/-- One clause for each of the registers 0x014, 0x018, 0x01C and 0x020. -/
theorem witness_ArgumentRegistersReadBack (off : HostOffset) (v : Word) :
    (∃ (s : State) (es : List HostEvent), s.hostQueue = .write off .bits32 v :: es) ∧
      ∃ (s : State) (es : List HostEvent), s.hostQueue = .read off .bits32 :: es :=
  ⟨⟨facing encoding (.write off .bits32 v), [], rfl⟩, ⟨facing encoding (.read off .bits32), [], rfl⟩⟩

/-- The read-only registers and windows at the ends of their ranges. -/
theorem witness_ReadOnlyRegisters :
    (∀ off : HostOffset, ∃ (s : State) (es : List HostEvent), s.hostQueue = .read off .bits32 :: es) ∧
    ∀ off : HostOffset, off ∈ [0x0, 0x4, 0x24, 0x34, 0x800, 0xBFC, 0x2000, 0x5FEC] →
      ∃ (s : State) (es : List HostEvent) (d : Word), s.hostQueue = .write off .bits32 d :: es ∧ off.toNat % 4 = 0 ∧
        (off.toNat < 0x08 ∨ (0x24 ≤ off.toNat ∧ off.toNat < 0x38) ∨
          (s.latch = none ∧ 0x800 ≤ off.toNat ∧ off.toNat < 0xC00) ∨
          (s.latch = none ∧ 0x2000 ≤ off.toNat ∧ off.toNat < 0x5FF0)) := by
  have h : (([0x0, 0x4, 0x24, 0x34, 0x800, 0xBFC, 0x2000, 0x5FEC] : List HostOffset).all fun off =>
      decide (off.toNat % 4 = 0 ∧
        (off.toNat < 0x08 ∨ (0x24 ≤ off.toNat ∧ off.toNat < 0x38) ∨ (0x800 ≤ off.toNat ∧ off.toNat < 0xC00) ∨
          (0x2000 ≤ off.toNat ∧ off.toNat < 0x5FF0)))) = true := by decide
  refine ⟨fun off => ⟨facing encoding (.read off .bits32), [], rfl⟩, fun off ho => ?_⟩
  obtain ⟨h4, hr⟩ := of_decide_eq_true (List.all_eq_true.1 h off ho)
  exact ⟨facing State.reset (.write off .bits32 5), [], 5, rfl, h4, hr.imp_right (Or.imp_right
    (Or.imp (fun x => ⟨rfl, x⟩) (fun x => ⟨rfl, x⟩)))⟩

/-- Accepted and not accepted transactions at the ends of the ranges of the register map, for the smallest MEM. -/
theorem witness_UnacceptedTransactionsHaveNoEffect :
    ([0x0, 0x34, 0x400, 0xBFC, 0x2000, 0x5FEC, 0x10000, 0x10FFC].all
      fun off => decide (Accepted .bytes4096 off .bits32)) = true ∧
    ([0x38, 0x3FC, 0xC00, 0x1FFC, 0x5FF0, 0xFFFC, 0x11000, 0x1FFFC, 0x2, 0x10FFE].all
      fun off => decide (¬ Accepted .bytes4096 off .bits32)) = true ∧
    Accepted .bytes4096 0x10FFF .bits8 ∧ Accepted .bytes4096 0x10FFE .bits16 ∧ ¬ Accepted .bytes4096 0x10FFF .bits16 ∧
    ¬ Accepted .bytes4096 0x10 .bits8 ∧ Accepted .bytes65536 0x1FFFC .bits32 := by decide

theorem witness_ConflictingAccessOnlySetsConflict :
    (∃ (s : State) (es : List HostEvent), ∃ off : HostOffset, ∃ (sz : AccessSize) (d : Word) (l : Latch),
      s.latch = some l ∧ InWindow off.toNat ∧ Accepted s.memSize off.toNat sz ∧
      s.hostQueue = .write off sz d :: es) ∧
    ∃ (s : State) (es : List HostEvent), ∃ off : HostOffset, ∃ (sz : AccessSize) (l : Latch), s.latch = some l ∧
      InWindow off.toNat ∧ Accepted s.memSize off.toNat sz ∧
      s.hostQueue = .read off sz :: es :=
  ⟨⟨facing encoding (.write 0x400 .bits32 1), [], 0x400, .bits32, 1, latchOf .encode 0 11 0x100 16, rfl, by decide,
      by decide, rfl⟩,
    ⟨facing encoding (.read 0x1FFFF .bits8), [], 0x1FFFF, .bits8, latchOf .encode 0 11 0x100 16, rfl, by decide, by decide,
      rfl⟩⟩

/-- A command that succeeds, one that fails after its checks (V-E3), one that fails a check (NOT_READY), and one that
stops at an unwritten byte. -/
theorem witness_ConflictDoesNotDisturbTheCommand :
    (∃ (i : Instr) (s : State) (t : State), exec i s = .next t ∧ t.err = .ok) ∧
    (∃ (i : Instr) (s : State) (t : State) (l : Latch), s.latch = some l ∧ exec i s = .next t ∧ t.err = .outputOverflow) ∧
    (∃ (i : Instr) (s : State) (t : State) (l : Latch), s.latch = some l ∧ exec i s = .next t ∧ t.err = .notReady) ∧
    ∃ (i : Instr) (s : State) (f : Fault), exec i s = .fault f := by
  obtain ⟨t, ht, he⟩ := next_of_view (o := exec .encode encoding) (f := State.err) (v := .ok) (by decide +kernel)
  obtain ⟨u, hu, hf⟩ := next_of_view (o := exec .encode (running (coded abra) (bytesAt 0 abraText) .encode 0 11 0x100 2))
    (f := State.err) (v := .outputOverflow) (by decide +kernel)
  obtain ⟨v, hv, hg⟩ := next_of_view (o := exec .encode (running State.reset [] .encode 0 0 0 0)) (f := State.err)
    (v := .notReady) (by decide +kernel)
  have stops : exec .encode (running (coded abra) [] .encode 0 1 0x100 16) = .fault (.unwrittenRead 0) := rfl
  exact ⟨⟨_, _, t, ht, he⟩, ⟨_, _, u, _, rfl, hu, hf⟩, ⟨_, _, v, _, rfl, hv, hg⟩, ⟨_, _, _, stops⟩⟩

theorem witness_ReadsHaveNoSideEffect :
    (∃ (s : State) (t : State) (es : List HostEvent), ∃ off : HostOffset, ∃ (sz : AccessSize),
      s.hostQueue = .read off sz :: es ∧ s.latch = none ∧ step s = .next t) ∧
    ∃ (s : State) (t : State) (es : List HostEvent), ∃ off : HostOffset, ∃ (sz : AccessSize),
      s.hostQueue = .read off sz :: es ∧ off.toNat < 0x400 ∧ step s = .next t :=
  ⟨⟨facing State.reset (.read 0x400 .bits32), _, [], 0x400, .bits32, rfl, rfl, rfl⟩,
    ⟨facing encoding (.read 0x34 .bits32), _, [], 0x34, .bits32, rfl, by decide, rfl⟩⟩

/-- The last bytes of MEM, written and read. -/
theorem witness_MemWindowIsLittleEndian :
    (∃ (s : State) (es : List HostEvent), ∃ off : HostOffset, ∃ (sz : AccessSize) (d : Word) (a : _),
      off.toNat = 0x10000 + a ∧ s.latch = none ∧ a % sz.bytes = 0 ∧
      a + sz.bytes ≤ Config.memBytes s.memSize ∧ s.hostQueue = .write off sz d :: es) ∧
    ∃ (s : State) (es : List HostEvent), ∃ off : HostOffset, ∃ (sz : AccessSize) (a : _),
      ∃ bs : List Byte, off.toNat = 0x10000 + a ∧ s.latch = none ∧ a % sz.bytes = 0 ∧
      a + sz.bytes ≤ Config.memBytes s.memSize ∧ s.hostQueue = .read off sz :: es ∧ bs.length = sz.bytes ∧
      HoldsBytes s.mem a bs :=
  ⟨⟨facing State.reset (.write 0x1FFFC .bits32 7), [], 0x1FFFC, .bits32, 7, 0xFFFC, by decide, rfl, by decide, by decide,
      rfl⟩,
    ⟨facing { State.reset with mem := bytesAt 0xFFFE [1, 2] } (.read 0x1FFFE .bits16), [], 0x1FFFE, .bits16, 0xFFFE, [1, 2],
      by decide, rfl, by decide, by decide, rfl, rfl, by decide⟩⟩

theorem witness_FreqWriteClearsTheTree :
    (∃ (s : State) (es : List HostEvent), ∃ y : Byte, ∃ v, s.latch = none ∧
      s.hostQueue = HostProgram.setFreq y v :: es) ∧
    ∃ (s : State) (es : List HostEvent), ∃ y : Byte, s.latch = none ∧
      s.hostQueue = HostProgram.rd (0x400 + 4 * y.toNat) :: es :=
  ⟨⟨facing (coded abra) (HostProgram.setFreq 0xFF 1), [], 0xFF, 1, rfl, rfl⟩,
    ⟨facing (coded abra) (HostProgram.rd (0x400 + 4 * 0xFF)), [], 0xFF, rfl, rfl⟩⟩

theorem witness_CodeWindows :
    (∃ (s : State) (es : List HostEvent), ∃ y : Byte, ∃ p, s.latch = none ∧
      s.hostQueue = HostProgram.rd (0x800 + 4 * y.toNat) :: es ∧
      s.codesValid = true ∧ codeOf s.codes y = some p) ∧
    (∃ (s : State) (es : List HostEvent), ∃ y : Byte, s.latch = none ∧
      s.hostQueue = HostProgram.rd (0x800 + 4 * y.toNat) :: es ∧
      codeOf s.codes y = none) ∧
    (∃ (s : State) (es : List HostEvent), ∃ y : Byte, ∃ k p, k < 8 ∧ s.latch = none ∧
      s.hostQueue = HostProgram.rd (0x2000 + 32 * y.toNat + 4 * k) :: es ∧ s.codesValid = true ∧
      codeOf s.codes y = some p) ∧
    ∃ (s : State) (es : List HostEvent), ∃ y : Byte, ∃ k, k < 8 ∧ s.latch = none ∧
      s.hostQueue = HostProgram.rd (0x2000 + 32 * y.toNat + 4 * k) :: es ∧ s.codesValid = false :=
  ⟨⟨facing (coded abra) (HostProgram.rd (0x800 + 4 * 0x62)), [], 0x62, [true, true, false], rfl, rfl, rfl,
      by decide +kernel⟩,
    ⟨facing (coded abra) (HostProgram.rd (0x800 + 4 * 0xFF)), [], 0xFF, rfl, rfl, by decide +kernel⟩,
    ⟨facing (coded abra) (HostProgram.rd (0x2000 + 32 * 0x62)), [], 0x62, 0, [true, true, false], by decide, rfl, rfl, rfl,
      by decide +kernel⟩,
    ⟨facing (built abra) (HostProgram.rd (0x2000 + 32 * 0xFF + 4 * 7)), [], 0xFF, 7, by decide, rfl, rfl, rfl⟩⟩

/-- The first valid entry of the worked example's tree (V-T1), a leaf, the last, its root, and the first that is not
valid. -/
theorem witness_NodeWindow :
    (∃ (s : State) (es : List HostEvent) (i : _) (w : _), s.Inv ∧ i < 511 ∧ w < 4 ∧ s.latch = none ∧
      s.hostQueue = HostProgram.rd (0x4000 + 16 * i + 4 * w) :: es ∧ s.treeValid = true ∧
      i < (if s.nleaf.toNat = 0 then 0 else 2 * s.nleaf.toNat - 1) ∧ s.nodes[i]? = some (.leaf 0x61 5)) ∧
    (∃ (s : State) (es : List HostEvent) (i : _) (w : _), s.Inv ∧ i < 511 ∧ w < 4 ∧ s.latch = none ∧
      s.hostQueue = HostProgram.rd (0x4000 + 16 * i + 4 * w) :: es ∧ s.treeValid = true ∧
      i < (if s.nleaf.toNat = 0 then 0 else 2 * s.nleaf.toNat - 1) ∧ s.nodes[i]? = some (.internal 11 0 7)) ∧
    ∃ (s : State) (es : List HostEvent) (i : _) (w : _), s.Inv ∧ i < 511 ∧ w < 4 ∧ s.latch = none ∧
      s.hostQueue = HostProgram.rd (0x4000 + 16 * i + 4 * w) :: es ∧
      (if s.nleaf.toNat = 0 then 0 else 2 * s.nleaf.toNat - 1) ≤ i := by
  have inv : ∀ e, (facing (built abra) e).Inv := fun e =>
    ⟨List.Pairwise.nil, List.forall_mem_nil _, fun _ => ⟨rfl, rfl, rfl⟩, fun h => by simp [facing, built] at h, fun h => by
      simp [facing, built, loaded, State.reset] at h, fun h => by simp [facing, built, loaded, State.reset, State.busy] at h,
      fun l h => by simp [facing, built, loaded, State.reset] at h⟩
  exact ⟨⟨_, [], 0, 0, inv (HostProgram.rd (0x4000 + 16 * 0 + 4 * 0)), by decide, by decide, rfl, rfl, rfl, by decide,
      by decide +kernel⟩,
    ⟨_, [], 8, 3, inv (HostProgram.rd (0x4000 + 16 * 8 + 4 * 3)), by decide, by decide, rfl, rfl, rfl, by decide,
      by decide +kernel⟩,
    ⟨_, [], 9, 0, inv (HostProgram.rd (0x4000 + 16 * 9 + 4 * 0)), by decide, by decide, rfl, rfl, by decide⟩⟩

/-- The writes of CodeWindows and NodeWindow, at the ends of the windows. -/
theorem witness_WindowWrites (d : Word) :
    (∃ (s : State) (es : List HostEvent) (y : Byte), s.latch = none ∧
      s.hostQueue = HostProgram.wr (0x800 + 4 * y.toNat) d :: es) ∧
    (∃ (s : State) (es : List HostEvent) (y : Byte) (k : Nat), s.latch = none ∧ k < 8 ∧
      s.hostQueue = HostProgram.wr (0x2000 + 32 * y.toNat + 4 * k) d :: es) ∧
    ∃ (s : State) (es : List HostEvent) (i : Nat) (w : Nat), s.latch = none ∧ i < 511 ∧ w < 4 ∧
      s.hostQueue = HostProgram.wr (0x4000 + 16 * i + 4 * w) d :: es :=
  ⟨⟨facing (coded abra) (HostProgram.wr (0x800 + 4 * 0xFF) d), [], 0xFF, rfl, rfl⟩,
    ⟨facing (coded abra) (HostProgram.wr (0x2000 + 32 * 0xFF + 4 * 7) d), [], 0xFF, 7, rfl, by decide, rfl⟩,
    ⟨facing (coded abra) (HostProgram.wr (0x4000 + 16 * 510 + 4 * 3) d), [], 510, 3, rfl, by decide, by decide, rfl⟩⟩

theorem witness_HardwareReset : ∃ (s : State) (es : List HostEvent),
  s.hostQueue = .hardwareReset :: es := ⟨facing encoding .hardwareReset, [], rfl⟩

/-- No command running, a reserved word, a command with no range, and the commands 3 and 6. -/
theorem witness_SoftResetKeepsMemory :
    (∃ (s : State) (es : List HostEvent), ∃ d : Word, s.hostQueue = .write 0x0000C#17 .bits32 d :: es ∧
      d.getLsbD 1 = true ∧ s.latch = none) ∧
    (∃ (s : State) (es : List HostEvent), ∃ d : Word, ∃ (l : Latch), s.hostQueue = .write 0x0000C#17 .bits32 d :: es ∧
      d.getLsbD 1 = true ∧ s.latch = some l ∧
      ¬ (3 ≤ l.word.toNat ∧ l.word.toNat ≤ 6)) ∧
    ∃ (s : State) (es : List HostEvent), ∃ d : Word, ∃ (l : Latch), s.hostQueue = .write 0x0000C#17 .bits32 d :: es ∧
      d.getLsbD 1 = true ∧ s.latch = some l ∧
      3 ≤ l.word.toNat ∧ l.word.toNat ≤ 6 :=
  ⟨⟨facing State.reset (.write 0xC .bits32 2), [], 2, rfl, rfl, rfl⟩,
    ⟨facing (issue 7 State.reset) (.write 0xC .bits32 2), [], 2, ⟨7, 0, 0, 0, 0⟩, rfl, rfl, rfl, by decide⟩,
    ⟨facing encoding (.write 0xC .bits32 2), [], 2, latchOf .encode 0 11 0x100 16, rfl, rfl, rfl, by decide, by decide⟩⟩

theorem witness_NotReadyCommandsFail :
    (∃ (s : State) (l : Latch), s.latch = some l ∧ s.treeValid = false ∧ s.codesValid = false) ∧
    ∃ (s : State) (l : Latch) (i : Instr) (t : State), s.latch = some l ∧ exec i s = .next t ∧ t.err = .notReady := by
  obtain ⟨t, ht, he⟩ := next_of_view (o := exec .decode (running (loaded abra) [] .decode 0 0 0 0)) (f := State.err)
    (v := .notReady) (by decide +kernel)
  exact ⟨⟨running (loaded abra) [] .decode 0 0 0 0, latchOf .decode 0 0 0 0, rfl, rfl, rfl⟩,
    ⟨_, latchOf .decode 0 0 0 0, _, t, rfl, ht, he⟩⟩

/-- V-E9, V-D15 and V-X16 (overlap), V-E10 (past the end of MEM), and V-E11 (an empty range at any address is valid). -/
theorem witness_InvalidRangesFail :
    (∃ (s : State) (l : Latch), s.latch = some l ∧ s.codesValid = true ∧
      ¬ RangesOk (Config.memBytes s.memSize) l.a0.toNat l.a1.toNat l.a2.toNat l.a3.toNat) ∧
    (∃ (s : State) (l : Latch), s.latch = some l ∧ s.treeValid = true ∧
      ¬ RangesOk (Config.memBytes s.memSize) l.a0.toNat (bytesFor l.a1.toNat) l.a2.toNat l.a3.toNat) ∧
    (∃ (s : State) (l : Latch), s.latch = some l ∧
      ¬ RangesOk (Config.memBytes s.memSize) l.a0.toNat l.a1.toNat l.a2.toNat l.a3.toNat) ∧
    ∃ (s : State) (l : Latch) (t : State), s.latch = some l ∧ s.codesValid = true ∧
      RangesOk (Config.memBytes s.memSize) l.a0.toNat l.a1.toNat l.a2.toNat l.a3.toNat ∧ exec .encode s = .next t := by
  obtain ⟨t, ht, _⟩ := next_of_view (o := exec .encode (running (coded abra) [] .encode 0xFFFFFFFF 0 0x100 4))
    (f := State.err) (v := .ok) (by decide +kernel)
  exact ⟨⟨running (coded abra) [] .encode 0 11 0xFFFF 2, latchOf .encode 0 11 0xFFFF 2, rfl, rfl, by decide⟩,
    ⟨running (coded abra) [] .decode 0x100 23 0x102 4, latchOf .decode 0x100 23 0x102 4, rfl, rfl, by decide⟩,
    ⟨running (coded abra) [] .deserialize 0 34 0x10 64, latchOf .deserialize 0 34 0x10 64, rfl, by decide⟩,
    ⟨_, latchOf .encode 0xFFFFFFFF 0 0x100 4, t, rfl, rfl, by decide, ht⟩⟩

/-- One failure with code 2 and one with code 4. -/
theorem witness_FailureEffects :
    (∃ (s : State) (t : State) (l : Latch), s.latch = some l ∧ engineStep s = .next t ∧ t.err = .notReady) ∧
    ∃ (s : State) (t : State) (l : Latch), s.latch = some l ∧ engineStep s = .next t ∧ t.err = .outputOverflow := by
  obtain ⟨t, ht, he⟩ := next_of_view (o := engineStep (running State.reset [] .encode 0 0 0 0)) (f := State.err)
    (v := .notReady) (by decide +kernel)
  obtain ⟨u, hu, hf⟩ := next_of_view (o := engineStep (running (coded abra) (bytesAt 0 abraText) .encode 0 11 0x100 2))
    (f := State.err) (v := .outputOverflow) (by decide +kernel)
  exact ⟨⟨_, t, _, rfl, ht, he⟩, ⟨_, u, _, rfl, hu, hf⟩⟩

theorem witness_CommandWritesOnlyItsDestination : ∃ (i : Instr) (s : State) (t : State) (l : Latch),
  s.latch = some l ∧ exec i s = .next t := by
  obtain ⟨t, ht, _⟩ := next_of_view (o := exec .encode encoding) (f := State.err) (v := .ok) (by decide +kernel)
  exact ⟨_, _, t, latchOf .encode 0 11 0x100 16, rfl, ht⟩

/-- The other memory differs from the first outside the source range. -/
theorem witness_CommandReadsOnlyItsSource :
    ∃ (i : Instr) (s : State) (l : Latch) (m' : Memory), s.latch = some l ∧ m' ≠ s.mem ∧
      (∀ a, l.a0.toNat ≤ a →
        a < l.a0.toNat + (if i = .buildTree ∨ i = .genCodes then 0
          else if i = .decode ∨ i = .serialize then bytesFor l.a1.toNat else l.a1.toNat) →
        Memory.read m' a = Memory.read s.mem a) ∧
      ∃ (t : State), exec i s = .next t := by
  obtain ⟨t, ht, _⟩ := next_of_view (o := exec .encode encoding) (f := State.err) (v := .ok) (by decide +kernel)
  refine ⟨.encode, encoding, latchOf .encode 0 11 0x100 16, Memory.write encoding.mem 0x800 7, rfl, by decide, ?_, t, ht⟩
  intro a _ h
  have h' : a < 11 := h
  exact Memory.read_write_other _ _ (by omega)

theorem witness_BuildTreeCompletes : ∃ (s : State) (l : Latch), s.latch = some l :=
  ⟨running (loaded abra) [] .buildTree 0 0 0 0, latchOf .buildTree 0 0 0 0, rfl⟩

/-- Equal frequencies: the smaller index comes out. -/
theorem witness_ExtractionTakesTheLeastKey :
    ∃ q : List Key, q ≠ [] ∧ (q.map Key.idx).Nodup ∧ extractMin q = some (⟨2, 1⟩, [⟨2, 4⟩, ⟨2, 5⟩, ⟨5, 0⟩]) :=
  ⟨[⟨2, 4⟩, ⟨2, 5⟩, ⟨2, 1⟩, ⟨5, 0⟩], by decide, by decide, by decide⟩

theorem witness_EmptyAndSingleLeafTables :
    (∃ f, ∀ y, freqOf f y = 0#32) ∧ ∃ (f : FreqTable) (y : Byte), freqOf f y ≠ 0#32 ∧
      ∀ x, x ≠ y → freqOf f x = 0#32 := by
  refine ⟨⟨emptyFreq, freqOf_emptyFreq⟩, Machine.setFreq emptyFreq 0x61 4, 0x61, ?_, fun x hx => ?_⟩
  · simp [freqOf_setFreq]
  · rw [freqOf_setFreq, if_neg (fun h => hx h.symm), freqOf_emptyFreq]

/-- One present symbol and all 256. -/
theorem witness_BuildTreeShape :
    (∃ (f : FreqTable) (n : Nat), n = (presentSymbols f).length ∧ n = 1) ∧
    ∃ (f : FreqTable) (n : Nat), n = (presentSymbols f).length ∧ n = 256 :=
  ⟨⟨freqFrom [(0x61, 4)], 1, by rw [presentSymbols_length]; decide +kernel, rfl⟩,
    ⟨Vector.replicate 256 1#32, 256, by rw [presentSymbols_length]; decide +kernel, rfl⟩⟩

theorem witness_FrequencySumsAreExact :
    (∃ (f : FreqTable) (i : Nat) (y : Byte) (w : NodeFreq), (buildTree f).nodes[i]? = some (.leaf y w)) ∧
    (∃ (f : FreqTable) (i : Nat) (w : NodeFreq) (l : NodeIdx) (r : NodeIdx),
      (buildTree f).nodes[i]? = some (.internal w l r)) ∧
    ∃ (f : FreqTable) (nd : Node), (buildTree f).nodes[(buildTree f).root.toNat]? = some nd :=
  ⟨⟨abra, 4, 0x72, 2, by decide⟩, ⟨abra, 8, 11, 0, 7, by decide⟩, ⟨abra, .internal 11 0 7, by decide⟩⟩

theorem witness_LeftChildHasTheSmallerKey :
    (∃ i j : Key, i.idx < 512 ∧ j.idx < 512) ∧
    ∃ (f : FreqTable) (i : Nat) (w : NodeFreq) (l : NodeIdx) (r : NodeIdx),
      (buildTree f).nodes[i]? = some (.internal w l r) :=
  ⟨⟨⟨7, 511⟩, ⟨7, 510⟩, by decide, by decide⟩, ⟨abra, 5, 2, 2, 3, by decide⟩⟩

theorem witness_BuildTreeIsOptimal :
    ∃ (f : FreqTable) (c : CodeTable) (t : PrefixTree), 2 ≤ (presentSymbols f).length ∧
      genCodes (buildTree f).nodes (buildTree f).n (buildTree f).root = .ok c ∧ t.leaves.Perm (presentSymbols f) := by
  obtain ⟨c, hc⟩ := genCodes_buildTree_ok (freqFrom [(0x61, 7), (0x62, 3)])
  exact ⟨freqFrom [(0x61, 7), (0x62, 3)], c, .node (.leaf 0x62) (.leaf 0x61), by rw [presentSymbols_length]; decide +kernel, hc,
    by rw [presentSymbols_eq_map]; decide +kernel⟩

theorem witness_GenCodesCompletes :
    (∃ (s : State) (l : Latch), s.Inv ∧ s.latch = some l ∧ s.treeValid = true) ∧
    ∃ (s : State) (t : State), exec .genCodes s = .next t ∧ t.err = .ok := by
  obtain ⟨t, ht, he⟩ := next_of_view (o := exec .genCodes (running (built abra) [] .genCodes 0 0 0 0)) (f := State.err)
    (v := .ok) (by decide +kernel)
  exact ⟨⟨_, latchOf .genCodes 0 0 0 0, built_inv abra (m := []) (by decide) (by decide) .genCodes 0 0 0 0, rfl, rfl⟩,
    ⟨_, t, ht, he⟩⟩

/-- Also for CodeTableProperties: `y` and `p` are a code, `q` a path to a leaf. -/
theorem witness_CodesAreThePathsToTheLeaves :
    ∃ (f : FreqTable) (c : CodeTable) (y : Byte) (p : Bits) (w : NodeFreq), 2 ≤ (presentSymbols f).length ∧
      genCodes (buildTree f).nodes (buildTree f).n (buildTree f).root = .ok c ∧ codeOf c y = some p ∧
      followPath (buildTree f).nodes (buildTree f).root p = some (.leaf y w) := by
  refine ⟨abra, (coded abra).codes, 0x62, [true, true, false], 2,
    by rw [presentSymbols_length]; decide +kernel, coded_codes abra, ?_, ?_⟩ <;>
    decide +kernel

theorem witness_CodeTableProperties :
    ∃ (f : FreqTable) (c : CodeTable) (n : Nat) (x : Byte) (y : Byte) (p : Bits) (q : Bits) (w : NodeFreq),
      n = (presentSymbols f).length ∧ 2 ≤ n ∧
      genCodes (buildTree f).nodes (buildTree f).n (buildTree f).root = .ok c ∧ x ≠ y ∧ codeOf c x = some p ∧
      codeOf c y = some q ∧ followPath (buildTree f).nodes (buildTree f).root q = some (.leaf y w) := by
  refine ⟨abra, (coded abra).codes, 5, 0x61, 0x62, [false], [true, true, false], 2,
    by rw [presentSymbols_length]; decide +kernel, by decide,
    coded_codes abra, by decide, ?_, ?_, ?_⟩ <;> decide +kernel

theorem abraPairs_coded : Coded (coded abra).codes abraPairs := by decide +kernel

theorem encoding_holds : HoldsBytes encoding.mem 0 (abraPairs.map Prod.fst) := by decide +kernel

/-- V-E1, and V-E6 for the empty input. -/
theorem witness_EncodeCompletes :
    (∃ (s : State) (l : Latch) (xs : List (Byte × Bits)), s.latch = some l ∧ s.codesValid = true ∧
      RangesOk (Config.memBytes s.memSize) l.a0.toNat l.a1.toNat l.a2.toNat l.a3.toNat ∧ xs.length = l.a1.toNat ∧
      HoldsBytes s.mem l.a0.toNat (xs.map Prod.fst) ∧ Coded s.codes xs ∧
      bytesFor (xs.flatMap Prod.snd).length ≤ l.a3.toNat) ∧
    ∃ (s : State) (l : Latch), s.latch = some l ∧ s.codesValid = true ∧
      RangesOk (Config.memBytes s.memSize) l.a0.toNat l.a1.toNat l.a2.toNat l.a3.toNat ∧
      ([] : List (Byte × Bits)).length = l.a1.toNat :=
  ⟨⟨encoding, latchOf .encode 0 11 0x100 16, abraPairs, rfl, rfl, by decide, rfl, encoding_holds, abraPairs_coded,
      by decide⟩,
    ⟨running (coded emptyFreq) [] .encode 0 0 0 0, latchOf .encode 0 0 0 0, rfl, rfl, by decide, rfl⟩⟩

/-- V-E5 (z has no code), V-E3 (the code at index 8 crosses bit 16) and V-E8 (no room at all). -/
theorem witness_EncodeStopsAtTheFirstError :
    (∃ (s : State) (l : Latch) (xs : List (Byte × Bits)) (y : Byte), s.latch = some l ∧ s.codesValid = true ∧
      RangesOk (Config.memBytes s.memSize) l.a0.toNat l.a1.toNat l.a2.toNat l.a3.toNat ∧ xs.length < l.a1.toNat ∧
      HoldsBytes s.mem l.a0.toNat (xs.map Prod.fst ++ [y]) ∧ Coded s.codes xs ∧
      bytesFor (xs.flatMap Prod.snd).length ≤ l.a3.toNat ∧ codeOf s.codes y = none) ∧
    (∃ (s : State) (l : Latch) (xs : List (Byte × Bits)) (y : Byte) (q : Bits), s.latch = some l ∧ s.codesValid = true ∧
      RangesOk (Config.memBytes s.memSize) l.a0.toNat l.a1.toNat l.a2.toNat l.a3.toNat ∧ xs.length < l.a1.toNat ∧
      HoldsBytes s.mem l.a0.toNat (xs.map Prod.fst ++ [y]) ∧ Coded s.codes xs ∧
      bytesFor (xs.flatMap Prod.snd).length ≤ l.a3.toNat ∧ codeOf s.codes y = some q ∧
      l.a3.toNat < bytesFor (xs.flatMap Prod.snd ++ q).length) ∧
    ∃ (s : State) (l : Latch) (y : Byte) (q : Bits), s.latch = some l ∧ s.codesValid = true ∧ l.a3 = 0#32 ∧
      0 < l.a1.toNat ∧ HoldsBytes s.mem l.a0.toNat [y] ∧ codeOf s.codes y = some q ∧
      l.a3.toNat < bytesFor q.length := by
  refine ⟨⟨running (coded abra) (bytesAt 0 [0x61, 0x62, 0x7A]) .encode 0 3 0x100 16, latchOf .encode 0 3 0x100 16,
      [(0x61, [false]), (0x62, [true, true, false])], 0x7A, rfl, rfl, by decide, by decide, by decide, ?_, by decide, ?_⟩,
    ⟨running (coded abra) (bytesAt 0 abraText) .encode 0 11 0x100 2, latchOf .encode 0 11 0x100 2, abraPairs.take 8, 0x62,
      [true, true, false], rfl, rfl, by decide, by decide, by decide, ?_, by decide, ?_, by decide⟩,
    ⟨running (coded abra) (bytesAt 0 abraText) .encode 0 11 0x100 0, latchOf .encode 0 11 0x100 0, 0x61, [false], rfl, rfl,
      rfl, by decide, by decide, ?_, by decide⟩⟩ <;> decide +kernel

theorem empty_present (y : Byte) : freqOf (coded emptyFreq).freq y = 0#32 := freqOf_emptyFreq y

/-- V-T3, V-C3, V-E6, V-D12, V-S4 and V-X6. -/
theorem witness_EmptyInputSucceeds :
    ∃ (s : State) (l : Latch) (M : Nat), s.Inv ∧ s.latch = some l ∧ M = Config.memBytes s.memSize ∧
      (∀ y, freqOf s.freq y = 0#32) ∧ s.treeValid = true ∧ s.nleaf = 0#9 ∧ s.codesValid = true ∧
      InMem M l.a2.toNat l.a3.toNat ∧ 6 ≤ l.a3.toNat ∧
      (l.a1 = 0#32 ∨ (l.a1 = 6#32 ∧ RangesOk M l.a0.toNat 6 l.a2.toNat l.a3.toNat ∧
        HoldsBytes s.mem l.a0.toNat [0, 0, 0, 0, 0, 0])) :=
  ⟨running (coded emptyFreq) (bytesAt 0 [0, 0, 0, 0, 0, 0]) .deserialize 0 6 0x100 6, latchOf .deserialize 0 6 0x100 6, 65536,
    coded_inv emptyFreq (by decide) (by decide) _ _ _ _ _, rfl, rfl, empty_present, rfl, by decide, rfl, by decide, by decide,
    .inr ⟨rfl, by decide, by decide⟩⟩

/-- The payload bits of the worked example. -/
theorem abra_holdsBits : HoldsBits decoding.mem 0x100 (abraPairs.flatMap Prod.snd) := by decide +kernel

theorem witness_DecodeInvertsTheCodes :
    ∃ (s : State) (l : Latch) (c : CodeTable) (xs : List (Byte × Bits)), s.Inv ∧ s.latch = some l ∧ s.treeValid = true ∧
      genCodes s.nodes s.nleaf.toNat s.root = .ok c ∧ Coded c xs ∧
      RangesOk (Config.memBytes s.memSize) l.a0.toNat (bytesFor l.a1.toNat) l.a2.toNat l.a3.toNat ∧
      (xs.flatMap Prod.snd).length = l.a1.toNat ∧ HoldsBits s.mem l.a0.toNat (xs.flatMap Prod.snd) ∧
      xs.length ≤ l.a3.toNat :=
  ⟨decoding, latchOf .decode 0x100 23 0x200 64, (coded abra).codes, abraPairs, decoding_inv, rfl, rfl, coded_codes abra,
    abraPairs_coded, by decide, rfl, abra_holdsBits, by decide⟩

theorem witness_EncodeDecodeRoundTrip :
    ∃ (s : State) (t : State) (u : State) (l : Latch) (k : Latch) (xs : List Byte), s.Inv ∧ s.latch = some l ∧
      s.codesValid = true ∧ xs.length = l.a1.toNat ∧ HoldsBytes s.mem l.a0.toNat xs ∧ exec .encode s = .next t ∧
      t.err = .ok ∧ u.Inv ∧ u.latch = some k ∧ u.treeValid = true ∧ u.freq = s.freq ∧ k.a1 = t.res1 ∧
      (∀ j, j < t.res0.toNat → Memory.read u.mem (k.a0.toNat + j) = Memory.read t.mem (l.a2.toNat + j)) ∧
      RangesOk (Config.memBytes u.memSize) k.a0.toNat (bytesFor k.a1.toNat) k.a2.toNat k.a3.toNat ∧
      xs.length ≤ k.a3.toNat := by
  obtain ⟨t, ht, hv⟩ := next_of_view (o := exec .encode encoding)
    (f := fun t => (t.err, t.res0, t.res1, (List.range 3).map fun j => Memory.read t.mem (0x100 + j)))
    (v := (.ok, 3#32, 23#32, [some 0x6E, some 0x8A, some 0xDC])) (by decide +kernel)
  simp only [Prod.mk.injEq] at hv
  obtain ⟨he, h0, h1, hm⟩ := hv
  refine ⟨encoding, t, decoding, latchOf .encode 0 11 0x100 16, latchOf .decode 0x100 23 0x200 64, abraText, encoding_inv, rfl,
    rfl, rfl, by decide, ht, he, decoding_inv, rfl, rfl, rfl, h1.symm, ?_, by decide, by decide⟩
  intro j hj
  rw [h0] at hj
  have hr := congrArg (fun m => m[j]?) hm
  rcases j with _ | _ | _ | j
  · exact (Option.some.inj hr).symm
  · exact (Option.some.inj hr).symm
  · exact (Option.some.inj hr).symm
  · exact absurd hj (by simp)

/-- V-D12, V-D11, V-D8 and V-D9. -/
theorem witness_DecodeOfEmptyAndSingleLeafTrees :
    (∃ (s : State) (l : Latch), s.latch = some l ∧ s.treeValid = true ∧
      RangesOk (Config.memBytes s.memSize) l.a0.toNat (bytesFor l.a1.toNat) l.a2.toNat l.a3.toNat ∧ s.nleaf = 0#9 ∧
      l.a1 = 0#32) ∧
    (∃ (s : State) (l : Latch), s.latch = some l ∧ s.treeValid = true ∧
      RangesOk (Config.memBytes s.memSize) l.a0.toNat (bytesFor l.a1.toNat) l.a2.toNat l.a3.toNat ∧ s.nleaf = 0#9 ∧
      l.a1 ≠ 0#32) ∧
    (∃ (s : State) (l : Latch) (y : Byte) (w : NodeFreq), s.latch = some l ∧ s.treeValid = true ∧
      RangesOk (Config.memBytes s.memSize) l.a0.toNat (bytesFor l.a1.toNat) l.a2.toNat l.a3.toNat ∧ s.nleaf = 1#9 ∧
      s.nodes[s.root.toNat]? = some (.leaf y w) ∧ HoldsBits s.mem l.a0.toNat (List.replicate l.a1.toNat false) ∧
      l.a1.toNat ≤ l.a3.toNat) ∧
    ∃ (s : State) (l : Latch) (y : Byte) (w : NodeFreq) (j : Nat), s.latch = some l ∧ s.treeValid = true ∧
      RangesOk (Config.memBytes s.memSize) l.a0.toNat (bytesFor l.a1.toNat) l.a2.toNat l.a3.toNat ∧ s.nleaf = 1#9 ∧
      s.nodes[s.root.toNat]? = some (.leaf y w) ∧ j < l.a1.toNat ∧ j ≤ l.a3.toNat ∧
      HoldsBits s.mem l.a0.toNat (List.replicate j false ++ [true]) :=
  ⟨⟨running (built emptyFreq) [] .decode 0 0 0 0, latchOf .decode 0 0 0 0, rfl, rfl, by decide, by decide, rfl⟩,
    ⟨running (built emptyFreq) (bytesAt 0x100 [0]) .decode 0x100 1 0x200 64, latchOf .decode 0x100 1 0x200 64, rfl, rfl,
      by decide, by decide, by decide⟩,
    ⟨running (built (freqFrom [(0x61, 4)])) (bytesAt 0x100 [0]) .decode 0x100 4 0x200 4, latchOf .decode 0x100 4 0x200 4,
      0x61, 4, rfl, rfl, by decide, by decide, by decide, by decide, by decide⟩,
    ⟨running (built (freqFrom [(0x61, 4)])) (bytesAt 0x100 [0x10]) .decode 0x100 4 0x200 4, latchOf .decode 0x100 4 0x200 4,
      0x61, 4, 3, rfl, rfl, by decide, by decide, by decide, by decide, by decide, by decide⟩⟩

/-- V-D4: 21 bits end inside the code of the tenth symbol, r = 111. V-D6: the eleventh symbol completes at bit 22. -/
theorem witness_DecodeStopsAtTheFirstError :
    (∃ (s : State) (l : Latch) (c : CodeTable) (xs : List (Byte × Bits)) (p : Bits) (y : Byte) (q : Bits), s.Inv ∧
      s.latch = some l ∧ s.treeValid = true ∧ genCodes s.nodes s.nleaf.toNat s.root = .ok c ∧ Coded c xs ∧
      codeOf c y = some p ∧
      RangesOk (Config.memBytes s.memSize) l.a0.toNat (bytesFor l.a1.toNat) l.a2.toNat l.a3.toNat ∧ 2 ≤ s.nleaf.toNat ∧
      q <+: p ∧ q ≠ [] ∧ q ≠ p ∧ (xs.flatMap Prod.snd ++ q).length = l.a1.toNat ∧
      HoldsBits s.mem l.a0.toNat (xs.flatMap Prod.snd ++ q) ∧ xs.length ≤ l.a3.toNat) ∧
    ∃ (s : State) (l : Latch) (c : CodeTable) (xs : List (Byte × Bits)) (p : Bits) (y : Byte), s.Inv ∧
      s.latch = some l ∧
      s.treeValid = true ∧ genCodes s.nodes s.nleaf.toNat s.root = .ok c ∧ Coded c xs ∧ codeOf c y = some p ∧
      RangesOk (Config.memBytes s.memSize) l.a0.toNat (bytesFor l.a1.toNat) l.a2.toNat l.a3.toNat ∧
      (xs.flatMap Prod.snd ++ p).length ≤ l.a1.toNat ∧ HoldsBits s.mem l.a0.toNat (xs.flatMap Prod.snd ++ p) ∧
      xs.length = l.a3.toNat := by
  have hc : ∀ n, Coded (coded abra).codes (abraPairs.take n) :=
    fun n x hx => abraPairs_coded x (List.mem_of_mem_take hx)
  refine ⟨⟨running (coded abra) (bytesAt 0x100 [0x6E, 0x8A, 0xDC]) .decode 0x100 21 0x200 64,
      latchOf .decode 0x100 21 0x200 64, (coded abra).codes, abraPairs.take 9, [true, true, true], 0x72, [true, true],
      coded_inv abra (by decide) (by decide) _ _ _ _ _, rfl, rfl, coded_codes abra, hc 9, ?_, by decide, by decide, by decide,
      by decide, by decide, by decide, ?_, by decide⟩,
    ⟨running (coded abra) (bytesAt 0x100 [0x6E, 0x8A, 0xDC]) .decode 0x100 23 0x200 10, latchOf .decode 0x100 23 0x200 10,
      (coded abra).codes, abraPairs.take 10, [false], 0x61, coded_inv abra (by decide) (by decide) _ _ _ _ _, rfl, rfl,
      coded_codes abra, hc 10, ?_, by decide, by decide, ?_, by decide⟩⟩ <;> decide +kernel

/-- The payload with padding bits of V-S6, at both ends of the ranges of `k` and `m`. -/
theorem witness_ContainerLayout :
    ∃ (ps : List (Byte × Word)) (pb : List Byte) (len : Nat), ps.length ≤ 256 ∧ len < 2 ^ 32 ∧
      pb.length = bytesFor len ∧
      0 < ps.length ∧ 0 < pb.length ∧ len % 8 ≠ 0 :=
  ⟨[(0x61, 4)], [0x0F], 4, by decide, by decide, by decide, by decide, by decide, by decide⟩

/-- V-S7: exact capacity. -/
theorem witness_SerializeCompletes :
    ∃ (s : State) (l : Latch) (pb : List Byte) (T : Nat), s.latch = some l ∧
      RangesOk (Config.memBytes s.memSize) l.a0.toNat (bytesFor l.a1.toNat) l.a2.toNat l.a3.toNat ∧
      T = 6 + 5 * (presentSymbols s.freq).length + bytesFor l.a1.toNat ∧ T ≤ l.a3.toNat ∧
      pb.length = bytesFor l.a1.toNat ∧
      HoldsBytes s.mem l.a0.toNat pb := by
  refine ⟨running (loaded abra) (bytesAt 0x100 [0x6E, 0x8A, 0xDC]) .serialize 0x100 23 0x200 34,
    latchOf .serialize 0x100 23 0x200 34, [0x6E, 0x8A, 0xDC], 34, rfl, by decide, ?_, by decide, by decide, by decide⟩
  rw [presentSymbols_length]; decide +kernel

/-- V-S8: one byte short. -/
theorem witness_SerializeOverflowGivesTheSize :
    ∃ (s : State) (l : Latch) (T : Nat), s.latch = some l ∧
      RangesOk (Config.memBytes s.memSize) l.a0.toNat (bytesFor l.a1.toNat) l.a2.toNat l.a3.toNat ∧
      T = 6 + 5 * (presentSymbols s.freq).length + bytesFor l.a1.toNat ∧ l.a3.toNat < T := by
  refine ⟨running (loaded abra) (bytesAt 0x100 [0x6E, 0x8A, 0xDC]) .serialize 0x100 23 0x200 33,
    latchOf .serialize 0x100 23 0x200 33, 34, rfl, by decide, ?_, by decide⟩
  rw [presentSymbols_length]; decide +kernel

/-- The counts of the worked example, in descending order (V-X4). -/
def abraDescending : List (Byte × Word) := [(0x72, 2), (0x64, 1), (0x63, 1), (0x62, 2), (0x61, 5)]

theorem witness_DeserializeCompletes :
    ∃ (s : State) (l : Latch) (ps : List (Byte × Word)) (pb : List Byte) (len : Nat), s.latch = some l ∧
      (ps.map Prod.fst).Nodup ∧ (∀ p ∈ ps, p.2 ≠ 0#32) ∧ len < 2 ^ 32 ∧ pb.length = bytesFor len ∧
      clearPadding pb len = pb ∧ (ps = [] → len = 0) ∧ l.a1.toNat = 6 + 5 * ps.length + bytesFor len ∧
      RangesOk (Config.memBytes s.memSize) l.a0.toNat l.a1.toNat l.a2.toNat l.a3.toNat ∧
      HoldsBytes s.mem l.a0.toNat (containerOf ps pb len) ∧ bytesFor len ≤ l.a3.toNat := by
  refine ⟨running State.reset (bytesAt 0 (containerOf abraDescending [0x6E, 0x8A, 0xDC] 23)) .deserialize 0 34 0x100 64,
    latchOf .deserialize 0 34 0x100 64, abraDescending, [0x6E, 0x8A, 0xDC], 23, rfl, by decide, ?_, by decide,
    by decide, by decide, by decide, by decide, by decide, ?_, by decide⟩
  · intro p hp
    simp only [abraDescending, List.mem_cons, List.not_mem_nil, or_false] at hp
    rcases hp with rfl | rfl | rfl | rfl | rfl <;> decide
  · decide +kernel

theorem read_written (a : Nat) (bs : List Byte) {m : Memory} (h : Memory.readMany m a bs.length = .ok bs) {k : Nat}
    (hk : k < bs.length) : Memory.read m (a + k) = some bs[k] := ((Memory.readMany_eq_ok _ _ _ _).1 h).2 k hk

theorem witness_SerializeDeserializeRoundTrip :
    ∃ (s : State) (t : State) (u : State) (l : Latch) (k : Latch) (pb : List Byte), s.latch = some l ∧
      exec .serialize s = .next t ∧ t.err = .ok ∧ pb.length = bytesFor l.a1.toNat ∧ HoldsBytes s.mem l.a0.toNat pb ∧
      (presentSymbols s.freq = [] → l.a1 = 0#32) ∧ u.latch = some k ∧ k.a1 = t.res0 ∧
      (∀ j, j < t.res0.toNat → Memory.read u.mem (k.a0.toNat + j) = Memory.read t.mem (l.a2.toNat + j)) ∧
      RangesOk (Config.memBytes u.memSize) k.a0.toNat k.a1.toNat k.a2.toNat k.a3.toNat ∧
      bytesFor l.a1.toNat ≤ k.a3.toNat := by
  obtain ⟨t, ht, hv⟩ := next_of_view (o := exec .serialize serializing)
    (f := fun t => (t.err, t.res0, Memory.readMany t.mem 0x200 34)) (v := (.ok, 34#32, .ok abraContainer)) (by decide +kernel)
  simp only [Prod.mk.injEq] at hv
  obtain ⟨he, h0, hm⟩ := hv
  refine ⟨serializing, t, deserializing, latchOf .serialize 0x100 23 0x200 64, latchOf .deserialize 0 34 0x100 16,
    [0x6E, 0x8A, 0xDC], rfl, ht, he, by decide, by decide, ?_, rfl, h0.symm, fun j hj => ?_, by decide, by decide⟩
  · have : presentSymbols serializing.freq ≠ [] := by rw [presentSymbols_eq_map]; decide +kernel
    exact fun h => absurd h this
  · have hj' : j < abraContainer.length := by rw [h0] at hj; exact hj
    rw [show (latchOf .serialize 0x100 23 0x200 64).a2.toNat = 0x200 from rfl, read_written 0x200 abraContainer hm hj']
    exact read_written 0 abraContainer (by decide) hj'

/-- V-S3 for L > 0; the empty container less its last byte (V-X7) for L = 0. -/
theorem witness_TruncatedContainerIsRejected :
    (∃ (s : State) (t : State) (u : State) (l : Latch) (k : Latch), s.latch = some l ∧ exec .serialize s = .next t ∧
      t.err = .ok ∧ u.latch = some k ∧ k.a1.toNat + 1 = t.res0.toNat ∧
      (∀ j, j + 1 < t.res0.toNat → Memory.read u.mem (k.a0.toNat + j) = Memory.read t.mem (l.a2.toNat + j)) ∧
      RangesOk (Config.memBytes u.memSize) k.a0.toNat k.a1.toNat k.a2.toNat k.a3.toNat ∧ l.a1 ≠ 0#32) ∧
    ∃ (s : State) (t : State) (u : State) (l : Latch) (k : Latch), s.latch = some l ∧ exec .serialize s = .next t ∧
      t.err = .ok ∧ u.latch = some k ∧ k.a1.toNat + 1 = t.res0.toNat ∧
      (∀ j, j + 1 < t.res0.toNat → Memory.read u.mem (k.a0.toNat + j) = Memory.read t.mem (l.a2.toNat + j)) ∧
      RangesOk (Config.memBytes u.memSize) k.a0.toNat k.a1.toNat k.a2.toNat k.a3.toNat ∧ l.a1 = 0#32 := by
  constructor
  · obtain ⟨t, ht, hv⟩ := next_of_view (o := exec .serialize serializing)
      (f := fun t => (t.err, t.res0, Memory.readMany t.mem 0x200 34)) (v := (.ok, 34#32, .ok abraContainer)) (by decide +kernel)
    simp only [Prod.mk.injEq] at hv
    obtain ⟨he, h0, hm⟩ := hv
    refine ⟨serializing, t, running State.reset (bytesAt 0 abraContainer) .deserialize 0 33 0x100 16,
      latchOf .serialize 0x100 23 0x200 64, latchOf .deserialize 0 33 0x100 16, rfl, ht, he, rfl, by rw [h0]; rfl,
      fun j hj => ?_, by decide, by decide⟩
    have hj' : j < abraContainer.length := by rw [h0] at hj; exact Nat.lt_of_succ_lt hj
    rw [show (latchOf .serialize 0x100 23 0x200 64).a2.toNat = 0x200 from rfl, read_written 0x200 abraContainer hm hj']
    exact read_written 0 abraContainer (by decide) hj'
  · obtain ⟨t, ht, hv⟩ := next_of_view (o := exec .serialize (running State.reset [] .serialize 0 0 0x200 6))
      (f := fun t => (t.err, t.res0, Memory.readMany t.mem 0x200 6)) (v := (.ok, 6#32, .ok [0, 0, 0, 0, 0, 0])) (by decide +kernel)
    simp only [Prod.mk.injEq] at hv
    obtain ⟨he, h0, hm⟩ := hv
    refine ⟨_, t, running State.reset (bytesAt 0 [0, 0, 0, 0, 0, 0]) .deserialize 0 5 0x100 16,
      latchOf .serialize 0 0 0x200 6, latchOf .deserialize 0 5 0x100 16, rfl, ht, he, rfl, by rw [h0]; rfl,
      fun j hj => ?_, by decide, rfl⟩
    have hj' : j < [0#8, 0#8, 0#8, 0#8, 0#8, 0#8].length := by rw [h0] at hj; exact Nat.lt_of_succ_lt hj
    rw [show (latchOf .serialize 0 0 0x200 6).a2.toNat = 0x200 from rfl, read_written 0x200 [0, 0, 0, 0, 0, 0] hm hj']
    exact read_written 0 [0#8, 0#8, 0#8, 0#8, 0#8, 0#8] (by decide) hj'

/-- V-X8 (fewer than 2 bytes), V-X12 (COUNT = 257) and V-X7 (5 bytes with COUNT = 0). -/
theorem witness_DeserializeChecksSizeAndCount :
    (∃ (s : State) (l : Latch), s.latch = some l ∧
      RangesOk (Config.memBytes s.memSize) l.a0.toNat l.a1.toNat l.a2.toNat l.a3.toNat ∧ l.a1.toNat < 2) ∧
    (∃ (s : State) (l : Latch) (b0 : Byte) (b1 : Byte), s.latch = some l ∧
      RangesOk (Config.memBytes s.memSize) l.a0.toNat l.a1.toNat l.a2.toNat l.a3.toNat ∧ 2 ≤ l.a1.toNat ∧
      HoldsBytes s.mem l.a0.toNat [b0, b1] ∧ 256 < b0.toNat * 256 + b1.toNat) ∧
    ∃ (s : State) (l : Latch) (b0 : Byte) (b1 : Byte), s.latch = some l ∧
      RangesOk (Config.memBytes s.memSize) l.a0.toNat l.a1.toNat l.a2.toNat l.a3.toNat ∧ 2 ≤ l.a1.toNat ∧
      HoldsBytes s.mem l.a0.toNat [b0, b1] ∧ b0.toNat * 256 + b1.toNat ≤ 256 ∧
      l.a1.toNat < 6 + 5 * (b0.toNat * 256 + b1.toNat) :=
  ⟨⟨running State.reset (bytesAt 0 [0]) .deserialize 0 1 0x100 64, latchOf .deserialize 0 1 0x100 64, rfl, by decide,
      by decide⟩,
    ⟨running State.reset (bytesAt 0 [1, 1, 0, 0, 0, 0]) .deserialize 0 6 0x100 64, latchOf .deserialize 0 6 0x100 64, 1, 1,
      rfl, by decide, by decide, by decide, by decide⟩,
    ⟨running State.reset (bytesAt 0 [0, 0, 0, 0, 0]) .deserialize 0 5 0x100 64, latchOf .deserialize 0 5 0x100 64, 0, 0, rfl,
      by decide, by decide, by decide, by decide, by decide⟩⟩

/-- The clauses of DeserializeChecksSizeAndCount about a pair: V-X5 (the second pair repeats `a`) and V-X14 (its count is 0). -/
theorem witness_DeserializeChecksPairs :
    (∃ (s : State) (l : Latch) (N : Nat) (ps : List (Byte × Word)) (y : Byte) (v : Word), s.latch = some l ∧
      RangesOk (Config.memBytes s.memSize) l.a0.toNat l.a1.toNat l.a2.toNat l.a3.toNat ∧ GoodPairs ps ∧ ps.length < N ∧
      N ≤ 256 ∧ 6 + 5 * N ≤ l.a1.toNat ∧ HoldsBytes s.mem l.a0.toNat (tableBytes N (ps ++ [(y, v)])) ∧
      y ∈ ps.map Prod.fst) ∧
    ∃ (s : State) (l : Latch) (N : Nat) (ps : List (Byte × Word)) (y : Byte) (v : Word), s.latch = some l ∧
      RangesOk (Config.memBytes s.memSize) l.a0.toNat l.a1.toNat l.a2.toNat l.a3.toNat ∧ GoodPairs ps ∧ ps.length < N ∧
      N ≤ 256 ∧ 6 + 5 * N ≤ l.a1.toNat ∧ HoldsBytes s.mem l.a0.toNat (tableBytes N (ps ++ [(y, v)])) ∧
      y ∉ ps.map Prod.fst ∧ v = 0#32 := by
  have good : GoodPairs [(0x61, 1)] := ⟨by decide, fun p hp => by rw [List.mem_singleton.1 hp]; decide⟩
  exact ⟨⟨running State.reset (bytesAt 0 [0, 2, 0x61, 0, 0, 0, 1, 0x61, 0, 0, 0, 2, 0, 0, 0, 0]) .deserialize 0 16 0x100 64,
      latchOf .deserialize 0 16 0x100 64, 2, [(0x61, 1)], 0x61, 2, rfl, by decide, good, by decide, by decide, by decide,
      by decide, by decide⟩,
    ⟨running State.reset (bytesAt 0 [0, 2, 0x61, 0, 0, 0, 1, 0x62, 0, 0, 0, 0, 0, 0, 0, 0]) .deserialize 0 16 0x100 64,
      latchOf .deserialize 0 16 0x100 64, 2, [(0x61, 1)], 0x62, 0, rfl, by decide, good, by decide, by decide, by decide,
      by decide, by decide, rfl⟩⟩

/-- The hypotheses of the last clauses of DeserializeChecksSizeAndCount: a table that passes, and a BITLEN. -/
def TableWritten (s : State) (l : Latch) (ps : List (Byte × Word)) (N L P : Nat) : Prop :=
  s.latch = some l ∧ RangesOk (Config.memBytes s.memSize) l.a0.toNat l.a1.toNat l.a2.toNat l.a3.toNat ∧ GoodPairs ps ∧
    N = ps.length ∧ L < 2 ^ 32 ∧ P = bytesFor L ∧ 6 + 5 * N ≤ l.a1.toNat ∧
    HoldsBytes s.mem l.a0.toNat (tableBytes N ps ++ be32Bytes L)

/-- DESERIALIZE of the bytes `bs` at 0 with a1 = `a1` and a3 = `a3`. -/
def parsing (bs : List Byte) (a1 a3 : Word) : State := running State.reset (bytesAt 0 bs) .deserialize 0 a1 0x100 a3

/-- V-X9 (short payload), V-X1 with the "aaaa" container (a trailing byte), V-X3 with it (a padding bit set), V-X13 (N = 0 with
L ≠ 0), and V-X2 with it (no room for the payload). -/
theorem witness_DeserializeChecksPayload :
    (∃ (s : State) (l : Latch) (ps : List (Byte × Word)) (N L P : Nat), TableWritten s l ps N L P ∧
      l.a1.toNat < 6 + 5 * N + P) ∧
    (∃ (s : State) (l : Latch) (ps : List (Byte × Word)) (N L P : Nat), TableWritten s l ps N L P ∧
      6 + 5 * N + P < l.a1.toNat) ∧
    (∃ (s : State) (l : Latch) (ps : List (Byte × Word)) (N L P : Nat) (b : Byte), TableWritten s l ps N L P ∧
      l.a1.toNat = 6 + 5 * N + P ∧ Memory.read s.mem (l.a0.toNat + (5 + 5 * N + P)) = some b ∧ L % 8 ≠ 0 ∧
      b.toNat % 2 ^ (8 - L % 8) ≠ 0) ∧
    (∃ (s : State) (l : Latch) (ps : List (Byte × Word)) (N L P : Nat), TableWritten s l ps N L P ∧
      l.a1.toNat = 6 + 5 * N + P ∧ PaddingClear s.mem (l.a0.toNat + (5 + 5 * N + P)) L ∧ N = 0 ∧ L ≠ 0) ∧
    ∃ (s : State) (l : Latch) (ps : List (Byte × Word)) (N L P : Nat) (pb : List Byte), TableWritten s l ps N L P ∧
      l.a1.toNat = 6 + 5 * N + P ∧ PaddingClear s.mem (l.a0.toNat + (5 + 5 * N + P)) L ∧ (N = 0 → L = 0) ∧
      pb.length = P ∧ HoldsBytes s.mem (l.a0.toNat + (6 + 5 * N)) pb ∧ l.a3.toNat < P := by
  have good : GoodPairs [(0x61, 4)] := ⟨by decide, fun p hp => by rw [List.mem_singleton.1 hp]; decide⟩
  have none : GoodPairs [] := ⟨by decide, fun p hp => absurd hp (by simp)⟩
  have aaaa : ∀ s l, s.latch = some l → RangesOk (Config.memBytes s.memSize) l.a0.toNat l.a1.toNat l.a2.toNat l.a3.toNat →
      6 + 5 * 1 ≤ l.a1.toNat → HoldsBytes s.mem l.a0.toNat (tableBytes 1 [(0x61, 4)] ++ be32Bytes 4) →
      TableWritten s l [(0x61, 4)] 1 4 1 :=
    fun s l hl hr hs hb => ⟨hl, hr, good, rfl, by decide, rfl, hs, hb⟩
  exact ⟨⟨parsing [0, 1, 0x61, 0, 0, 0, 4, 0, 0, 0, 4] 11 64, _, _, 1, 4, 1,
      aaaa _ _ rfl (by decide) (by decide) (by decide), by decide⟩,
    ⟨parsing [0, 1, 0x61, 0, 0, 0, 4, 0, 0, 0, 4, 0, 0] 13 64, _, _, 1, 4, 1,
      aaaa _ _ rfl (by decide) (by decide) (by decide), by decide⟩,
    ⟨parsing [0, 1, 0x61, 0, 0, 0, 4, 0, 0, 0, 4, 0x08] 12 64, _, _, 1, 4, 1, 0x08,
      aaaa _ _ rfl (by decide) (by decide) (by decide), rfl, rfl, by decide, by decide⟩,
    ⟨parsing [0, 0, 0, 0, 0, 1, 0] 7 64, _, [], 0, 1, 1,
      ⟨rfl, by decide, none, rfl, by decide, rfl, by decide, by decide⟩, rfl, .inr ⟨0, rfl, rfl⟩, rfl, by decide⟩,
    ⟨parsing [0, 1, 0x61, 0, 0, 0, 4, 0, 0, 0, 4, 0] 12 0, _, _, 1, 4, 1, [0],
      aaaa _ _ rfl (by decide) (by decide) (by decide), rfl, .inr ⟨0, rfl, rfl⟩, by decide, rfl, by decide, by decide⟩⟩

theorem witness_StaleTreesAreNeverUsed :
    (∃ (s : State) (t : State) (es : List HostEvent) (y : Byte) (v : Word), s.latch = none ∧
      s.hostQueue = HostProgram.setFreq y v :: es ∧ step s = .next t) ∧
    (∃ (s : State) (t : State), exec .deserialize s = .next t ∧ t.err = .ok) ∧
    (∃ (s : State) (t : State), exec .buildTree s = .next t) ∧
    ∃ (s : State) (l : Latch), s.latch = some l ∧ s.codesValid = false ∧ s.treeValid = false := by
  obtain ⟨t1, h1, _⟩ := next_of_view (o := step (facing (coded abra) (HostProgram.setFreq 0x61 5))) (f := State.treeValid)
    (v := false) (by decide +kernel)
  obtain ⟨t2, h2, e2⟩ := next_of_view (o := exec .deserialize deserializing) (f := State.err) (v := .ok) (by decide +kernel)
  obtain ⟨t3, h3, _⟩ := next_of_view (o := exec .buildTree (running (loaded abra) [] .buildTree 0 0 0 0)) (f := State.err)
    (v := .ok) (by decide +kernel)
  exact ⟨⟨_, t1, [], 0x61, 5, rfl, rfl, h1⟩, ⟨_, t2, h2, e2⟩, ⟨_, t3, h3⟩,
    ⟨running (loaded abra) [] .encode 0 0 0 0, latchOf .encode 0 0 0 0, rfl, rfl, rfl⟩⟩

theorem witness_OnlyTheseStepsChangeFreq : ∃ (s : State) (t : State), step s = .next t ∧ t.freq ≠ s.freq := by
  obtain ⟨t, ht, hf⟩ := next_of_view (o := step (facing (coded abra) (HostProgram.setFreq 0x61 6)))
    (f := fun t => freqOf t.freq 0x61) (v := 6) (by decide +kernel)
  refine ⟨_, t, ht, fun h => ?_⟩
  rw [h] at hf
  exact absurd hf (by decide)

theorem witness_OnlyTheBuildersSetTheFlags :
    (∃ (s : State) (t : State), step s = .next t ∧ s.treeValid = false ∧ t.treeValid = true) ∧
    ∃ (s : State) (t : State), step s = .next t ∧ s.codesValid = false ∧ t.codesValid = true := by
  obtain ⟨t, ht, e⟩ := next_of_view (o := step (running (loaded abra) [] .buildTree 0 0 0 0)) (f := State.treeValid)
    (v := true) (by decide +kernel)
  obtain ⟨u, hu, g⟩ := next_of_view (o := step (running (built abra) [] .genCodes 0 0 0 0)) (f := State.codesValid)
    (v := true) (by decide +kernel)
  exact ⟨⟨_, t, ht, rfl, e⟩, ⟨_, u, hu, rfl, g⟩⟩

/-- Also for OnlyUnwrittenReadsStop. -/
theorem witness_EveryStepKeepsTheInvariant : ∃ (s : State) (t : State), s.Inv ∧ s.busy = true ∧ step s = .next t := by
  obtain ⟨t, ht, _⟩ := next_of_view (o := step encoding) (f := State.err) (v := .ok) (by decide +kernel)
  exact ⟨_, t, encoding_inv, rfl, ht⟩

end Sys2Proof.Tests
end

section
/-! PROOFS. What a step does to the block's tables (FREQ, the node store, the code table and the two validity flags), said
once: which events leave them alone, which clear the tree, and which command builds them (R20, R27, R33, R34). -/

namespace Sys2Proof.Machine

open Sys2Proof.Claims

/-! ### The command words -/

/-- A word whose RSVD field is 0 is the number in its OPC field (R58). -/
theorem toNat_eq_opcField {w : Word} (h : rsvdField w = 0#28) : w.toNat = (opcField w).toNat := by
  have hr : (rsvdField w).toNat = 0 := by rw [h]; rfl
  simp only [rsvdField, opcField, BitVec.extractLsb'_toNat, Nat.shiftRight_eq_div_pow] at hr ⊢
  have := w.isLt
  omega

/-- A word that selects a command is that command's word (R59). -/
theorem eq_encode_of_decode {w : Word} {i : Instr} (h : Sys2Proof.decode w = .ok i) : w = Sys2Proof.encode i := by
  unfold Sys2Proof.decode at h
  split at h
  · next hr =>
    have hw := toNat_eq_opcField hr
    unfold decodeOpc at h
    split at h <;> cases h <;> exact BitVec.eq_of_toNat_eq (hw.trans ‹_›)
  · cases h

/-! ### What the tables say -/

/-- FREQ, the node store with NLEAF and ROOT, the code table and the validity flags are as before. -/
structure SameTables (s t : State) : Prop where
  freq : t.freq = s.freq
  nodes : t.nodes = s.nodes
  nleaf : t.nleaf = s.nleaf
  root : t.root = s.root
  codes : t.codes = s.codes
  treeValid : t.treeValid = s.treeValid
  codesValid : t.codesValid = s.codesValid

/-- The tree is cleared, as R34 says it is cleared. -/
structure TreeCleared (s : State) : Prop where
  treeValid : s.treeValid = false
  codesValid : s.codesValid = false
  nleaf : s.nleaf = 0#9
  root : s.root = Config.noNode

/-- The part of the invariant that speaks of the tables (R34). -/
structure TablesTrue (s : State) : Prop where
  tree : s.treeValid = true →
    s.nodes = (buildTree s.freq).nodes ∧ s.nleaf = BitVec.ofNat 9 (buildTree s.freq).n ∧ s.root = (buildTree s.freq).root
  noTree : s.treeValid = false → s.codesValid = false ∧ s.nleaf = 0#9 ∧ s.root = Config.noNode
  codes : s.codesValid = true → genCodes s.nodes s.nleaf.toNat s.root = .ok s.codes

theorem SameTables.refl (s : State) : SameTables s s := ⟨rfl, rfl, rfl, rfl, rfl, rfl, rfl⟩

theorem SameTables.trans {s t u : State} (h : SameTables s t) (h' : SameTables t u) : SameTables s u :=
  ⟨h'.freq.trans h.freq, h'.nodes.trans h.nodes, h'.nleaf.trans h.nleaf, h'.root.trans h.root, h'.codes.trans h.codes,
    h'.treeValid.trans h.treeValid, h'.codesValid.trans h.codesValid⟩

theorem TreeCleared.of_same {s t : State} (hs : TreeCleared s) (h : SameTables s t) : TreeCleared t :=
  ⟨h.treeValid.trans hs.treeValid, h.codesValid.trans hs.codesValid, h.nleaf.trans hs.nleaf, h.root.trans hs.root⟩

theorem TablesTrue.of_same {s t : State} (hs : TablesTrue s) (h : SameTables s t) : TablesTrue t where
  tree := by rw [h.treeValid, h.nodes, h.nleaf, h.root, h.freq]; exact hs.tree
  noTree := by rw [h.treeValid, h.codesValid, h.nleaf, h.root]; exact hs.noTree
  codes := by rw [h.codesValid, h.nodes, h.nleaf, h.root, h.codes]; exact hs.codes

theorem TablesTrue.of_cleared {t : State} (h : TreeCleared t) : TablesTrue t where
  tree ht := absurd h.treeValid (by simp [ht])
  noTree _ := ⟨h.codesValid, h.nleaf, h.root⟩
  codes hc := absurd h.codesValid (by simp [hc])

/-! ### The updates -/

theorem sameTables_takeEvent (s : State) : SameTables s s.takeEvent := by constructor <;> rfl

theorem sameTables_answerWrite (b : BusResponse) (s : State) : SameTables s (answerWrite b s) := by constructor <;> rfl

theorem sameTables_conflictWrite (s : State) : SameTables s (conflictWrite s) := by constructor <;> rfl

theorem sameTables_complete (s : State) : SameTables s (complete s) := by constructor <;> rfl

theorem sameTables_raiseError (l : Latch) (c : ErrCode) (n : Nat) (s : State) : SameTables s (raiseError l c n s) := by
  constructor <;> simp

theorem treeCleared_hardwareReset (s : State) : TreeCleared (hardwareReset s) := ⟨rfl, rfl, rfl, rfl⟩

theorem treeCleared_softReset (s : State) : TreeCleared (softReset s) := ⟨rfl, rfl, rfl, rfl⟩

theorem treeCleared_writeFreq (y : Byte) (v : Word) (s : State) : TreeCleared (writeFreq y v s) := ⟨rfl, rfl, rfl, rfl⟩

theorem sameTables_writeCmd (w : Word) (s : State) : SameTables s (writeCmd w s) := by
  unfold writeCmd; split <;> constructor <;> rfl

/-- Everything a write to CTRL can do: the soft reset, or a new IRQ_EN (R19). -/
theorem writeCtrl_cases (d : Word) (s : State) :
    (d.getLsbD 1 = true ∧ writeCtrl d s = softReset s) ∨
      (d.getLsbD 1 = false ∧ writeCtrl d s = { s with irqEn := d.getLsbD 0 }) := by
  unfold writeCtrl; cases d.getLsbD 1 <;> simp

/-- An OKAY write leaves the tables alone, but for a soft reset and a write to FREQ. -/
theorem writeTarget_tables (tg : Target) (sz : AccessSize) (d : Word) (s : State) :
    SameTables s (writeTarget tg sz d s) ∨
      (TreeCleared (writeTarget tg sz d s) ∧ ((tg = .ctrl ∧ d.getLsbD 1 = true) ∨ ∃ y, tg = .freq y)) := by
  cases tg with
  | cmd => exact .inl (sameTables_writeCmd d s)
  | ctrl =>
    rcases writeCtrl_cases d s with ⟨hd, he⟩ | ⟨_, he⟩
    · exact .inr ⟨by rw [writeTarget, he]; exact treeCleared_softReset s, .inl ⟨rfl, hd⟩⟩
    · exact .inl (by rw [writeTarget, he]; constructor <;> rfl)
  | freq y => exact .inr ⟨treeCleared_writeFreq y d s, .inr ⟨y, rfl⟩⟩
  | _ => left; constructor <;> rfl

theorem hostRead_sameTables {off : HostOffset} {sz : AccessSize} {s t : State} (h : hostRead off sz s = .next t) :
    SameTables s t := by
  rcases hostRead_cases off sz s with ⟨_, he⟩ | ⟨_, _, ⟨_, _, he⟩ | ⟨_, ⟨_, _, he⟩ | ⟨_, _, he⟩⟩⟩ <;>
    rw [he] at h <;> cases h <;> constructor <;> rfl

/-! ### The offsets that reach FREQ and CTRL -/

/-- A transaction that reaches anything but MEM is an aligned word access (R41). -/
theorem hostTarget_eq_word {m : MemSize} {off : Nat} {sz : AccessSize} {tg : Target} (h : hostTarget m off sz = some tg)
    (hm : ∀ a, tg ≠ .mem a) : sz = .bits32 ∧ off % 4 = 0 ∧ wordTarget off = some tg := by
  unfold hostTarget at h
  split at h
  · split at h <;> cases h
    exact absurd rfl (hm _)
  · split at h
    · next hw => exact ⟨hw.1, hw.2, h⟩
    · cases h

theorem wordTarget_eq_ctrl {off : Nat} (h : wordTarget off = some .ctrl) : off = 0x00C := by
  unfold wordTarget at h
  split at h
  · unfold controlRegister at h
    split at h <;> simp_all
  · repeat' split at h
    all_goals simp at h

theorem wordTarget_eq_freq {off : Nat} {y : Byte} (h4 : off % 4 = 0) (h : wordTarget off = some (.freq y)) :
    off = 0x400 + 4 * y.toNat := by
  unfold wordTarget at h
  split at h
  · unfold controlRegister at h
    split at h <;> simp at h
  · split at h
    · simp only [Option.some.injEq, Target.freq.injEq] at h
      subst h
      rw [BitVec.toNat_ofNat]
      omega
    · repeat' split at h
      all_goals simp at h

/-- A write that reaches CTRL is the write of a word to 0x00C. -/
theorem write_eq_of_target_ctrl {m : MemSize} {off : HostOffset} {sz : AccessSize} (d : Word)
    (h : hostTarget m off.toNat sz = some .ctrl) : HostEvent.write off sz d = .write 0x0000C#17 .bits32 d := by
  obtain ⟨rfl, _, hw⟩ := hostTarget_eq_word h (by simp)
  rw [show off = 0x0000C#17 from BitVec.eq_of_toNat_eq (wordTarget_eq_ctrl hw)]

/-- A write that reaches FREQ[y] is SETFREQ (R68). -/
theorem write_eq_of_target_freq {m : MemSize} {off : HostOffset} {sz : AccessSize} {y : Byte} (d : Word)
    (h : hostTarget m off.toNat sz = some (.freq y)) : HostEvent.write off sz d = HostProgram.setFreq y d := by
  obtain ⟨rfl, h4, hw⟩ := hostTarget_eq_word h (by simp)
  rw [HostProgram.setFreq, HostProgram.wr, ← wordTarget_eq_freq h4 hw, BitVec.ofNat_toNat, BitVec.setWidth_eq]

/-! ### The engine -/

/-- Everything a command can do when it goes on: a failure, or the effects of its body and completion. -/
theorem exec_next {i : Instr} {s t : State} (h : exec i s = .next t) :
    ∃ l, s.latch = some l ∧
      ((∃ c n, t = raiseError l c n s) ∨
       ∃ u, ready i s = true ∧ rangesValid (Config.memBytes s.memSize) i l = true ∧ bodyOf i l s = .ok u ∧
         t = complete u) := by
  rw [exec_eq_runCommand] at h
  obtain ⟨l, hl, h⟩ := runCommand_next h
  refine ⟨l, hl, ?_⟩
  rcases h with ⟨hr, hv, u, hb, ht⟩ | ⟨_, ht⟩ | ⟨_, _, ht⟩ | ⟨_, _, c, n, _, ht⟩
  · exact .inr ⟨u, hr, hv, hb, ht⟩
  · exact .inl ⟨_, _, ht⟩
  · exact .inl ⟨_, _, ht⟩
  · exact .inl ⟨_, _, ht⟩

/-- What a command's effects do to the tables: BUILD_TREE and GEN_CODES build, DESERIALIZE loads FREQ and clears the tree,
the others leave them alone (R77, R83, R105). -/
theorem bodyOf_tables {i : Instr} {l : Latch} {s u : State} (h : bodyOf i l s = .ok u) :
    (i = .buildTree ∧ buildTreeBody l s = .ok u) ∨ (i = .genCodes ∧ genCodesBody l s = .ok u) ∨
      (i = .deserialize ∧ TreeCleared u) ∨ SameTables s u := by
  cases i with
  | buildTree => exact .inl ⟨rfl, h⟩
  | genCodes => exact .inr (.inl ⟨rfl, h⟩)
  | encode => obtain ⟨_, _, rfl⟩ := encodeBody_eq_ok.1 h; exact .inr (.inr (.inr (by constructor <;> rfl)))
  | decode => obtain ⟨_, _, rfl⟩ := decodeBody_eq_ok.1 h; exact .inr (.inr (.inr (by constructor <;> rfl)))
  | serialize => obtain ⟨_, _, _, rfl⟩ := serializeBody_eq_ok.1 h; exact .inr (.inr (.inr (by constructor <;> rfl)))
  | deserialize =>
    obtain ⟨_, _, _, rfl⟩ := deserializeBody_eq_ok.1 h
    exact .inr (.inr (.inl ⟨rfl, by constructor <;> rfl⟩))

/-- The whole effect of BUILD_TREE (R77). -/
theorem buildTreeBody_eq_ok {l : Latch} {s u : State} :
    buildTreeBody l s = .ok u ↔
      u = { s with
        nodes := (buildTree s.freq).nodes
        nleaf := BitVec.ofNat 9 (buildTree s.freq).n
        root := (buildTree s.freq).root
        treeValid := true
        codesValid := false
        res0 := BitVec.ofNat 32 (buildTree s.freq).n
        res1 := BitVec.ofNat 32 (buildTree s.freq).nodes.length } := by
  rw [buildTreeBody, Except.ok.injEq, eq_comm]

/-- The effects of every command keep the tables true, once it is ready. -/
theorem bodyOf_keeps_tablesTrue {i : Instr} {l : Latch} {s u : State} (hs : TablesTrue s) (hr : ready i s = true)
    (h : bodyOf i l s = .ok u) : TablesTrue u := by
  rcases bodyOf_tables h with ⟨_, hb⟩ | ⟨rfl, hb⟩ | ⟨_, hc⟩ | hsame
  · rw [buildTreeBody_eq_ok.1 hb]
    exact ⟨fun _ => ⟨rfl, rfl, rfl⟩, fun hf => Bool.noConfusion hf, fun hf => Bool.noConfusion hf⟩
  · obtain ⟨c, hc, rfl⟩ := genCodesBody_eq_ok.1 hb
    have ht : s.treeValid = true := hr
    exact ⟨hs.tree, fun hf => absurd (ht.symm.trans hf) (by decide), fun _ => hc⟩
  · exact .of_cleared hc
  · exact hs.of_same hsame

/-! ### The step -/

/-- The event before a step that clears the tree: rst_n, a soft reset, or a write to FREQ while BUSY = 0. -/
def ClearingEvent (s : State) : Prop :=
  s.hostQueue.head? = some .hardwareReset ∨
  (∃ d : Word, s.hostQueue.head? = some (.write 0x0000C#17 .bits32 d) ∧ d.getLsbD 1 = true) ∨
  ∃ y v, s.hostQueue.head? = some (HostProgram.setFreq y v) ∧ s.latch = none

theorem takeEvent_nil {s : State} (h : s.hostQueue = []) : s.takeEvent = s := by
  rw [State.takeEvent, h, List.tail_nil, ← h]

/-- Everything the engine's turn does to the tables. -/
theorem engineStep_tables {s t : State} (h : engineStep s = .next t) :
    SameTables s t ∨ ∃ l i u, s.latch = some l ∧ l.word = Sys2Proof.encode i ∧ ready i s = true ∧
      bodyOf i l s = .ok u ∧ t = complete u := by
  rcases engineStep_cases s with ⟨_, he⟩ | ⟨l, hl, ⟨i, hd, he⟩ | ⟨_, he⟩⟩ <;> rw [he] at h
  · cases h; exact .inl (.refl _)
  · obtain ⟨l', hl', ⟨c, n, rfl⟩ | ⟨u, hr, _, hb, ht⟩⟩ := exec_next h
    · exact .inl (sameTables_raiseError l' c n s)
    · obtain rfl : l = l' := Option.some.inj (hl.symm.trans hl')
      exact .inr ⟨l, i, u, hl, eq_encode_of_decode hd, hr, hb, ht⟩
  · cases h; exact .inl (sameTables_raiseError l .badCommand 0 s)

/-- Everything a write that is next in the queue does to the tables. -/
theorem hostWrite_tables {off : HostOffset} {sz : AccessSize} {d : Word} {s t : State}
    (hq : s.hostQueue.head? = some (.write off sz d)) (h : hostWrite off sz d s.takeEvent = .next t) :
    SameTables s t ∨ (TreeCleared t ∧ ClearingEvent s) := by
  rcases hostWrite_cases off sz d s.takeEvent with ⟨_, he⟩ | ⟨tg, htg, ⟨_, _, he⟩ | ⟨hb, he⟩⟩ <;>
    rw [he] at h <;> cases h
  · exact .inl ((sameTables_takeEvent s).trans (sameTables_answerWrite _ _))
  · exact .inl ((sameTables_takeEvent s).trans (sameTables_conflictWrite _))
  · rcases writeTarget_tables tg sz d s.takeEvent with hs | ⟨hc, hev⟩
    · exact .inl ((sameTables_takeEvent s).trans (hs.trans (sameTables_answerWrite _ _)))
    · refine .inr ⟨hc.of_same (sameTables_answerWrite _ _), .inr ?_⟩
      rcases hev with ⟨rfl, hd⟩ | ⟨y, rfl⟩
      · exact .inl ⟨d, by rw [hq, write_eq_of_target_ctrl d htg], hd⟩
      · refine .inr ⟨y, d, by rw [hq, write_eq_of_target_freq d htg], ?_⟩
        simpa [State.busy, Target.isWindow] using hb

/-- Everything a step does to the tables: nothing, a clearing of the tree, or the effects of the latched command. -/
theorem step_tables {s t : State} (h : step s = .next t) :
    SameTables s t ∨ (TreeCleared t ∧ ClearingEvent s) ∨
    (EngineNext s ∧ ∃ l i u, s.latch = some l ∧ l.word = Sys2Proof.encode i ∧ ready i s = true ∧
      bodyOf i l s.takeEvent = .ok u ∧ t = complete u) := by
  cases hq : s.hostQueue with
  | nil =>
    rw [step_nil hq] at h
    rw [takeEvent_nil hq]
    exact (engineStep_tables h).imp_right fun hc => .inr ⟨.inl hq, hc⟩
  | cons e es =>
    rw [step_cons hq] at h
    have hh : s.hostQueue.head? = some e := by rw [hq]; rfl
    cases e with
    | read off sz => exact .inl ((sameTables_takeEvent s).trans (hostRead_sameTables h))
    | write off sz d => exact (hostWrite_tables hh h).imp_right .inl
    | hardwareReset =>
      cases h
      exact .inr (.inl ⟨treeCleared_hardwareReset _, .inl hh⟩)
    | engineTurn =>
      exact (engineStep_tables h).imp (sameTables_takeEvent s).trans fun hc => .inr ⟨.inr hh, hc⟩

end Sys2Proof.Machine
end

section
/-! PROOFS. The invariant (R34, R36, R109, R35), part by part, and the statements on what changes FREQ and the flags. -/

namespace Sys2Proof.Machine

open Sys2Proof.Claims

/-- The part of the invariant that speaks of MEM (R36). -/
def MemTrue (s : State) : Prop := Memory.wf s.mem ∧ Memory.within (Config.memBytes s.memSize) s.mem

/-- The part of the invariant that speaks of the latch and the results while BUSY = 1 (R35, R108, R109). -/
def LatchTrue (s : State) : Prop :=
  (s.busy = true → s.done = false ∧ s.err = .ok ∧ s.res0 = 0#32 ∧ s.res1 = 0#32 ∧ s.errInfo = 0#32) ∧
    ∀ l, s.latch = some l → s.lastOpc = opcField l.word

theorem inv_iff (s : State) : s.Inv ↔ MemTrue s ∧ TablesTrue s ∧ LatchTrue s where
  mp h := ⟨⟨h.memWf, h.memWithin⟩, ⟨h.tree, h.noTree, h.codes⟩, h.running, h.lastOpc⟩
  mpr := fun ⟨⟨hw, hm⟩, ht, hr, ho⟩ => ⟨hw, hm, ht.tree, ht.noTree, ht.codes, hr, ho⟩

/-! ### MEM -/

theorem memTrue_drawRange (a n : Nat) {s : State} (h : MemTrue s) : MemTrue (drawRange a n s) :=
  ⟨wf_drawRange a n h.1, within_drawRange a n h.2⟩

theorem memTrue_raiseError (l : Latch) (c : ErrCode) (n : Nat) {s : State} (h : MemTrue s) : MemTrue (raiseError l c n s) :=
  ⟨wf_raiseError l c n h.1, by rw [raiseError_memSize]; exact within_raiseError l c n h.2⟩

theorem memTrue_abandon {s : State} (h : MemTrue s) : MemTrue (abandon s) := by
  unfold abandon
  split
  · exact h
  · exact memTrue_drawRange _ _ h

/-- A command's output lies in its destination range, which passed the check of R60. -/
theorem bodyOf_keeps_memTrue {i : Instr} {l : Latch} {s u : State} (hs : MemTrue s)
    (hv : rangesValid (Config.memBytes s.memSize) i l = true) (h : bodyOf i l s = .ok u) : MemTrue u := by
  unfold MemTrue
  rw [(bodyOf_frame h).memSize]
  rcases bodyOf_mem h with hm | ⟨hd, vs, hlen, hm⟩ <;> rw [hm]
  · exact hs
  · refine ⟨Memory.wf_writeBytes _ _ hs.1, Memory.within_writeBytes hs.2 ?_⟩
    have := destRange_inMem hv hd
    rcases Nat.eq_zero_or_pos vs.length with h0 | h0
    · exact .inl (List.eq_nil_of_length_eq_zero h0)
    · exact .inr (by omega)

theorem memTrue_writeTarget (tg : Target) (sz : AccessSize) (d : Word) {s : State} (h : MemTrue s)
    (hin : ∀ a, tg = .mem a → a + sz.bytes ≤ Config.memBytes s.memSize) : MemTrue (writeTarget tg sz d s) := by
  cases tg with
  | cmd => rw [writeTarget, writeCmd]; split <;> exact h
  | ctrl =>
    rcases writeCtrl_cases d s with ⟨_, he⟩ | ⟨_, he⟩ <;> rw [writeTarget, he]
    · unfold MemTrue
      rw [softReset_mem, softReset_memSize, ← abandon_memSize s]
      exact memTrue_abandon h
    · exact h
  | mem a =>
    exact ⟨Memory.wf_writeBytes _ _ h.1, Memory.within_writeBytes h.2 (.inr (by rw [leBytes_length]; exact hin a rfl))⟩
  | _ => exact h

theorem memTrue_step {s t : State} (hs : MemTrue s) (h : step s = .next t) : MemTrue t := by
  refine step_keeps (P := MemTrue) ?take ?command ?bad ?answerR ?answerW ?conflictR ?conflictW ?write ?reset hs h
  case take => exact fun _ h => h
  case command =>
    intro i l s t hs _ h
    obtain ⟨l, _, ⟨c, n, rfl⟩ | ⟨u, _, hv, hb, rfl⟩⟩ := exec_next h
    · exact memTrue_raiseError l c n hs
    · have hu : MemTrue u := bodyOf_keeps_memTrue hs hv hb
      exact hu
  case bad => exact fun l _ h _ => memTrue_raiseError l _ _ h
  case answerR => exact fun _ _ _ h => h
  case answerW => exact fun _ _ h => h
  case conflictR => exact fun _ _ h => h
  case conflictW => exact fun _ h => h
  case write => exact fun tg sz d _ h _ hin => memTrue_writeTarget tg sz d h hin
  case reset => exact fun _ _ => ⟨wf_reset, List.forall_mem_nil _⟩

/-! ### The latch -/

theorem latchTrue_of_idle {s : State} (h : s.latch = none) : LatchTrue s :=
  ⟨fun hb => by simp [State.busy, h] at hb, fun l hl => by simp [h] at hl⟩

theorem latchTrue_issue (w : Word) (s : State) : LatchTrue (issue w s) :=
  ⟨fun _ => ⟨rfl, rfl, rfl, rfl, rfl⟩, fun _ hl => by cases hl; rfl⟩

theorem latchTrue_writeStatus (d : Word) {s : State} (h : LatchTrue s) : LatchTrue (writeStatus d s) := by
  obtain ⟨hr, ho⟩ := h
  refine ⟨fun hb => ?_, ho⟩
  obtain ⟨hd, hrest⟩ := hr hb
  exact ⟨by simp [hd], hrest⟩

theorem latchTrue_writeTarget (tg : Target) (sz : AccessSize) (d : Word) {s : State} (h : LatchTrue s) :
    LatchTrue (writeTarget tg sz d s) := by
  cases tg with
  | cmd =>
    rw [writeTarget, writeCmd]
    split
    · exact h
    · exact latchTrue_issue d s
  | ctrl =>
    rcases writeCtrl_cases d s with ⟨_, he⟩ | ⟨_, he⟩ <;> rw [writeTarget, he]
    · exact latchTrue_of_idle rfl
    · exact h
  | status => exact latchTrue_writeStatus d h
  | _ => exact h

theorem latchTrue_step {s t : State} (hs : LatchTrue s) (h : step s = .next t) : LatchTrue t := by
  refine step_keeps (P := LatchTrue) ?take ?command ?bad ?answerR ?answerW ?conflictR ?conflictW ?write ?reset hs h
  case take => exact fun _ h => h
  case command =>
    intro i l s t _ _ h
    obtain ⟨l, _, ⟨c, n, rfl⟩ | ⟨u, _, _, _, rfl⟩⟩ := exec_next h <;> exact latchTrue_of_idle rfl
  case bad => exact fun _ _ _ _ => latchTrue_of_idle rfl
  case answerR => exact fun _ _ _ h => h
  case answerW => exact fun _ _ h => h
  case conflictR => exact fun _ _ h => h
  case conflictW => exact fun _ h => h
  case write => exact fun tg sz d _ h _ _ => latchTrue_writeTarget tg sz d h
  case reset => exact fun _ _ => latchTrue_of_idle rfl

/-! ### The tables -/

theorem tablesTrue_step {s t : State} (hs : TablesTrue s) (h : step s = .next t) : TablesTrue t := by
  rcases step_tables h with hsame | ⟨hc, _⟩ | ⟨_, l, i, u, _, _, hr, hb, rfl⟩
  · exact hs.of_same hsame
  · exact .of_cleared hc
  · exact (bodyOf_keeps_tablesTrue (hs.of_same (sameTables_takeEvent s)) hr hb).of_same (sameTables_complete u)

/-- Settles O59: each of the three parts of the invariant is kept by every step on its own. -/
theorem everyStepKeepsTheInvariant : Obligations.EveryStepKeepsTheInvariant := by
  intro s t hs h
  obtain ⟨hm, ht, hl⟩ := (inv_iff s).1 hs
  exact (inv_iff t).2 ⟨memTrue_step hm h, tablesTrue_step ht h, latchTrue_step hl h⟩

/-! ### What changes FREQ and sets the flags -/

theorem bodyOf_freq {i : Instr} {l : Latch} {s u : State} (h : bodyOf i l s = .ok u) :
    u.freq = s.freq ∨ i = .deserialize := by
  rcases bodyOf_tables h with ⟨_, hu⟩ | ⟨_, hu⟩ | ⟨hi, _⟩ | hsame
  · rw [buildTreeBody_eq_ok.1 hu]; exact .inl rfl
  · obtain ⟨_, _, rfl⟩ := genCodesBody_eq_ok.1 hu; exact .inl rfl
  · exact .inr hi
  · exact .inl hsame.freq

theorem bodyOf_treeValid {i : Instr} {l : Latch} {s u : State} (h : bodyOf i l s = .ok u) (ht : u.treeValid = true) :
    s.treeValid = true ∨ i = .buildTree := by
  rcases bodyOf_tables h with ⟨hi, _⟩ | ⟨_, hu⟩ | ⟨_, hc⟩ | hsame
  · exact .inr hi
  · obtain ⟨_, _, rfl⟩ := genCodesBody_eq_ok.1 hu; exact .inl ht
  · simp [hc.treeValid] at ht
  · exact .inl (hsame.treeValid ▸ ht)

theorem bodyOf_codesValid {i : Instr} {l : Latch} {s u : State} (h : bodyOf i l s = .ok u) (ht : u.codesValid = true) :
    s.codesValid = true ∨ i = .genCodes := by
  rcases bodyOf_tables h with ⟨_, hu⟩ | ⟨hi, _⟩ | ⟨_, hc⟩ | hsame
  · simp [buildTreeBody_eq_ok.1 hu] at ht
  · exact .inr hi
  · simp [hc.codesValid] at ht
  · exact .inl (hsame.codesValid ▸ ht)

/-- Settles O56: of the steps that touch the tables, a command's effects change FREQ only if it is DESERIALIZE. -/
theorem onlyTheseStepsChangeFreq : Obligations.OnlyTheseStepsChangeFreq := by
  intro s t h hne
  rcases step_tables h with hsame | ⟨_, hr | hw | hf⟩ | ⟨he, l, i, u, hl, hw, _, hb, rfl⟩
  · exact absurd hsame.freq hne
  · exact .inl hr
  · exact .inr (.inl hw)
  · exact .inr (.inr (.inl hf))
  · obtain rfl := (bodyOf_freq hb).resolve_left hne
    exact .inr (.inr (.inr ⟨he, ⟨l, hl, hw⟩, rfl⟩))

/-- Settles O57: of the steps that touch the tables, only BUILD_TREE's effects set TREE_VALID and only GEN_CODES's
CODES_VALID. -/
theorem onlyTheBuildersSetTheFlags : Obligations.OnlyTheBuildersSetTheFlags := by
  intro s t h
  rcases step_tables h with hsame | ⟨hc, _⟩ | ⟨he, l, i, u, hl, hw, _, hb, rfl⟩
  · rw [hsame.treeValid, hsame.codesValid]
    exact ⟨fun hf ht => by simp [hf] at ht, fun hf ht => by simp [hf] at ht⟩
  · exact ⟨fun _ ht => by simp [hc.treeValid] at ht, fun _ ht => by simp [hc.codesValid] at ht⟩
  · refine ⟨fun hf ht => ?_, fun hf ht => ?_⟩
    · obtain rfl := (bodyOf_treeValid hb ht).resolve_left (by simp [hf])
      exact ⟨he, ⟨l, hl, hw⟩, rfl⟩
    · obtain rfl := (bodyOf_codesValid hb ht).resolve_left (by simp [hf])
      exact ⟨he, ⟨l, hl, hw⟩, rfl⟩

end Sys2Proof.Machine
end

section
/-! PROOFS. Which offset names which register or window entry, and the whole step of an OKAY word read and of an OKAY word
write (R41, R43, R107, R113). -/

namespace Sys2Proof.Machine

open Sys2Proof.Claims

/-! ### The address map -/

theorem hostTarget_word (m : MemSize) {n : Nat} (hn : n < 0x10000) (h4 : n % 4 = 0) :
    hostTarget m n .bits32 = wordTarget n := by
  rw [hostTarget, if_neg (by omega), if_pos ⟨rfl, h4⟩]

theorem hostTarget_ofNat (m : MemSize) {n : Nat} (hn : n < 0x10000) (h4 : n % 4 = 0) :
    hostTarget m (BitVec.ofNat 17 n).toNat .bits32 = wordTarget n := by
  rw [BitVec.toNat_ofNat, Nat.mod_eq_of_lt (by omega), hostTarget_word m hn h4]

theorem wordTarget_register {n : Nat} (h : n < 0x400) : wordTarget n = controlRegister n := by
  rw [wordTarget, if_pos h]

theorem wordTarget_freq {n : Nat} (h : 0x400 ≤ n) (h' : n < 0x800) :
    wordTarget n = some (.freq (BitVec.ofNat 8 ((n - 0x400) / 4))) := by
  rw [wordTarget, if_neg (by omega), if_pos h']

theorem wordTarget_codeLen {n : Nat} (h : 0x800 ≤ n) (h' : n < 0xC00) :
    wordTarget n = some (.codeLen (BitVec.ofNat 8 ((n - 0x800) / 4))) := by
  rw [wordTarget, if_neg (by omega), if_neg (by omega), if_pos h']

theorem wordTarget_codeBits {n : Nat} (h : 0x2000 ≤ n) (h' : n < 0x4000) :
    wordTarget n = some (.codeBits (BitVec.ofNat 8 ((n - 0x2000) / 32)) ((n - 0x2000) / 4 % 8)) := by
  rw [wordTarget, if_neg (by omega), if_neg (by omega), if_neg (by omega), if_neg (by omega), if_pos h']

theorem wordTarget_node {n : Nat} (h : 0x4000 ≤ n) (h' : n < 0x5FF0) :
    wordTarget n = some (.node ((n - 0x4000) / 16) ((n - 0x4000) / 4 % 4)) := by
  rw [wordTarget, if_neg (by omega), if_neg (by omega), if_neg (by omega), if_neg (by omega), if_neg (by omega), if_pos h']

/-- A byte is the number it stands for. -/
theorem ofNat_eq_byte {n : Nat} {y : Byte} (h : n = y.toNat) : BitVec.ofNat 8 n = y := by
  rw [h, BitVec.ofNat_toNat, BitVec.setWidth_eq]

/-- FREQ[y] stands at 0x400 + 4·y (R27). -/
theorem hostTarget_freq (m : MemSize) (y : Byte) :
    hostTarget m (BitVec.ofNat 17 (0x400 + 4 * y.toNat)).toNat .bits32 = some (.freq y) := by
  have := y.isLt
  rw [hostTarget_ofNat m (by omega) (by omega), wordTarget_freq (by omega) (by omega), ofNat_eq_byte (y := y) (by omega)]

/-- The CODE_LEN window of y stands at 0x800 + 4·y (R28). -/
theorem hostTarget_codeLen (m : MemSize) (y : Byte) :
    hostTarget m (BitVec.ofNat 17 (0x800 + 4 * y.toNat)).toNat .bits32 = some (.codeLen y) := by
  have := y.isLt
  rw [hostTarget_ofNat m (by omega) (by omega), wordTarget_codeLen (by omega) (by omega), ofNat_eq_byte (y := y) (by omega)]

/-- Word k of the CODE_BITS window of y stands at 0x2000 + 32·y + 4·k (R29). -/
theorem hostTarget_codeBits (m : MemSize) (y : Byte) {k : Nat} (hk : k < 8) :
    hostTarget m (BitVec.ofNat 17 (0x2000 + 32 * y.toNat + 4 * k)).toNat .bits32 = some (.codeBits y k) := by
  have := y.isLt
  rw [hostTarget_ofNat m (by omega) (by omega), wordTarget_codeBits (by omega) (by omega), ofNat_eq_byte (y := y) (by omega),
    show (0x2000 + 32 * y.toNat + 4 * k - 0x2000) / 4 % 8 = k by omega]

/-- Word w of NODE[i] stands at 0x4000 + 16·i + 4·w (R31). -/
theorem hostTarget_node (m : MemSize) {i w : Nat} (hi : i < 511) (hw : w < 4) :
    hostTarget m (BitVec.ofNat 17 (0x4000 + 16 * i + 4 * w)).toNat .bits32 = some (.node i w) := by
  rw [hostTarget_ofNat m (by omega) (by omega), wordTarget_node (by omega) (by omega),
    show (0x4000 + 16 * i + 4 * w - 0x4000) / 16 = i by omega,
    show (0x4000 + 16 * i + 4 * w - 0x4000) / 4 % 4 = w by omega]

/-! ### Word reads and word writes -/

theorem takeEvent_eq {s : State} {e : HostEvent} {es : List HostEvent} (h : s.hostQueue = e :: es) :
    s.takeEvent = { s with hostQueue := es } := by
  rw [State.takeEvent, h, List.tail_cons]

theorem readTarget_hostQueue (tg : Target) (sz : AccessSize) (s : State) (es : List HostEvent) :
    readTarget tg sz { s with hostQueue := es } = readTarget tg sz s := by
  cases tg <;> rfl

/-- An access while BUSY = 0, or to a register, is no conflicting access (R112). -/
theorem not_conflicting {s : State} {tg : Target} (hb : s.latch = none ∨ tg.isWindow = false) :
    (s.busy && tg.isWindow) = false := by
  rcases hb with hb | hb <;> simp [State.busy, hb]

/-- While it is no conflicting access, a word read answers the value of its target and changes nothing else. -/
theorem step_read {s : State} {es : List HostEvent} {off : HostOffset} {tg : Target} {v : Word}
    (hq : s.hostQueue = .read off .bits32 :: es) (ht : hostTarget s.memSize off.toNat .bits32 = some tg)
    (hb : s.latch = none ∨ tg.isWindow = false) (hv : readTarget tg .bits32 s = .ok v) :
    step s = .next (didRead s es v) := by
  have hc : (({ s with hostQueue := es } : State).busy && tg.isWindow) = false := not_conflicting hb
  rw [step_cons hq, takeEvent_eq hq]
  simp only [hostEvent, hostRead, ht, hc, readTarget_hostQueue, hv]
  rfl

/-- While it is no conflicting access, a word write has the effect of its target and is answered. -/
theorem step_write {s : State} {es : List HostEvent} {off : HostOffset} {tg : Target} {d : Word}
    (hq : s.hostQueue = .write off .bits32 d :: es) (ht : hostTarget s.memSize off.toNat .bits32 = some tg)
    (hb : s.latch = none ∨ tg.isWindow = false) :
    step s = .next (answerWrite .okay (writeTarget tg .bits32 d { s with hostQueue := es })) := by
  have hc : (({ s with hostQueue := es } : State).busy && tg.isWindow) = false := not_conflicting hb
  rw [step_cons hq, takeEvent_eq hq]
  simp only [hostEvent, hostWrite, ht, hc]
  rfl

/-- A target that a write leaves alone (R44). -/
def Target.ReadOnly (tg : Target) : Prop := ∀ sz d s, writeTarget tg sz d s = s

theorem step_write_readOnly {s : State} {es : List HostEvent} {off : HostOffset} {tg : Target} {d : Word}
    (hq : s.hostQueue = .write off .bits32 d :: es) (ht : hostTarget s.memSize off.toNat .bits32 = some tg)
    (hb : s.latch = none ∨ tg.isWindow = false) (hr : tg.ReadOnly) : step s = .next (wrote s es) := by
  rw [step_write hq ht hb, hr]
  rfl

theorem readOnly_codeLen (y : Byte) : (Target.codeLen y).ReadOnly := fun _ _ _ => rfl

theorem readOnly_codeBits (y : Byte) (k : Nat) : (Target.codeBits y k).ReadOnly := fun _ _ _ => rfl

theorem readOnly_node (i w : Nat) : (Target.node i w).ReadOnly := fun _ _ _ => rfl

/-- ID, PARAMS and the registers from RES0 to ROOT are read-only (R16, R17, R22–R26). -/
theorem controlRegister_readOnly {n : Nat} (h4 : n % 4 = 0) (h : n < 0x08 ∨ 0x24 ≤ n ∧ n < 0x38) :
    ∃ tg, controlRegister n = some tg ∧ tg.isWindow = false ∧ tg.ReadOnly := by
  have : n = 0 ∨ n = 4 ∨ n = 0x24 ∨ n = 0x28 ∨ n = 0x2C ∨ n = 0x30 ∨ n = 0x34 := by omega
  rcases this with rfl | rfl | rfl | rfl | rfl | rfl | rfl <;> exact ⟨_, rfl, rfl, fun _ _ _ => rfl⟩

end Sys2Proof.Machine
end

section
/-! PROOFS. The registers (R16–R26, R38, R120) and the table windows (R27–R31). -/

namespace Sys2Proof.Machine

open Sys2Proof.Claims

/-! ### Register words -/

theorem ctrlWord_eq (s : State) : ctrlWord s = if s.irqEn then 1#32 else 0#32 := by
  unfold ctrlWord; cases s.irqEn <;> rfl

theorem writeStatus_eq (d : Word) (s : State) :
    writeStatus d s = { s with
      done := if d.getLsbD 1 then false else s.done
      hostConflict := if d.getLsbD 4 then false else s.hostConflict } := by
  unfold writeStatus; cases d.getLsbD 1 <;> cases d.getLsbD 4 <;> simp

/-- PARAMS gives MEM_BYTES by its exponent (R17). -/
theorem paramsWord_fields (m : MemSize) :
    2 ^ ((paramsWord m).toNat % 256) = Config.memBytes m ∧ (paramsWord m).toNat / 256 = 0x01FFFF := by
  cases m <;> decide

/-- A hardware reset puts every element of R138's table at its reset value. -/
theorem atReset_hardwareReset {s u : State} (h : u.memSize = s.memSize) : AtReset s (hardwareReset u) :=
  have hstatus : statusWord State.reset = 0#32 := by decide
  ⟨hstatus, rfl, rfl, rfl, rfl, rfl, rfl, rfl, rfl, rfl, rfl, freqOf_emptyFreq, rfl, rfl, rfl, rfl, h⟩

/-- So does a soft reset, whatever the queue and the answer. -/
theorem atReset_softReset (s : State) : AtReset s (softReset s) := atReset_hardwareReset (abandon_memSize s)

/-- STATUS as a sum of its fields, each times the weight of its lowest bit (R20). -/
theorem statusWord_toNat (s : State) :
    (statusWord s).toNat = s.busy.toNat + 2 * s.done.toNat + 4 * s.treeValid.toNat + 8 * s.codesValid.toNat +
      16 * s.hostConflict.toNat + 256 * s.err.code.toNat + 4096 * s.lastOpc.toNat := by
  show (0#16 ++ s.lastOpc ++ s.err.code ++ 0#3 ++ BitVec.ofBool s.hostConflict ++ BitVec.ofBool s.codesValid
    ++ BitVec.ofBool s.treeValid ++ BitVec.ofBool s.done ++ BitVec.ofBool s.busy).toNat = _
  simp only [toNat_append_eq, BitVec.toNat_ofNat, BitVec.toNat_ofBool]
  omega

theorem getLsbD_eq_of_toNat {x : Word} {i : Nat} {b : Bool} (h : x.toNat / 2 ^ i % 2 = b.toNat) : x.getLsbD i = b := by
  rw [BitVec.getLsbD, Nat.testBit_eq_decide_div_mod_eq, h]
  cases b <;> rfl

theorem extractLsb'_eq_of_toNat {x : Word} {i m : Nat} {y : BitVec m} (h : x.toNat / 2 ^ i % 2 ^ m = y.toNat) :
    x.extractLsb' i m = y :=
  BitVec.eq_of_toNat_eq (by rw [BitVec.extractLsb'_toNat, Nat.shiftRight_eq_div_pow, h])

/-- Settles O11: every field is a digit of the sum that STATUS is. -/
theorem statusWordLayout : Obligations.StatusWordLayout := by
  refine ⟨fun s => ?_, ⟨rfl, rfl, rfl, rfl, rfl, rfl, rfl, rfl⟩, fun s es hq => step_read hq rfl (.inr rfl) rfl⟩
  have hsum := statusWord_toNat s
  have hbusy := s.busy.toNat_le
  have hdone := s.done.toNat_le
  have htree := s.treeValid.toNat_le
  have hcodes := s.codesValid.toNat_le
  have hconflict := s.hostConflict.toNat_le
  have herr := s.err.code.isLt
  have hopc := s.lastOpc.isLt
  exact ⟨getLsbD_eq_of_toNat (by omega), getLsbD_eq_of_toNat (by omega), getLsbD_eq_of_toNat (by omega),
    getLsbD_eq_of_toNat (by omega), getLsbD_eq_of_toNat (by omega),
    extractLsb'_eq_of_toNat (by rw [BitVec.toNat_ofNat]; omega), extractLsb'_eq_of_toNat (by omega),
    extractLsb'_eq_of_toNat (by omega), extractLsb'_eq_of_toNat (by rw [BitVec.toNat_ofNat]; omega)⟩

/-- Settles O12: STATUS is no window, so its write acts while BUSY is 0 or 1. -/
theorem statusWriteClearsOnes : Obligations.StatusWriteClearsOnes := by
  intro s es d hq
  rw [step_write hq rfl (.inr rfl), writeTarget, writeStatus_eq]
  rfl

/-- Settles O13, by the two cases of a write to CTRL. -/
theorem ctrlWriteAndRead : Obligations.CtrlWriteAndRead := by
  refine ⟨fun s es d hq hd => ?_, fun s es d hq hd => ?_, fun s es hq => ?_, rfl⟩
  · rw [step_write hq rfl (.inr rfl), writeTarget,
      ((writeCtrl_cases d _).resolve_left fun h => Bool.false_ne_true (hd.symm.trans h.1)).2]
    rfl
  · refine ⟨_, step_write hq rfl (.inr rfl), ?_⟩
    rw [writeTarget, ((writeCtrl_cases d _).resolve_right fun h => Bool.false_ne_true (h.1.symm.trans hd)).2]
    exact atReset_softReset { s with hostQueue := es }
  · exact step_read hq rfl (.inr rfl) (congrArg Except.ok (ctrlWord_eq s))

/-- Settles O14: the argument registers are no windows, so their reads and writes act while BUSY is 0 or 1. -/
theorem argumentRegistersReadBack : Obligations.ArgumentRegistersReadBack := by
  refine ⟨fun s es v => ⟨?w0, ?w1, ?w2, ?w3⟩, fun s es => ⟨?r0, ?r1, ?r2, ?r3⟩, rfl, rfl, rfl, rfl⟩
  case w0 | w1 | w2 | w3 => exact fun hq => step_write hq rfl (.inr rfl)
  case r0 | r1 | r2 | r3 => exact fun hq => step_read hq rfl (.inr rfl) rfl

/-- Settles O15: each register's read, and for the writes the read-only target of each range of offsets. -/
theorem readOnlyRegisters : Obligations.ReadOnlyRegisters := by
  refine ⟨fun s es => ⟨?id, ?params, ?cmd, ?res0, ?res1, ?errInfo, ?nleaf, ?root⟩, fun s es off d hq h4 h => ?write⟩
  case id | cmd | res0 | res1 | errInfo => exact fun hq => step_read hq rfl (.inr rfl) rfl
  case params => exact fun hq => ⟨_, step_read hq rfl (.inr rfl) rfl, paramsWord_fields s.memSize⟩
  case nleaf | root => exact fun hq => step_read hq rfl (.inr rfl) (congrArg Except.ok (BitVec.ofNat_toNat 32 _).symm)
  case write =>
    have hword := hostTarget_word s.memSize (n := off.toNat) (by omega) h4
    have register (h' : off.toNat < 0x08 ∨ 0x24 ≤ off.toNat ∧ off.toNat < 0x38) : step s = .next (wrote s es) := by
      obtain ⟨tg, htg, hw, hro⟩ := controlRegister_readOnly h4 h'
      exact step_write_readOnly hq (hword.trans ((wordTarget_register (by omega)).trans htg)) (.inr hw) hro
    rcases h with h | h | ⟨hl, hlo, hhi⟩ | ⟨hl, hlo, hhi⟩
    · exact register (.inl h)
    · exact register (.inr h)
    · exact step_write_readOnly hq (hword.trans (wordTarget_codeLen hlo hhi)) (.inl hl) (readOnly_codeLen _)
    · rcases Nat.lt_or_ge off.toNat 0x4000 with h' | h'
      · exact step_write_readOnly hq (hword.trans (wordTarget_codeBits hlo h')) (.inl hl) (readOnly_codeBits _ _)
      · exact step_write_readOnly hq (hword.trans (wordTarget_node h' hhi)) (.inl hl) (readOnly_node _ _)

/-! ### The table windows -/

/-- Settles O21: the address of FREQ[y] reaches FREQ[y] and no other entry. -/
theorem freqWriteClearsTheTree : Obligations.FreqWriteClearsTheTree := by
  intro s es y v hl
  refine ⟨fun hq => ⟨_, step_write hq (hostTarget_freq _ y) (.inl hl), rfl, fun x => ?_⟩, fun hq => ?_⟩
  · show freqOf (setFreq s.freq y v) x = _
    simp only [freqOf_setFreq, eq_comm]
  · exact step_read hq (hostTarget_freq _ y) (.inl hl) rfl

/-- A code as the windows show it: the code of a valid entry while CODES_VALID = 1, nothing for every other (R28, R29). -/
theorem shownCode_valid {s : State} {y : Byte} {p : Bits} (hv : s.codesValid = true) (hp : codeOf s.codes y = some p) :
    shownCode s y = some p := by
  rw [shownCode, if_pos hv, hp]

theorem shownCode_invalid {s : State} {y : Byte} (h : s.codesValid = false ∨ codeOf s.codes y = none) :
    shownCode s y = none := by
  rcases h with h | h <;> simp [shownCode, h]

theorem getLsbD_one_shiftLeft {m n : Nat} (hm : m < 32) (hn : n < 32) :
    (1#32 <<< (31 - n)).getLsbD (31 - m) = decide (m = n) := by
  rw [BitVec.getLsbD_shiftLeft, BitVec.getLsbD_one, Bool.eq_iff_iff]
  simp
  omega

/-- What setting bit 31 − n if `b` does to bit 31 − m. -/
theorem getLsbD_setBit (acc : Word) (b : Bool) {m n : Nat} (hm : m < 32) (hn : n < 32) :
    (if b then acc ||| (1#32 <<< (31 - n)) else acc).getLsbD (31 - m) =
      (acc.getLsbD (31 - m) || (decide (m = n) && b)) := by
  cases b
  · simp
  · rw [if_pos rfl, BitVec.getLsbD_or, getLsbD_one_shiftLeft hm hn, Bool.and_true]

/-- Bit 31 − m of the word that collects the bits `f 0`, `f 1`, … of the first n values is `f m`, or 0 from n on. -/
theorem getLsbD_foldl_range (f : Nat → Bool) {n : Nat} (hn : n ≤ 32) {m : Nat} (hm : m < 32) :
    ((List.range n).foldl (fun acc m => if f m then acc ||| (1#32 <<< (31 - m)) else acc) 0#32).getLsbD (31 - m) =
      (decide (m < n) && f m) := by
  induction n with
  | zero => simp
  | succ n ih =>
    rw [List.range_succ, List.foldl_append, List.foldl_cons, List.foldl_nil, getLsbD_setBit _ _ hm (by omega),
      ih (by omega)]
    rcases eq_or_ne m n with rfl | hne
    · simp
    · simp [hne, le_iff_lt_or_eq]

/-- Bit 31 − m of word k of the CODE_BITS window is bit 32·k + m of the code, 0 past its end (R29). -/
theorem codeBitsWord_bit (p : Bits) (k : Nat) {m : Nat} (hm : m < 32) :
    (codeBitsWord (some p) k).getLsbD (31 - m) = p.getD (32 * k + m) false := by
  rw [codeBitsWord, getLsbD_foldl_range (fun m => p.getD (32 * k + m) false) le_rfl hm]
  simp [hm]

/-- Settles O22: the windows show `shownCode`, whose bits `codeBitsWord_bit` gives. -/
theorem codeWindows : Obligations.CodeWindows := by
  intro s es y hl
  refine ⟨fun hq => ⟨fun p hv hp => ?_, fun h => ?_⟩, fun d hq => ?_, fun k d hk hq => ?_,
    fun k hk hq => ⟨fun p hv hp => ⟨codeBitsWord (some p) k, ?_, fun m hm => codeBitsWord_bit p k hm⟩, fun h => ?_⟩⟩
  · exact step_read hq (hostTarget_codeLen _ y) (.inl hl) (by rw [readTarget, shownCode_valid hv hp]; rfl)
  · exact step_read hq (hostTarget_codeLen _ y) (.inl hl) (by rw [readTarget, shownCode_invalid h]; rfl)
  · exact step_write_readOnly hq (hostTarget_codeLen _ y) (.inl hl) (readOnly_codeLen y)
  · exact step_write_readOnly hq (hostTarget_codeBits _ y hk) (.inl hl) (readOnly_codeBits y k)
  · exact step_read hq (hostTarget_codeBits _ y hk) (.inl hl) (by rw [readTarget, shownCode_valid hv hp])
  · exact step_read hq (hostTarget_codeBits _ y hk) (.inl hl) (by rw [readTarget, shownCode_invalid h]; rfl)

/-- BuildTree makes NNODES entries (R30, R75). -/
theorem buildTree_nodes_length (f : FreqTable) : (buildTree f).nodes.length = nnodes (buildTree f).n := by
  rw [buildTree_n]
  by_cases hp : presentPairs f = []
  · rw [buildTree_empty hp, hp]; rfl
  · obtain ⟨k, hinv, _⟩ := buildTree_inv hp
    have hcount := hinv.count
    have hpos := List.length_pos_iff.2 hp
    rw [List.length_singleton] at hcount
    rw [nnodes, if_neg (by omega)]
    omega

/-- While TREE_VALID = 1 the node store holds the entries 0..NNODES−1 and no others (R30, R34). -/
theorem State.Inv.nodes_length {s : State} (h : s.Inv) (hv : s.treeValid = true) :
    s.nodes.length = nnodes s.nleaf.toNat := by
  obtain ⟨hn, hl, _⟩ := h.tree hv
  have := presentPairs_length_le s.freq
  rw [← buildTree_n] at this
  rw [hn, hl, buildTree_nodes_length, BitVec.toNat_ofNat, Nat.mod_eq_of_lt (by omega)]

/-- Settles O23: by the invariant the valid entries are exactly those of the node store. -/
theorem nodeWindow : Obligations.NodeWindow := by
  intro s es i w hinv hi hw hl
  have ht := hostTarget_node s.memSize hi hw
  refine ⟨fun hq => ⟨fun hv hlt => ?_, fun h => ?_⟩, fun d hq => step_write_readOnly hq ht (.inl hl) (readOnly_node i w)⟩
  · have hlen : i < s.nodes.length := by rw [hinv.nodes_length hv]; exact hlt
    refine ⟨s.nodes[i], _, List.getElem?_eq_getElem hlen, step_read hq ht (.inl hl) rfl, ?_⟩
    rw [shownNode, if_pos hv, List.getElem?_eq_getElem hlen]
    exact nodeWords_getElem? _ hw
  · have hnone : shownNode s i = none := by
      cases hv : s.treeValid with
      | false => rw [shownNode, hv]; rfl
      | true =>
        have hge : nnodes s.nleaf.toNat ≤ i := h.resolve_left (by simp [hv])
        rw [shownNode, if_pos hv, List.getElem?_eq_none (by rw [hinv.nodes_length hv]; exact hge)]
    exact step_read hq ht (.inl hl) (by rw [readTarget, hnone]; rfl)

end Sys2Proof.Machine
end

section
/-! PROOFS. Which bytes a command reads and which it writes (R40, R61, R63). Every loop of every command stays in the source
range, so two memories that agree there give the same run but for the bytes the command left alone. -/

namespace Sys2Proof.Machine

open Sys2Proof.Claims

/-! ### Reads of two memories that agree on a range -/

/-- The memories `m` and `m'` agree on the range (a, n). -/
def AgreeOn (m m' : Memory) (a n : Nat) : Prop :=
  ∀ b, a ≤ b → b < a + n → Memory.read m' b = Memory.read m b

/-- They agree on every range inside it. -/
theorem AgreeOn.sub {m m' : Memory} {a n b k : Nat} (h : AgreeOn m m' a n) (hl : a ≤ b) (hr : b + k ≤ a + n) :
    AgreeOn m m' b k :=
  fun x h1 h2 => h x (by omega) (by omega)

theorem AgreeOn.readByte {m m' : Memory} {a n b : Nat} (h : AgreeOn m m' a n) (hl : a ≤ b) (hr : b < a + n) :
    readByte m' b = readByte m b := by
  rw [Machine.readByte, Machine.readByte, h b hl hr]

theorem AgreeOn.readMany {m m' : Memory} {a n : Nat} (h : AgreeOn m m' a n) :
    Memory.readMany m' a n = Memory.readMany m a n := by
  induction n generalizing a with
  | zero => rfl
  | succ n ih =>
    rw [Memory.readMany, Memory.readMany, h a (by omega) (by omega), ih (h.sub (by omega) (by omega))]

theorem AgreeOn.readBytes {m m' : Memory} {a n : Nat} (h : AgreeOn m m' a n) : readBytes m' a n = readBytes m a n := by
  rw [Machine.readBytes, Machine.readBytes, h.readMany]

/-- The payload bits of a range of bytes are those of its bytes (R48). -/
theorem AgreeOn.payloadBit {m m' : Memory} {a len j : Nat} (h : AgreeOn m m' a (ceil8 len)) (hj : j < len) :
    payloadBit m' a j = payloadBit m a j := by
  have := lt_ceil8 hj
  rw [Machine.payloadBit, Machine.payloadBit, h.readByte (by omega) (by omega)]

/-! ### The loops of the commands -/

/-- ENCODE reads its a1 symbols (R87). -/
theorem AgreeOn.encodeFrom {m m' : Memory} {a0 : Nat} (c : CodeTable) (cap n i : Nat) (bits : Bits)
    (h : AgreeOn m m' a0 (i + n)) : encodeFrom c m' a0 cap n i bits = encodeFrom c m a0 cap n i bits := by
  induction n generalizing i bits with
  | zero => rfl
  | succ n ih =>
    have htail (more : Bits) := ih (i + 1) more (h.sub (by omega) (by omega))
    simp only [Machine.encodeFrom, h.readByte (Nat.le_add_right a0 i) (by omega), htail]

/-- The loop of a single leaf reads the payload's bits (R89). -/
theorem AgreeOn.decodeLeafFrom {m m' : Memory} {a0 : Nat} (sym : Byte) (cap n j : Nat) (out : List Byte)
    (h : AgreeOn m m' a0 (ceil8 (j + n))) :
    decodeLeafFrom sym m' a0 cap n j out = decodeLeafFrom sym m a0 cap n j out := by
  induction n generalizing j out with
  | zero => rfl
  | succ n ih =>
    have htail (more : List Byte) := ih (j + 1) more (by rwa [Nat.add_right_comm])
    simp only [Machine.decodeLeafFrom, h.payloadBit (j := j) (by omega), htail]

/-- The tree walk of DECODE reads the payload's bits (R88). -/
theorem AgreeOn.decodeFrom {m m' : Memory} {a0 : Nat} (nodes : List Node) (root : NodeIdx) (cap n j : Nat) (cur : NodeIdx)
    (out : List Byte) (h : AgreeOn m m' a0 (ceil8 (j + n))) :
    decodeFrom nodes root m' a0 cap n j cur out = decodeFrom nodes root m a0 cap n j cur out := by
  induction n generalizing j cur out with
  | zero => rfl
  | succ n ih =>
    have htail (next : NodeIdx) (more : List Byte) := ih (j + 1) next more (by rwa [Nat.add_right_comm])
    simp only [Machine.decodeFrom, h.payloadBit (j := j) (by omega), htail]

theorem AgreeOn.decodePayload {m m' : Memory} {a0 len : Nat} (nodes : List Node) (n : Nat) (root : NodeIdx) (cap : Nat)
    (h : AgreeOn m m' a0 (ceil8 len)) :
    decodePayload nodes n root m' a0 len cap = decodePayload nodes n root m a0 len cap := by
  have h0 : AgreeOn m m' a0 (ceil8 (0 + len)) := by rwa [Nat.zero_add]
  simp only [Machine.decodePayload, h0.decodeLeafFrom, h0.decodeFrom]

/-- Parse's pair loop reads its pairs (R99). -/
theorem AgreeOn.parsePairs {m m' : Memory} {a0 : Nat} (n k : Nat) (f : FreqTable) (seen : List Byte)
    (h : AgreeOn m m' a0 (2 + 5 * (k + n))) : parsePairs m' a0 n k f seen = parsePairs m a0 n k f seen := by
  induction n generalizing k f seen with
  | zero => rfl
  | succ n ih =>
    have htail (g : FreqTable) (more : List Byte) := ih (k + 1) g more (h.sub (by omega) (by omega))
    have hcount : AgreeOn m m' (a0 + 3 + 5 * k) 4 := h.sub (by omega) (by omega)
    simp only [Machine.parsePairs, h.readByte (b := a0 + 2 + 5 * k) (by omega) (by omega), hcount.readBytes, htail]

/-- The padding bits stand in the payload's last byte (R99). -/
theorem AgreeOn.checkPadding {m m' : Memory} {base len : Nat} (off : Nat) (h : AgreeOn m m' base (ceil8 len)) :
    checkPadding m' base off len = checkPadding m base off len := by
  unfold Machine.checkPadding
  split
  · next hpad => rw [h.readByte (by omega) (by omega)]
  · rfl

/-- The payload is read only once the container's size is found to be T(n, len) (R99). -/
theorem AgreeOn.parsePayload {m m' : Memory} {a0 size : Nat} (n len : Nat) (h : AgreeOn m m' a0 size) :
    parsePayload m' a0 size n len = parsePayload m a0 size n len := by
  simp only [Machine.parsePayload]
  split
  · rfl
  · have hp : AgreeOn m m' (a0 + 6 + 5 * n) (ceil8 len) := h.sub (by omega) (by omega)
    rw [hp.checkPadding, hp.readBytes]

/-- COUNT's pairs and BITLEN are read only once the container is found to hold them (R99). -/
theorem AgreeOn.parseTable {m m' : Memory} {a0 size : Nat} (n : Nat) (h : AgreeOn m m' a0 size) :
    parseTable m' a0 size n = parseTable m a0 size n := by
  simp only [Machine.parseTable]
  split
  · rfl
  · split
    · rfl
    · have hpairs : AgreeOn m m' a0 (2 + 5 * (0 + n)) := h.sub (by omega) (by omega)
      have hlen : AgreeOn m m' (a0 + 2 + 5 * n) 4 := h.sub (by omega) (by omega)
      simp only [hpairs.parsePairs, hlen.readBytes, h.parsePayload]

theorem AgreeOn.parse {m m' : Memory} {a0 size : Nat} (h : AgreeOn m m' a0 size) : parse m' a0 size = parse m a0 size := by
  unfold Machine.parse
  split
  · rfl
  · have hcount : AgreeOn m m' a0 2 := h.sub (by omega) (by omega)
    simp only [hcount.readBytes, h.parseTable]

/-! ### Two runs that differ in the memory they found -/

/-- `t'` is `t` but for bytes that kept the value `m'` had for them where `t` kept the value of `m`. -/
def SameButKept (m m' : Memory) (t t' : State) : Prop :=
  t' = { t with mem := t'.mem } ∧
    ∀ a, Memory.read t'.mem a = Memory.read t.mem a ∨
      (Memory.read t'.mem a = Memory.read m' a ∧ Memory.read t.mem a = Memory.read m a)

/-- The two runs end alike. -/
inductive SameRun (m m' : Memory) : Run State → Run State → Prop
  | error (e : Abort) : SameRun m m' (.error e) (.error e)
  | ok {u u' : State} (h : SameButKept m m' u u') : SameRun m m' (.ok u) (.ok u')

/-- States that differ in MEM only, where the same bytes were written to the same place. -/
theorem sameButKept_of_writeBytes {m m' : Memory} {u u' : State} (a : Nat) (vs : List Byte)
    (hrest : u' = { u with mem := u'.mem }) (hm : u.mem = Memory.writeBytes m a vs)
    (hm' : u'.mem = Memory.writeBytes m' a vs) : SameButKept m m' u u' := by
  refine ⟨hrest, fun b => ?_⟩
  rw [hm, hm', Memory.read_writeBytes, Memory.read_writeBytes]
  split
  · exact .inl rfl
  · exact .inr ⟨rfl, rfl⟩

/-- A failure draws the same free values (R123). -/
theorem sameButKept_raiseError (l : Latch) (c : ErrCode) (n : Nat) (s : State) (m' : Memory) :
    SameButKept s.mem m' (raiseError l c n s) (raiseError l c n { s with mem := m' }) := by
  refine ⟨by cases c <;> rfl, fun b => ?_⟩
  simp only [read_raiseError]
  split
  · exact .inl rfl
  · exact .inr ⟨rfl, rfl⟩

theorem SameButKept.complete {m m' : Memory} {u u' : State} (h : SameButKept m m' u u') :
    SameButKept m m' (complete u) (complete u') :=
  ⟨congrArg Machine.complete h.1, h.2⟩

theorem sameRun_bind {α : Type} {m m' : Memory} (r : Run α) {f f' : α → Run State} (h : ∀ a, SameRun m m' (f a) (f' a)) :
    SameRun m m' (r >>= f) (r >>= f') := by
  cases r with
  | error e => exact .error e
  | ok a => exact h a

/-- No command's effects depend on a byte outside its source range (R40, R61). -/
theorem bodyOf_sameRun {i : Instr} {l : Latch} {s : State} {m' : Memory}
    (h : ∀ a n, sourceRange i l = some (a, n) → AgreeOn s.mem m' a n) :
    SameRun s.mem m' (bodyOf i l s) (bodyOf i l { s with mem := m' }) := by
  cases i with
  | buildTree => exact .ok (sameButKept_of_writeBytes 0 [] rfl rfl rfl)
  | genCodes => exact sameRun_bind _ fun _ => .ok (sameButKept_of_writeBytes 0 [] rfl rfl rfl)
  | encode =>
    have hsrc : AgreeOn s.mem m' l.a0.toNat (0 + l.a1.toNat) := by rw [Nat.zero_add]; exact h _ _ rfl
    simp only [bodyOf, encodeBody, hsrc.encodeFrom]
    exact sameRun_bind _ fun _ => .ok (sameButKept_of_writeBytes _ _ rfl rfl rfl)
  | decode =>
    simp only [bodyOf, decodeBody, (h _ _ rfl).decodePayload]
    exact sameRun_bind _ fun _ => .ok (sameButKept_of_writeBytes _ _ rfl rfl rfl)
  | serialize =>
    simp only [bodyOf, serializeBody, (h _ _ rfl).readBytes]
    split
    · exact .error _
    · exact sameRun_bind _ fun _ => .ok (sameButKept_of_writeBytes _ _ rfl rfl rfl)
  | deserialize =>
    simp only [bodyOf, deserializeBody, (h _ _ rfl).parse]
    refine sameRun_bind _ fun c => ?_
    split
    · exact .error _
    · exact .ok (sameButKept_of_writeBytes _ _ rfl rfl rfl)

/-- The common checks read no byte of MEM (R63). -/
theorem preCheck_mem (i : Instr) (l : Latch) (s : State) (m' : Memory) :
    preCheck i l { s with mem := m' } = preCheck i l s := by
  cases i <;> rfl

/-- Runs that end alike give commands that end alike. -/
theorem finish_sameRun {l : Latch} {s : State} {m' : Memory} {r r' : Run State} (h : SameRun s.mem m' r r') :
    (∀ f, finish l s r = .fault f → finish l { s with mem := m' } r' = .fault f) ∧
      ∀ t, finish l s r = .next t → ∃ t', finish l { s with mem := m' } r' = .next t' ∧ SameButKept s.mem m' t t' := by
  cases h with
  | ok hu => exact ⟨nofun, fun t ht => ⟨_, rfl, Host.Outcome.next.inj ht ▸ hu.complete⟩⟩
  | error e =>
    cases e with
    | error c n => exact ⟨nofun, fun t ht => ⟨_, rfl, Host.Outcome.next.inj ht ▸ sameButKept_raiseError l c n s m'⟩⟩
    | fault f => exact ⟨fun _ h => h, fun t ht => by simp [finish] at ht⟩

/-- Settles O30: the checks read no byte, the body reads only its source range, and a failure draws the same values. -/
theorem commandReadsOnlyItsSource : Obligations.CommandReadsOnlyItsSource := by
  intro i s l m' hl hsrc
  have hagree : ∀ a n, sourceRange i l = some (a, n) → AgreeOn s.mem m' a n := by
    intro a n hr
    cases i <;> cases hr <;> exact hsrc
  simp only [exec_eq_runCommand, runCommand_latch (s := s) hl, runCommand_latch (s := { s with mem := m' }) hl, preCheck_mem]
  exact finish_sameRun (sameRun_bind _ fun _ => bodyOf_sameRun hagree)

/-! ### The bytes a command writes -/

theorem sameOutside_writeBytes (m : Memory) (a : Nat) {vs : List Byte} {n : Nat} (h : vs.length ≤ n) :
    SameOutside m (Memory.writeBytes m a vs) a n :=
  fun b hb => Memory.read_writeBytes_outside m a vs b (by omega)

theorem sameOutside_raiseError (l : Latch) (c : ErrCode) (n : Nat) (s : State) :
    SameOutside s.mem (raiseError l c n s).mem l.a2.toNat l.a3.toNat :=
  fun b hb => by rw [read_raiseError, if_neg (by omega)]

/-- A command without a destination range raises no error of its own (R77, R83). -/
theorem bodyOf_ne_error {i : Instr} {l : Latch} (h : destRange i l = none) (s : State) (c : ErrCode) (n : Nat) :
    bodyOf i l s ≠ .error (.error c n) := by
  intro hb
  cases i with
  | buildTree => cases hb
  | genCodes =>
    rcases Run.bind_eq_error.1 hb with hb | ⟨_, _, hb⟩
    · obtain ⟨_, hk⟩ := genCodes_eq_error hb
      cases hk
    · cases hb
  | _ => cases h

/-- A command without a destination range leaves MEM as it is. -/
theorem exec_mem_of_noDest {i : Instr} {s t : State} {l : Latch} (hl : s.latch = some l) (hd : destRange i l = none)
    (h : exec i s = .next t) : t.mem = s.mem := by
  rw [exec_eq_runCommand] at h
  obtain ⟨l', hl', h⟩ := runCommand_next h
  obtain rfl : l = l' := Option.some.inj (hl.symm.trans hl')
  rcases h with ⟨_, _, u, hb, rfl⟩ | ⟨_, rfl⟩ | ⟨_, _, rfl⟩ | ⟨_, _, c, n, hb, _⟩
  · rcases bodyOf_mem hb with hm | ⟨hd', _⟩
    · exact hm
    · rw [hd] at hd'; cases hd'
  · rfl
  · rfl
  · exact absurd hb (bodyOf_ne_error hd s c n)

/-- Settles O29: a failure draws, and a success writes, nothing outside (a2, a3). -/
theorem commandWritesOnlyItsDestination : Obligations.CommandWritesOnlyItsDestination := by
  intro i s t l hl h
  refine ⟨?_, ?_⟩
  · obtain ⟨l', hl', hend⟩ := exec_next h
    obtain rfl : l = l' := Option.some.inj (hl.symm.trans hl')
    rcases hend with ⟨c, n, rfl⟩ | ⟨u, _, _, hb, rfl⟩
    · exact sameOutside_raiseError l c n s
    · rw [complete_mem]
      rcases bodyOf_mem hb with hm | ⟨_, vs, hlen, hm⟩ <;> rw [hm]
      · exact fun _ _ => rfl
      · exact sameOutside_writeBytes _ _ hlen
  · rintro (rfl | rfl) <;> exact exec_mem_of_noDest hl rfl h

end Sys2Proof.Machine
end

section
/-! PROOFS. Which transactions the port takes (R41, R43), what a read leaves unchanged (R50), and the lanes of the MEM window
(R42). -/

namespace Sys2Proof.Machine

open Sys2Proof.Claims

/-! ### The accepted transactions -/

/-- The control registers fill 0x000–0x037. -/
theorem controlRegister_eq_none {n : Nat} (h4 : n % 4 = 0) : controlRegister n = none ↔ 0x38 ≤ n := by
  unfold controlRegister
  split <;> simp
  simp only [imp_false] at *
  omega

/-- The word-aligned offsets below the MEM window that are mapped (register map of spec/10_state.md). -/
theorem wordTarget_eq_none {n : Nat} (h4 : n % 4 = 0) :
    wordTarget n = none ↔ ¬ (n < 0x38 ∨ (0x400 ≤ n ∧ n < 0xC00) ∨ (0x2000 ≤ n ∧ n < 0x5FF0)) := by
  unfold wordTarget
  split
  · rw [controlRegister_eq_none h4]; omega
  · repeat' split
    all_goals simp; omega

/-- The port's answer is ERROR exactly for the transactions that are not accepted (R41, R43). -/
theorem hostTarget_eq_none (m : MemSize) (off : Nat) (sz : AccessSize) :
    hostTarget m off sz = none ↔ ¬ Accepted m off sz := by
  unfold hostTarget Accepted
  split
  · split <;> simp <;> omega
  · split
    · next h => rw [wordTarget_eq_none h.2]; simp [h]; omega
    · next h => simp; tauto

/-- The read of an OKAY target has no value only where it reaches an unwritten byte of MEM (U4). -/
theorem readTarget_eq_error {tg : Target} {sz : AccessSize} {s : State} {x : Nat} (h : readTarget tg sz s = .error x) :
    ∃ a, tg = .mem a ∧ Memory.read s.mem x = none ∧ a ≤ x ∧ x < a + sz.bytes := by
  cases tg with
  | mem a =>
    rw [readTarget] at h
    split at h
    · cases h
    · next hr => cases h; exact ⟨a, rfl, Memory.readMany_eq_error hr⟩
  | _ => cases h

theorem busy_eq_false {s : State} : s.busy = false ↔ s.latch = none := by simp [State.busy]

/-- An accepted read is answered, or it stops at an unwritten byte of MEM while BUSY = 0. -/
theorem hostRead_of_accepted {off : HostOffset} {sz : AccessSize} {s : State}
    (hacc : Accepted s.memSize off.toNat sz) :
    (∃ t v, hostRead off sz s = .next t ∧ t.response = some ⟨.okay, some v⟩) ∨
      (s.latch = none ∧ 0x10000 ≤ off.toNat ∧ ∃ a, off.toNat - 0x10000 ≤ a ∧ a < off.toNat - 0x10000 + sz.bytes ∧
        Memory.read s.mem a = none ∧ hostRead off sz s = .fault (.unwrittenRead a)) := by
  rcases hostRead_cases off sz s with ⟨hn, _⟩ | ⟨tg, htg, ⟨_, _, he⟩ | ⟨hb, ⟨v, _, he⟩ | ⟨x, hx, he⟩⟩⟩
  · exact absurd hacc ((hostTarget_eq_none _ _ _).1 hn)
  · exact .inl ⟨_, _, he, rfl⟩
  · exact .inl ⟨_, v, he, rfl⟩
  · obtain ⟨a, rfl, hnone, hlo, hhi⟩ := readTarget_eq_error hx
    obtain ⟨hoff, _, _⟩ := hostTarget_mem htg
    exact .inr ⟨busy_eq_false.1 (hb.resolve_right nofun), by omega, x, by omega, by omega, hnone, he⟩

/-- An accepted write is answered. -/
theorem hostWrite_of_accepted {off : HostOffset} {sz : AccessSize} {s : State} (d : Word)
    (hacc : Accepted s.memSize off.toNat sz) :
    ∃ t, hostWrite off sz d s = .next t ∧ t.response = some ⟨.okay, none⟩ := by
  rcases hostWrite_cases off sz d s with ⟨hn, _⟩ | ⟨_, _, ⟨_, _, he⟩ | ⟨_, he⟩⟩
  · exact absurd hacc ((hostTarget_eq_none _ _ _).1 hn)
  · exact ⟨_, he, rfl⟩
  · exact ⟨_, he, rfl⟩

/-- Settles O16: the port reaches a target exactly for the accepted transactions. -/
theorem unacceptedTransactionsHaveNoEffect : Obligations.UnacceptedTransactionsHaveNoEffect := by
  intro s es off sz d
  refine ⟨fun hq => ?_, fun hq => ?_⟩ <;> rw [step_cons hq, takeEvent_eq hq]
  · refine ⟨fun h => ?_, hostRead_of_accepted (s := { s with hostQueue := es })⟩
    rw [← hostTarget_eq_none] at h
    simp only [hostEvent, hostRead, h]
    rfl
  · refine ⟨fun h => ?_, hostWrite_of_accepted (s := { s with hostQueue := es }) d⟩
    rw [← hostTarget_eq_none] at h
    simp only [hostEvent, hostWrite, h]
    rfl

/-! ### Reads -/

theorem controlRegister_isWindow {n : Nat} {tg : Target} (h : controlRegister n = some tg) : tg.isWindow = false := by
  unfold controlRegister at h
  split at h <;> cases h <;> rfl

/-- Below 0x400 there is no window (R112). -/
theorem hostTarget_isWindow_of_lt {m : MemSize} {n : Nat} {sz : AccessSize} {tg : Target}
    (h : hostTarget m n sz = some tg) (hn : n < 0x400) : tg.isWindow = false := by
  rw [hostTarget, if_neg (by omega)] at h
  split at h
  · exact controlRegister_isWindow ((wordTarget_register hn).symm.trans h)
  · cases h

/-- Settles O19: of what a host read can do, only the conflicting read changes more than the answer. -/
theorem readsHaveNoSideEffect : Obligations.ReadsHaveNoSideEffect := by
  intro s t es off sz hq hidle h
  rw [step_cons hq, takeEvent_eq hq] at h
  rcases hostRead_cases off sz { s with hostQueue := es } with
    ⟨_, he⟩ | ⟨tg, htg, ⟨hb, hw, _⟩ | ⟨_, ⟨v, _, he⟩ | ⟨x, _, he⟩⟩⟩
  · rw [hostEvent, he] at h; cases h; rfl
  · rcases hidle with hl | hlt
    · simp [State.busy, hl] at hb
    · simp [hostTarget_isWindow_of_lt htg hlt] at hw
  · rw [hostEvent, he] at h; cases h; rfl
  · rw [hostEvent, he] at h; cases h

/-! ### The MEM window -/

/-- An aligned access inside MEM reaches its bytes (R41). -/
theorem hostTarget_of_mem {m : MemSize} {off a : Nat} {sz : AccessSize} (hoff : off = 0x10000 + a)
    (hal : a % sz.bytes = 0) (hin : a + sz.bytes ≤ Config.memBytes m) : hostTarget m off sz = some (.mem a) := by
  have hbase : 0x10000 % sz.bytes = 0 := by cases sz <;> rfl
  have hal' : off % sz.bytes = 0 := by rw [hoff, Nat.add_mod, hbase, hal, Nat.zero_add, Nat.zero_mod]
  rw [hostTarget, if_pos (by omega), if_pos ⟨hal', by omega⟩, hoff, Nat.add_sub_cancel_left]

/-- While BUSY = 0 a write that reaches a target has its effect and is answered. -/
theorem hostWrite_of_idle {off : HostOffset} {sz : AccessSize} {d : Word} {s : State} {tg : Target}
    (ht : hostTarget s.memSize off.toNat sz = some tg) (hl : s.latch = none) :
    hostWrite off sz d s = .next (answerWrite .okay (writeTarget tg sz d s)) := by
  rw [hostWrite, ht]
  simp only [not_conflicting (.inl hl)]
  rfl

/-- While BUSY = 0 a read that reaches a target answers its value. -/
theorem hostRead_of_idle {off : HostOffset} {sz : AccessSize} {s : State} {tg : Target} {v : Word}
    (ht : hostTarget s.memSize off.toNat sz = some tg) (hl : s.latch = none) (hv : readTarget tg sz s = .ok v) :
    hostRead off sz s = .next (answerRead .okay v s) := by
  rw [hostRead, ht]
  simp only [not_conflicting (.inl hl), hv]
  rfl

/-- The number that little-endian bytes stand for (R42). -/
def leNat (bs : List Byte) : Nat := bs.foldr (fun b acc => b.toNat + 256 * acc) 0

theorem leWord_eq (bs : List Byte) : leWord bs = BitVec.ofNat 32 (leNat bs) := rfl

theorem leNat_cons (b : Byte) (bs : List Byte) : leNat (b :: bs) = b.toNat + 256 * leNat bs := rfl

theorem leNat_lt (bs : List Byte) : leNat bs < 256 ^ bs.length := by
  induction bs with
  | nil => simp [leNat]
  | cons b bs ih =>
    have := b.isLt
    rw [leNat_cons, List.length_cons, pow_succ]
    omega

/-- Byte k of the number is its k-th digit to the base 256. -/
theorem leNat_digit (bs : List Byte) {k : Nat} (h : k < bs.length) : leNat bs / 256 ^ k % 256 = bs[k].toNat := by
  induction bs generalizing k with
  | nil => cases h
  | cons b bs ih =>
    have := b.isLt
    rw [leNat_cons]
    cases k with
    | zero => rw [pow_zero, Nat.div_one, List.getElem_cons_zero]; omega
    | succ k =>
      rw [pow_succ', ← Nat.div_div_eq_div_mul, show (b.toNat + 256 * leNat bs) / 256 = leNat bs by omega,
        ih (Nat.lt_of_succ_lt_succ h), List.getElem_cons_succ]

/-- A read's data has MEM[a + k] in bits 8k + 7 .. 8k (R42). -/
theorem leWord_lane {bs : List Byte} (hlen : bs.length ≤ 4) {k : Nat} (h : k < bs.length) :
    (leWord bs).extractLsb' (8 * k) 8 = bs[k] := by
  have hlt : leNat bs < 2 ^ 32 := (leNat_lt bs).trans_le (Nat.pow_le_pow_right (n := 256) (by omega) hlen)
  refine extractLsb'_eq_of_toNat ?_
  rw [leWord_eq, BitVec.toNat_ofNat, Nat.mod_eq_of_lt hlt, pow_mul]
  exact leNat_digit bs h

theorem AccessSize.bytes_le (sz : AccessSize) : sz.bytes ≤ 4 := by cases sz <;> decide

/-- Settles O20: a write puts the lanes of its data into the bytes it reaches, a read brings them in the same lanes. -/
theorem memWindowIsLittleEndian : Obligations.MemWindowIsLittleEndian := by
  intro s es off sz d a hoff hl hal hin
  have ht : hostTarget s.memSize off.toNat sz = some (.mem a) := hostTarget_of_mem hoff hal hin
  refine ⟨fun hq => ?_, fun bs hq hlen hbs => ?_⟩ <;> rw [step_cons hq, takeEvent_eq hq]
  · have hout : (leBytes sz.bytes d).length = sz.bytes := leBytes_length _ _
    refine ⟨_, hostWrite_of_idle ht hl, rfl, fun b hb => ?_, fun k hk => ?_⟩
    · exact Memory.read_writeBytes_outside s.mem a _ b (by omega)
    · rw [← leBytes_getElem sz.bytes d k (by omega)]
      exact Memory.read_writeBytes_inside s.mem a _ k (by omega)
  · have hread : readTarget (.mem a) sz { s with hostQueue := es } = .ok (leWord bs) := by
      rw [holdsBytes_iff_readMany, hlen] at hbs
      simp only [readTarget, hbs]
    exact ⟨leWord bs, hostRead_of_idle ht hl hread, fun k hk => leWord_lane (by have := sz.bytes_le; omega) hk⟩

end Sys2Proof.Machine
end

section
/-! PROOFS. The encoding (R58, R59, R64, R65, R69) and the common checks of a command (R60–R63). -/

namespace Sys2Proof.Machine

open Sys2Proof.Claims

/-! ### The command words -/

theorem rsvdField_eq_zero {w : Word} : rsvdField w = 0#28 ↔ w.toNat / 16 = 0 := by
  have := w.isLt
  rw [← BitVec.toNat_inj, rsvdField, BitVec.extractLsb'_toNat, Nat.shiftRight_eq_div_pow, BitVec.toNat_ofNat]
  omega

theorem opcField_toNat (w : Word) : (opcField w).toNat = w.toNat % 16 := by
  rw [opcField, BitVec.extractLsb'_toNat, Nat.shiftRight_zero]

/-- Everything the opcode map can answer: a command for 1..6, a refusal for the rest (R59). -/
theorem decodeOpc_cases (o : BitVec 4) :
    (1 ≤ o.toNat ∧ o.toNat ≤ 6 ∧ ∃ i, decodeOpc o = .ok i) ∨
      ((o.toNat = 0 ∨ 6 < o.toNat) ∧ decodeOpc o = .error .reservedOpcode) := by
  unfold decodeOpc
  split
  case h_7 => exact .inr ⟨by simp only [imp_false] at *; omega, rfl⟩
  all_goals exact .inl ⟨by omega, by omega, _, rfl⟩

/-- Everything the decoder can answer: RSVD is checked first, then OPC (R58, R59, R64). -/
theorem decode_cases (w : Word) :
    (w.toNat / 16 ≠ 0 ∧ Sys2Proof.decode w = .error .reservedBitsSet) ∨
      (w.toNat / 16 = 0 ∧ (w.toNat % 16 = 0 ∨ 6 < w.toNat % 16) ∧ Sys2Proof.decode w = .error .reservedOpcode) ∨
      (w.toNat / 16 = 0 ∧ (1 ≤ w.toNat % 16 ∧ w.toNat % 16 ≤ 6) ∧ ∃ i, Sys2Proof.decode w = .ok i) := by
  unfold Sys2Proof.decode
  split
  · next h =>
    have hopc := decodeOpc_cases (opcField w)
    rw [opcField_toNat] at hopc
    rcases hopc with ⟨hlo, hhi, hok⟩ | hreserved
    · exact .inr (.inr ⟨rsvdField_eq_zero.1 h, ⟨hlo, hhi⟩, hok⟩)
    · exact .inr (.inl ⟨rsvdField_eq_zero.1 h, hreserved⟩)
  · next h => exact .inl ⟨rsvdField_eq_zero.not.1 h, rfl⟩

theorem decode_encode (i : Instr) : Sys2Proof.decode (Sys2Proof.encode i) = .ok i := by
  cases i <;> rfl

/-- R64's reserved words, as their two fields say them. -/
def Reserved (w : Word) : Prop := w.toNat / 16 ≠ 0 ∨ w.toNat % 16 = 0 ∨ 6 < w.toNat % 16

theorem decode_of_reserved {w : Word} (h : Reserved w) : ∃ e, Sys2Proof.decode w = .error e := by
  rcases decode_cases w with ⟨_, he⟩ | ⟨_, _, he⟩ | ⟨hr, ho, _⟩
  · exact ⟨_, he⟩
  · exact ⟨_, he⟩
  · unfold Reserved at h; omega

theorem commandWordWellFormed_iff (w : Word) :
    commandWordWellFormed w = true ↔ w.toNat / 16 = 0 ∧ 1 ≤ w.toNat % 16 ∧ w.toNat % 16 ≤ 6 := by
  simp [commandWordWellFormed, rsvdOk, opcOk]

/-- Settles O1: each clause takes its case of what the decoder can answer. -/
theorem eachCommandHasExactlyItsWord : Obligations.EachCommandHasExactlyItsWord := by
  refine ⟨fun w i => ⟨eq_encode_of_decode, fun h => h ▸ decode_encode i⟩, rfl, rfl, rfl, rfl, rfl, rfl,
    fun w => ?_⟩
  rw [commandWordWellFormed_iff]
  rcases decode_cases w with ⟨hr, he⟩ | ⟨hr, ho, he⟩ | ⟨hr, ho, i, he⟩
  · exact ⟨fun _ => he, fun h => absurd h hr, fun h => absurd h.1 hr, fun ⟨_, hi⟩ => by cases he.symm.trans hi⟩
  · exact ⟨fun h => absurd hr h, fun _ _ => he, fun h => by omega, fun ⟨_, hi⟩ => by cases he.symm.trans hi⟩
  · exact ⟨fun h => absurd hr h, fun _ h => by omega, fun _ => ⟨i, he⟩, fun _ => ⟨hr, ho⟩⟩

theorem decodeTableWord_encode (i : Instr) : decodeTableWord 32 (Sys2Proof.encode i).toNat = some i := by
  cases i <;> rfl

theorem decodeTableWord_of_reserved {n : Nat} (h : Reserved (tableWord 32 n)) : decodeTableWord 32 n = none := by
  obtain ⟨e, he⟩ := decode_of_reserved h
  simp [decodeTableWord, he]

/-- Settles O2: six words are the commands' own, and the four others are reserved by OPC or by RSVD. -/
theorem tableWordsDecode : Obligations.TableWordsDecode :=
  ⟨decodeTableWord_encode .buildTree, decodeTableWord_encode .genCodes, decodeTableWord_encode .encode,
    decodeTableWord_encode .decode, decodeTableWord_encode .serialize, decodeTableWord_encode .deserialize,
    decodeTableWord_of_reserved (.inr (.inl rfl)), decodeTableWord_of_reserved (.inr (.inr (by decide))),
    decodeTableWord_of_reserved (.inl (by decide)), decodeTableWord_of_reserved (.inl (by decide))⟩

/-- While BUSY = 0 a write to CMD issues its word, whatever it is, and is answered (R108). -/
theorem step_write_cmd_idle {s : State} {es : List HostEvent} {w : Word}
    (hq : s.hostQueue = .write 0x00008#17 .bits32 w :: es) (hl : s.latch = none) :
    step s = .next (answerWrite .okay (issue w { s with hostQueue := es })) := by
  rw [step_write hq rfl (.inr rfl), writeTarget, writeCmd, if_neg (by simp [State.busy, hl])]

/-- The engine refuses a reserved word with BAD_COMMAND, which spoils no destination (R64, R123). -/
theorem engineStep_of_reserved {s : State} {l : Latch} (hl : s.latch = some l) (h : Reserved l.word) :
    engineStep s = .next (failed s .badCommand 0) := by
  obtain ⟨e, he⟩ := decode_of_reserved h
  simp only [engineStep, hl, he]
  rfl

/-- Settles O6: the write issues the word, and the engine's turn refuses it. -/
theorem reservedWordFailsWithBadCommand : Obligations.ReservedWordFailsWithBadCommand := by
  intro s es w hq hl hw
  refine ⟨_, step_write_cmd_idle hq hl, rfl, ?_⟩
  rw [step_cons rfl, hostEvent, engineStep_of_reserved (l := ⟨w, s.arg0, s.arg1, s.arg2, s.arg3⟩) rfl hw]
  rfl

/-! ### Example transactions -/

/-- `WW a, v` while BUSY = 0 puts the four bytes of v into MEM from a on, the least significant first (R42, R67). -/
theorem step_ww {s : State} {es : List HostEvent} {a : Nat} {v : Word} (hq : s.hostQueue = HostProgram.ww a v :: es)
    (hl : s.latch = none) (hal : a % 4 = 0) (hin : a + 4 ≤ Config.memBytes s.memSize) :
    step s = .next { wrote s es with mem := Memory.writeBytes s.mem a (leBytes 4 v) } := by
  have hM : Config.memBytes s.memSize ≤ 65536 := by cases s.memSize <;> decide
  have ht : hostTarget s.memSize (BitVec.ofNat 17 (0x10000 + a)).toNat .bits32 = some (.mem a) :=
    hostTarget_of_mem (by rw [BitVec.toNat_ofNat]; omega) hal hin
  rw [step_write hq ht (.inl hl)]
  rfl

/-- Settles O3: the tuples are what the host program writes, and the word write is `WW 0` after reset. -/
theorem exampleTransactions : Obligations.ExampleTransactions := by
  refine ⟨rfl, rfl, rfl, ?_⟩
  have hbytes : leBytes 4 0x61726261#32 = [0x61#8, 0x62#8, 0x72#8, 0x61#8] := by decide
  rw [step_ww (a := 0) (es := []) rfl rfl rfl (by decide), hbytes]
  rfl

/-! ### The common checks -/

/-- A command that is not ready fails with NOT_READY and leaves MEM alone (R62, R123). -/
theorem exec_of_notReady {i : Instr} {s : State} {l : Latch} (hl : s.latch = some l) (hr : ready i s = false) :
    exec i s = .next (failed s .notReady 0) := by
  rw [exec_eq_runCommand, runCommand_latch hl, preCheck_eq_error.2 (.inl ⟨hr, rfl⟩)]
  rfl

/-- A ready command whose ranges are not valid fails with BAD_RANGE and leaves MEM alone (R60, R123). -/
theorem exec_of_badRange {i : Instr} {s : State} {l : Latch} (hl : s.latch = some l) (hr : ready i s = true)
    (hv : rangesValid (Config.memBytes s.memSize) i l = false) : exec i s = .next (failed s .badRange 0) := by
  rw [exec_eq_runCommand, runCommand_latch hl, preCheck_eq_error.2 (.inr ⟨hr, hv, rfl⟩)]
  rfl

/-- The error a command ends with tells which check failed; the body after the checks raises neither of the two (R63). -/
theorem exec_err_cases {i : Instr} {s t : State} {l : Latch} (hl : s.latch = some l) (h : exec i s = .next t) :
    (ready i s = false ∧ t.err = .notReady) ∨
      (ready i s = true ∧ rangesValid (Config.memBytes s.memSize) i l = false ∧ t.err = .badRange) ∨
      (ready i s = true ∧ rangesValid (Config.memBytes s.memSize) i l = true ∧
        t.err ≠ .notReady ∧ t.err ≠ .badRange) := by
  rw [exec_eq_runCommand] at h
  obtain ⟨l', hl', h⟩ := runCommand_next h
  obtain rfl : l = l' := Option.some.inj (hl.symm.trans hl')
  rcases h with ⟨hr, hv, u, _, rfl⟩ | ⟨hr, rfl⟩ | ⟨hr, hv, rfl⟩ | ⟨hr, hv, c, n, hb, rfl⟩
  · exact .inr (.inr ⟨hr, hv, nofun, nofun⟩)
  · exact .inl ⟨hr, rfl⟩
  · exact .inr (.inl ⟨hr, hv, rfl⟩)
  · have hc := bodyOf_error_code hb
    refine .inr (.inr ⟨hr, hv, ?_⟩)
    rw [raiseError_err]
    constructor <;> rintro rfl <;> cases hc

/-- Settles O26: the three commands with a readiness condition, and the error tells that it failed. -/
theorem notReadyCommandsFail : Obligations.NotReadyCommandsFail := by
  intro s l hl
  refine ⟨fun hr => exec_of_notReady hl hr, fun hr => exec_of_notReady hl hr, fun hr => exec_of_notReady hl hr,
    fun i t h he => ?_⟩
  have hr : ready i s = false := by
    rcases exec_err_cases hl h with ⟨hr, _⟩ | ⟨_, _, he'⟩ | ⟨_, _, hne, _⟩
    · exact hr
    · cases he.symm.trans he'
    · exact absurd he hne
  cases i with
  | genCodes => exact .inl ⟨rfl, hr⟩
  | encode => exact .inr (.inl ⟨rfl, hr⟩)
  | decode => exact .inr (.inr ⟨rfl, hr⟩)
  | buildTree | serialize | deserialize => cases hr

/-- Settles O27: the model's range check is R60 on the ranges of R61. -/
theorem invalidRangesFail : Obligations.InvalidRangesFail := by
  intro s l i n hl hi
  have hrange : ready i s = true ∧ sourceRange i l = some (l.a0.toNat, n) ∧
      destRange i l = some (l.a2.toNat, l.a3.toNat) := by
    rcases hi with ⟨rfl, hr, rfl⟩ | ⟨rfl, hr, rfl⟩ | ⟨rfl, rfl⟩ | ⟨rfl, rfl⟩
    · exact ⟨hr, rfl, rfl⟩
    · exact ⟨hr, rfl, rfl⟩
    · exact ⟨rfl, rfl, rfl⟩
    · exact ⟨rfl, rfl, rfl⟩
  obtain ⟨hr, hsrc, hdst⟩ := hrange
  rw [← rangesValid_iff_rangesOk hsrc hdst]
  refine ⟨fun hv => exec_of_badRange hl hr (Bool.eq_false_iff.2 hv), fun hv t h => ?_⟩
  rcases exec_err_cases hl h with ⟨hr', _⟩ | ⟨_, hv', _⟩ | ⟨_, _, _, hne⟩
  · cases hr.symm.trans hr'
  · cases hv.symm.trans hv'
  · exact hne

end Sys2Proof.Machine
end

section
/-! PROOFS. BuildTree's tree (R70–R75): what extraction takes out of the queue, what every pass of the merge loop keeps, the
exact frequency of every node, and the command BUILD_TREE (R77). -/

namespace Sys2Proof.Machine

open Sys2Proof.Claims

/-! ### Extraction -/

theorem Key.before_trans {a b c : Key} (h : a.before b = true) (h' : b.before c = true) : a.before c = true := by
  rw [Key.before_iff] at *
  omega

/-- Keys of two nodes are ordered one way or the other. -/
theorem Key.before_of_not_before {a b : Key} (hne : a.idx ≠ b.idx) (h : ¬ a.before b = true) : b.before a = true := by
  rw [Key.before_iff] at *
  omega

/-- The member that extraction takes stands before all the others (R71). -/
theorem extractMin_before {q : List Key} {m : Key} {rest : List Key} (hq : (q.map Key.idx).Nodup)
    (h : extractMin q = some (m, rest)) {x : Key} (hx : x ∈ rest) : m.before x = true := by
  induction q generalizing m rest x with
  | nil => simp [extractMin] at h
  | cons k ks ih =>
    obtain ⟨hk, hks⟩ := List.nodup_cons.1 hq
    simp only [extractMin] at h
    split at h
    · next hn =>
      obtain ⟨rfl, rfl⟩ := Prod.mk.inj (Option.some.inj h)
      simp at hx
    · next m' rest' hs =>
      have hp := extractMin_perm hs
      split at h <;> obtain ⟨rfl, rfl⟩ := Prod.mk.inj (Option.some.inj h)
      · next hb =>
        rcases List.mem_cons.1 (hp.symm.subset hx) with rfl | hx'
        · exact hb
        · exact Key.before_trans hb (ih hks hs hx')
      · next hb =>
        rcases List.mem_cons.1 hx with rfl | hx'
        · refine Key.before_of_not_before (fun he => hk ?_) hb
          rw [he]
          exact List.mem_map_of_mem (hp.subset List.mem_cons_self)
        · exact ih hks hs hx'

/-- Settles O32: extraction permutes the queue, and what it takes stands before the rest. -/
theorem extractionTakesTheLeastKey : Obligations.ExtractionTakesTheLeastKey := by
  intro q hne hq
  cases h : extractMin q with
  | none => exact absurd (extractMin_eq_none.1 h) hne
  | some x => exact ⟨x.1, x.2, rfl, extractMin_perm h, fun _ hk => Key.before_iff.1 (extractMin_before hq h hk)⟩

/-! ### Every pass of the merge loop -/

/-- What every pass keeps holds when the loop ends. -/
theorem mergeLoop_keeps {pairs : List (Byte × Word)} {P : List Node → List Key → Prop} (hn : pairs.length ≤ 256)
    (pass : ∀ {nodes q i q₁ j q₂}, MergeInv pairs nodes q → P nodes q → extractMin q = some (i, q₁) →
      extractMin q₁ = some (j, q₂) → P (nodes ++ [mergeNode i j]) (q₂ ++ [⟨i.freq + j.freq, nodes.length⟩]))
    (fuel : Nat) {nodes : List Node} {q : List Key} (h : MergeInv pairs nodes q) (hP : P nodes q) :
    P (mergeLoop fuel nodes q).1 (mergeLoop fuel nodes q).2 := by
  induction fuel generalizing nodes q with
  | zero => exact hP
  | succ fuel ih =>
    rw [mergeLoop]
    split
    · exact hP
    · next i q₁ hi =>
      split
      · exact hP
      · next j q₂ hj => exact ih (h.pass hn hi hj) (pass h hP hi hj)

/-- What holds of the leaves and is kept by every pass holds of BuildTree's nodes, with the root alone in the queue. -/
theorem buildTree_keeps {f : FreqTable} (hne : presentPairs f ≠ []) {P : List Node → List Key → Prop}
    (start : P (leafNodes f) (leafKeys f))
    (pass : ∀ {nodes q i q₁ j q₂}, MergeInv (presentPairs f) nodes q → P nodes q → extractMin q = some (i, q₁) →
      extractMin q₁ = some (j, q₂) → P (nodes ++ [mergeNode i j]) (q₂ ++ [⟨i.freq + j.freq, nodes.length⟩])) :
    ∃ k, MergeInv (presentPairs f) (buildTree f).nodes [k] ∧ (buildTree f).root.toNat = k.idx ∧
      P (buildTree f).nodes [k] := by
  have hlen : (leafKeys f).length = (presentPairs f).length := by simp [leafKeys]
  have hpos := List.length_pos_iff.2 hne
  have hle := presentPairs_length_le f
  have hP := mergeLoop_keeps hle pass (leafKeys f).length (mergeInv_start f) start
  obtain ⟨hinv, hone⟩ := mergeLoop_inv hle (leafKeys f).length (mergeInv_start f)
    (List.length_pos_iff.1 (by omega)) (by omega)
  obtain ⟨k, hk⟩ := List.length_eq_one_iff.1 hone
  rw [hk] at hinv hP
  refine ⟨k, hinv, ?_, hP⟩
  have hlast := hinv.root_last
  have hcount := hinv.count
  rw [List.length_singleton] at hcount
  rw [buildTree, hk, rootOf, BitVec.toNat_ofNat, Nat.mod_eq_of_lt (by omega)]

/-- BuildTree of a table with a present symbol, and where its root stands. -/
theorem buildTree_root {f : FreqTable} (hne : presentPairs f ≠ []) :
    ∃ k, MergeInv (presentPairs f) (buildTree f).nodes [k] ∧ (buildTree f).root.toNat = k.idx := by
  obtain ⟨k, hinv, hroot, _⟩ := buildTree_keeps (P := fun _ _ => True) hne trivial fun _ _ _ _ => trivial
  exact ⟨k, hinv, hroot⟩

section
variable {pairs : List (Byte × Word)} {nodes : List Node} {q : List Key}

/-- No node stands in the queue twice. -/
theorem MergeInv.idx_nodup (h : MergeInv pairs nodes q) : (q.map Key.idx).Nodup :=
  (List.nodup_append.1 (h.parents.nodup_iff.2 List.nodup_range)).2.1

theorem MergeInv.idx_lt (h : MergeInv pairs nodes q) {k : Key} (hk : k ∈ q) : k.idx < nodes.length :=
  List.mem_range.1 (h.parents.subset (List.mem_append_right _ (List.mem_map_of_mem hk)))

/-- A node's index fits its nine bits, with NO_NODE to spare. -/
theorem MergeInv.nodes_length_lt (h : MergeInv pairs nodes q) (hn : pairs.length ≤ 256) {k : Key} (hk : k ∈ q) :
    nodes.length < 512 := by
  have := h.count
  have := List.length_pos_of_mem hk
  omega

theorem MergeInv.leaf_at (h : MergeInv pairs nodes q) {i : Nat} (hi : i < pairs.length) :
    nodes[i]? = some (.leaf pairs[i].1 (pairs[i].2.setWidth 40)) := by
  obtain ⟨more, rfl⟩ := h.leavesFirst
  rw [List.getElem?_append_left (by simpa using hi)]
  simp [hi]

theorem MergeInv.internal_at (h : MergeInv pairs nodes q) {i : Nat} (hi : pairs.length ≤ i) (hl : i < nodes.length) :
    ∃ w l r, nodes[i]? = some (.internal w l r) ∧ l.toNat < i ∧ r.toNat < i := by
  obtain ⟨w, l, r, he, hlr⟩ := h.internals i _ hi (List.getElem?_eq_getElem hl)
  exact ⟨w, l, r, by rw [List.getElem?_eq_getElem hl, he], hlr⟩

theorem MergeInv.child_lt (h : MergeInv pairs nodes q) {i c : Nat} {nd : Node} (hnd : nodes[i]? = some nd)
    (hc : c ∈ nd.children) : c < i := by
  by_cases hi : i < pairs.length
  · obtain rfl := Option.some.inj (hnd.symm.trans (h.leaf_at hi))
    simp [Node.children] at hc
  · obtain ⟨w, l, r, rfl, hl, hr⟩ := h.internals i nd (by omega) hnd
    simp only [Node.children, List.mem_cons, List.not_mem_nil, or_false] at hc
    omega

end

/-! ### The exact frequencies (R74) -/

/-- The sum of the counts of a list of pairs. -/
def totalCount (pairs : List (Byte × Word)) : Nat := (pairs.map fun p => p.2.toNat).sum

theorem totalCount_le {pairs : List (Byte × Word)} (hn : pairs.length ≤ 256) : totalCount pairs ≤ 2 ^ 40 - 256 := by
  have h := List.sum_le_card_nsmul (pairs.map fun p => p.2.toNat) (2 ^ 32 - 1) (by
    simp only [List.mem_map, forall_exists_index, and_imp, forall_apply_eq_imp_iff₂]
    intro p _
    have := p.2.isLt
    omega)
  simp only [List.length_map, smul_eq_mul] at h
  rw [totalCount]
  omega

/-- A node's 40-bit frequency is the weight of its tree, if that fits. -/
theorem Denotes.freq_toNat {nodes : List Node} {i : Nat} {t : HTree} (h : Denotes nodes i t) (hw : t.weight < 2 ^ 40) :
    ∃ nd, nodes[i]? = some nd ∧ nd.freq.toNat = t.weight := by
  cases h with
  | leaf h => exact ⟨_, h, by simp [Node.freq, HTree.weight]; omega⟩
  | node h _ _ hf =>
    refine ⟨_, h, ?_⟩
    rw [Node.freq, hf, BitVec.toNat_ofNat]
    exact Nat.mod_eq_of_lt hw

/-- A queue member stands for a tree that weighs no more than all the present pairs. -/
theorem MergeInv.represents {pairs : List (Byte × Word)} {nodes : List Node} {q : List Key} (h : MergeInv pairs nodes q)
    {k : Key} (hk : k ∈ q) : ∃ t, Represents nodes k t ∧ t.weight ≤ totalCount pairs := by
  obtain ⟨ts, hts, hleaves⟩ := h.forest
  obtain ⟨us, hus, hperm⟩ := forall₂_perm hts (List.perm_cons_erase hk).symm
  obtain ⟨t, us', ht, _, rfl⟩ := List.forall₂_cons_left_iff.1 hus
  have hsub : t.leaves.Sublist ((t :: us').flatMap HTree.leaves) := List.sublist_append_left _ _
  refine ⟨t, ht, ?_⟩
  rw [HTree.weight_eq, totalCount, ← (((hperm.flatMap_right _).trans hleaves).map _).sum_eq]
  exact (hsub.map _).sum_le_sum (by simp)

/-- A queue member's frequency is that of its node, exactly. -/
theorem MergeInv.key_freq {pairs : List (Byte × Word)} {nodes : List Node} {q : List Key} (hn : pairs.length ≤ 256)
    (h : MergeInv pairs nodes q) {k : Key} (hk : k ∈ q) : ∃ nd, nodes[k.idx]? = some nd ∧ nd.freq.toNat = k.freq := by
  obtain ⟨t, ⟨hd, hw⟩, hle⟩ := h.represents hk
  have := totalCount_le hn
  rw [← hw]
  exact hd.freq_toNat (by omega)

/-- At the end the root stands for a tree with the present pairs at its leaves. -/
theorem MergeInv.root_tree {pairs : List (Byte × Word)} {nodes : List Node} {k : Key} (h : MergeInv pairs nodes [k]) :
    ∃ t, Denotes nodes k.idx t ∧ t.leaves.Perm pairs := by
  obtain ⟨ts, hts, hleaves⟩ := h.forest
  obtain ⟨t, us, ht, hus, rfl⟩ := List.forall₂_cons_left_iff.1 hts
  obtain rfl := List.forall₂_nil_left_iff.1 hus
  exact ⟨t, ht.1, by simpa using hleaves⟩

/-- Every node of the finished list is the root of a tree, part of the whole one. -/
theorem MergeInv.denotes {pairs : List (Byte × Word)} {nodes : List Node} {k : Key} (h : MergeInv pairs nodes [k])
    {i : Nat} (hi : i < nodes.length) : ∃ t, Denotes nodes i t ∧ t.weight ≤ totalCount pairs := by
  induction hm : nodes.length - i using Nat.strong_induction_on generalizing i with
  | _ m ih =>
  subst hm
  rcases List.mem_append.1 (h.parents.symm.subset (List.mem_range.2 hi)) with hc | hc
  · obtain ⟨nd, hnd, hch⟩ := List.mem_flatMap.1 hc
    obtain ⟨p, hp⟩ := List.mem_iff_getElem?.1 hnd
    have hlt := h.child_lt hp hch
    have hpl := (List.getElem?_eq_some_iff.1 hp).1
    obtain ⟨t, ht, hw⟩ := ih (nodes.length - p) (by omega) hpl rfl
    cases ht with
    | leaf hl =>
      obtain rfl := Option.some.inj (hp.symm.trans hl)
      simp [Node.children] at hch
    | node hl htl htr _ =>
      obtain rfl := Option.some.inj (hp.symm.trans hl)
      simp only [HTree.weight] at hw
      simp only [Node.children, List.mem_cons, List.not_mem_nil, or_false] at hch
      rcases hch with rfl | rfl
      · exact ⟨_, htl, by omega⟩
      · exact ⟨_, htr, by omega⟩
  · obtain rfl : i = k.idx := by simpa using hc
    obtain ⟨t, ⟨hd, _⟩, hle⟩ := h.represents List.mem_cons_self
    exact ⟨t, hd, hle⟩

/-- The absent symbols add nothing to the sum of FREQ. -/
theorem totalCount_presentPairs (f : FreqTable) :
    totalCount (presentPairs f) = ((List.range 256).map fun y => (freqOf f (BitVec.ofNat 8 y)).toNat).sum := by
  rw [totalCount, presentPairs_eq_filterMap]
  induction List.range 256 with
  | nil => rfl
  | cons k ks ih => by_cases h : freqOf f (BitVec.ofNat 8 k) = 0#32 <;> simp [h, ih]

theorem buildTree_getElem?_of_empty {f : FreqTable} (h : presentPairs f = []) (i : Nat) :
    (buildTree f).nodes[i]? = none := by
  rw [buildTree_empty h, List.getElem?_nil]

/-- Settles O35: every node stands for a tree that weighs less than 2^40, so that its field holds the tree's weight. -/
theorem frequencySumsAreExact : Obligations.FrequencySumsAreExact := by
  intro f
  have htotal := totalCount_le (presentPairs_length_le f)
  rw [← totalCount_presentPairs]
  by_cases hne : presentPairs f = []
  · simp only [buildTree_getElem?_of_empty hne, reduceCtorEq, false_implies, implies_true, true_and]
    exact htotal
  obtain ⟨k, hinv, hroot⟩ := buildTree_root hne
  refine ⟨fun i y w hi => ?_, fun i w l r hi => ?_, fun nd hnd => ?_, htotal⟩
  · by_cases hlt : i < (presentPairs f).length
    · obtain ⟨rfl, rfl⟩ := Node.leaf.inj (Option.some.inj (hi.symm.trans (hinv.leaf_at hlt)))
      rw [(mem_presentPairs.1 (List.getElem_mem hlt)).1]
      rw [BitVec.toNat_setWidth, Nat.mod_eq_of_lt (by omega)]
    · obtain ⟨_, _, _, he, _⟩ := hinv.internals i _ (by omega) hi
      cases he
  · obtain ⟨t, ht, hw⟩ := hinv.denotes (List.getElem?_eq_some_iff.1 hi).1
    cases ht with
    | leaf hl => cases hi.symm.trans hl
    | node hn hl hr hf =>
      cases hi.symm.trans hn
      rw [HTree.weight] at hw
      obtain ⟨a, ha, haw⟩ := hl.freq_toNat (by omega)
      obtain ⟨b, hb, hbw⟩ := hr.freq_toNat (by omega)
      refine ⟨a, b, ha, hb, ?_⟩
      rw [hf, haw, hbw, BitVec.toNat_ofNat, Nat.mod_eq_of_lt (by omega)]
  · obtain ⟨t, hd, hleaves⟩ := hinv.root_tree
    have ht : t.weight = totalCount (presentPairs f) := by rw [HTree.weight_eq, (hleaves.map _).sum_eq, totalCount]
    obtain ⟨nd', hnd', hw⟩ := hd.freq_toNat (by omega)
    rw [← hroot, hnd] at hnd'
    rw [Option.some.inj hnd', hw, ht]

/-! ### The key order of siblings (R72) -/

/-- In every internal node LEFT has the smaller key. -/
def LeftBeforeRight (nodes : List Node) : Prop :=
  ∀ (i : Nat) (w : NodeFreq) (l r : NodeIdx), nodes[i]? = some (.internal w l r) →
    ∃ a b, nodes[l.toNat]? = some a ∧ nodes[r.toNat]? = some b ∧
      (a.freq.toNat < b.freq.toNat ∨ (a.freq.toNat = b.freq.toNat ∧ l.toNat < r.toNat))

/-- The first extracted node becomes LEFT and the second RIGHT. -/
theorem mergeNode_children {i j : Key} (hi : i.idx < 512) (hj : j.idx < 512) :
    (mergeNode i j).left.toNat = i.idx ∧ (mergeNode i j).right.toNat = j.idx := by
  constructor
  · simpa [mergeNode, Node.left] using hi
  · simpa [mergeNode, Node.right] using hj

theorem leftBeforeRight_leaves (f : FreqTable) : LeftBeforeRight (leafNodes f) := by
  intro i w l r h
  simp [leafNodes] at h

/-- A pass keeps the order in the nodes so far, and the node it adds has the first extracted key before the second. -/
theorem LeftBeforeRight.pass {pairs : List (Byte × Word)} {nodes : List Node} {q q₁ q₂ : List Key} {i j : Key}
    (hn : pairs.length ≤ 256) (hinv : MergeInv pairs nodes q) (h : LeftBeforeRight nodes)
    (hi : extractMin q = some (i, q₁)) (hj : extractMin q₁ = some (j, q₂)) :
    LeftBeforeRight (nodes ++ [mergeNode i j]) := by
  have hjq₁ : j ∈ q₁ := (extractMin_perm hj).subset List.mem_cons_self
  have hiq : i ∈ q := (extractMin_perm hi).subset List.mem_cons_self
  have hjq : j ∈ q := (extractMin_perm hi).subset (List.mem_cons_of_mem _ hjq₁)
  have hlen := hinv.nodes_length_lt hn hiq
  have old {n : Nat} {nd : Node} (hnd : nodes[n]? = some nd) : (nodes ++ [mergeNode i j])[n]? = some nd := by
    rw [List.getElem?_append_left (List.getElem?_eq_some_iff.1 hnd).1, hnd]
  intro n w l r hnd
  rw [List.getElem?_append] at hnd
  split at hnd
  · obtain ⟨a, b, ha, hb, hab⟩ := h n w l r hnd
    exact ⟨a, b, old ha, old hb, hab⟩
  · obtain ⟨a, ha, haf⟩ := hinv.key_freq hn hiq
    obtain ⟨b, hb, hbf⟩ := hinv.key_freq hn hjq
    obtain ⟨hl, hr⟩ := mergeNode_children (i := i) (j := j) (by have := hinv.idx_lt hiq; omega)
      (by have := hinv.idx_lt hjq; omega)
    rw [← List.mem_singleton.1 (List.mem_of_getElem? hnd), Node.left] at hl
    rw [← List.mem_singleton.1 (List.mem_of_getElem? hnd), Node.right] at hr
    rw [hl, hr]
    refine ⟨a, b, old ha, old hb, ?_⟩
    rw [haf, hbf]
    exact Key.before_iff.1 (extractMin_before hinv.idx_nodup hi hjq₁)

/-- Settles O36: no pass changes a node, and each adds one whose first key stands before the second. -/
theorem leftChildHasTheSmallerKey : Obligations.LeftChildHasTheSmallerKey := by
  refine ⟨fun i j => mergeNode_children, fun f => ?_⟩
  by_cases hne : presentPairs f = []
  · intro i w l r h
    rw [buildTree_getElem?_of_empty hne] at h
    cases h
  · obtain ⟨_, _, _, h⟩ := buildTree_keeps (P := fun nodes _ => LeftBeforeRight nodes) hne (leftBeforeRight_leaves f)
      fun hinv h hi hj => h.pass (presentPairs_length_le f) hinv hi hj
    exact h

/-! ### The shape (R75) -/

/-- Settles O34: the invariant of the merge with the root alone in the queue says each clause. -/
theorem buildTreeShape : Obligations.BuildTreeShape := by
  intro f n hn h1
  rw [presentSymbols_length] at hn
  subst hn
  obtain ⟨k, hinv, hroot⟩ := buildTree_root (f := f) (List.length_pos_iff.1 h1)
  have hlast := hinv.root_last
  have hcount := hinv.count
  rw [List.length_singleton] at hcount
  refine ⟨buildTree_n f, by omega, by omega, fun i y hi hy => ?_, fun i hl hu => hinv.internal_at hl (by omega),
    fun i hi => ?_⟩
  · rw [hinv.leaf_at hi]
    rw [presentSymbols_eq_map, List.getElem?_map, List.getElem?_eq_getElem hi] at hy
    obtain rfl := Option.some.inj hy
    rw [(mem_presentPairs.1 (List.getElem_mem hi)).1]
  · have hkids : kids = Node.children := by
      funext nd
      cases nd <;> rfl
    have hc := hinv.parents.count_eq i
    rw [List.count_append, List.count_eq_one_of_mem List.nodup_range (List.mem_range.2 (by omega)), List.map_singleton,
      List.count_singleton] at hc
    simp only [beq_iff_eq] at hc
    rw [hkids]
    split_ifs at hc ⊢ <;> omega

/-! ### The command, and the smallest tables -/

/-- Settles O31: the command has no check that could fail, and its body raises no error. -/
theorem buildTreeCompletes : Obligations.BuildTreeCompletes := by
  intro s l hl
  rw [exec_eq_runCommand, runCommand_complete (body := bodyOf .buildTree) hl rfl rfl (buildTreeBody_eq_ok (l := l).2 rfl)]
  rw [buildTree_nodes_length, buildTree_n, ← presentSymbols_length]
  rfl

/-- Settles O33: the present symbols are none, or `y` alone. -/
theorem emptyAndSingleLeafTables : Obligations.EmptyAndSingleLeafTables := by
  refine ⟨fun f h => ?_, fun f y hy hx => ?_⟩
  · refine buildTree_empty (List.eq_nil_iff_forall_not_mem.2 fun p hp => ?_)
    obtain ⟨hf, hne⟩ := mem_presentPairs.1 hp
    exact hne (hf.symm.trans (h p.1))
  · have hs : presentSymbols f = [y] := by
      rw [← List.perm_singleton, List.perm_ext_iff_of_nodup (presentSymbols_nodup f) (List.nodup_singleton y)]
      intro x
      rw [mem_presentSymbols, List.mem_singleton]
      exact ⟨fun h => by_contra fun hne => h (hx x hne), fun h => h ▸ hy⟩
    obtain ⟨ht, hg⟩ := genCodes_buildTree_single (f := f) (s := y) (c := freqOf f y) (by rw [presentPairs_eq_map, hs]; rfl)
    refine ⟨ht, _, hg, fun x => ?_⟩
    rw [codeOf_setCode, codeOf_emptyCodes]
    simp only [eq_comm]

end Sys2Proof.Machine
end

section
/-! PROOFS. BuildTree is optimal (R76). A `PrefixTree` is looked at through the weights of its leaves with their depths, whose
Kraft sum is 1. The greedy step: the two least weights can be moved to two leaves of the greatest depth, which then
become one leaf a level higher. Every pass of the merge loop is such a step. -/

namespace Sys2Proof.Machine

open Sys2Proof.Claims

/-! ### Depths with Kraft sum 1 -/

/-- The depths `ds` are at most `N`, and their Kraft sum is 1, here multiplied by 2^N. -/
def KraftOne (N : Nat) (ds : List Nat) : Prop := (∀ d ∈ ds, d ≤ N) ∧ (ds.map fun d => 2 ^ (N - d)).sum = 2 ^ N

theorem KraftOne.perm {N : Nat} {ds es : List Nat} (h : KraftOne N ds) (hp : ds.Perm es) : KraftOne N es :=
  ⟨fun d hd => h.1 d (hp.symm.subset hd), (hp.map _).sum_eq.symm.trans h.2⟩

/-- The depths `N + 1` count 1 each in the Kraft sum, the others twice what they count at `N`. -/
theorem kraftSum_succ {N : Nat} {ds : List Nat} (h : ∀ d ∈ ds, d ≤ N + 1) :
    (ds.map fun d => 2 ^ (N + 1 - d)).sum =
      2 * ((ds.filter (· != N + 1)).map fun d => 2 ^ (N - d)).sum + ds.count (N + 1) := by
  induction ds with
  | nil => rfl
  | cons d ds ih =>
    obtain ⟨hd, hds⟩ := List.forall_mem_cons.1 h
    by_cases he : d = N + 1
    · subst he
      rw [List.map_cons, List.sum_cons, ih hds, Nat.sub_self, List.filter_cons_of_neg (by simp), List.count_cons_self]
      omega
    · have hp : 2 ^ (N + 1 - d) = 2 * 2 ^ (N - d) := by rw [← pow_succ', Nat.succ_sub (by omega)]
      rw [List.map_cons, List.sum_cons, ih hds, hp, List.filter_cons_of_pos (by simpa using he),
        List.count_cons_of_ne he, List.map_cons, List.sum_cons]
      omega

/-- Two or more depths with Kraft sum 1: two of them are the greatest. -/
theorem KraftOne.deepest_two {N : Nat} {ds : List Nat} (h : KraftOne N ds) (hlen : 2 ≤ ds.length) :
    ∃ D, KraftOne (D + 1) ds ∧ 2 ≤ ds.count (D + 1) := by
  induction N with
  | zero =>
    obtain ⟨hle, hsum⟩ := h
    have : (ds.map fun d => 2 ^ (0 - d)).sum = ds.length := by simp
    omega
  | succ N ih =>
    have hs := kraftSum_succ h.1
    rw [h.2, pow_succ] at hs
    by_cases h0 : ds.count (N + 1) = 0
    · have hnot := List.count_eq_zero.1 h0
      have hne : ∀ d ∈ ds, d ≠ N + 1 := fun d hd he => hnot (he ▸ hd)
      rw [List.filter_eq_self.2 (by simpa using hne)] at hs
      exact ih ⟨fun d hd => Nat.le_of_lt_succ (lt_of_le_of_ne (h.1 d hd) (hne d hd)), by omega⟩
    · exact ⟨N, h, by omega⟩

/-- Two leaves of depth `D + 1` become one of depth `D`. -/
theorem KraftOne.collapse {D : Nat} {ds : List Nat} (h : KraftOne (D + 1) ((D + 1) :: (D + 1) :: ds)) :
    KraftOne (D + 1) (D :: ds) := by
  obtain ⟨hle, hsum⟩ := h
  simp only [List.map_cons, List.sum_cons, Nat.sub_self, pow_zero] at hsum
  refine ⟨List.forall_mem_cons.2 ⟨by omega, fun d hd => hle d (by simp [hd])⟩, ?_⟩
  rw [List.map_cons, List.sum_cons, Nat.add_sub_cancel_left, pow_one]
  omega

/-! ### Weights at depths -/

/-- The weighted path length of weights at depths. -/
def pathLength (xs : List (Nat × Nat)) : Nat := (xs.map fun x => x.1 * x.2).sum

theorem pathLength_perm {xs ys : List (Nat × Nat)} (h : xs.Perm ys) : pathLength xs = pathLength ys :=
  (h.map _).sum_eq

@[simp] theorem pathLength_cons (x : Nat × Nat) (xs : List (Nat × Nat)) :
    pathLength (x :: xs) = x.1 * x.2 + pathLength xs := rfl

@[simp] theorem pathLength_append (xs ys : List (Nat × Nat)) : pathLength (xs ++ ys) = pathLength xs + pathLength ys := by
  simp [pathLength]

/-- The least weight `w` can take the place of the weight `a` at the greatest depth `D`; `a` goes where `w` was. -/
theorem exchange_least {D a w : Nat} {xs : List (Nat × Nat)} {ws : List Nat} (hd : ∀ d ∈ xs.map Prod.snd, d ≤ D)
    (hp : (a :: xs.map Prod.fst).Perm (w :: ws)) (hw : ∀ v ∈ ws, w ≤ v) :
    ∃ ys : List (Nat × Nat), (ys.map Prod.fst).Perm ws ∧ ys.map Prod.snd = xs.map Prod.snd ∧
      w * D + pathLength ys ≤ a * D + pathLength xs := by
  by_cases he : a = w
  · subst he
    exact ⟨xs, hp.cons_inv, rfl, le_rfl⟩
  have ha : w ≤ a := hw a ((List.mem_cons.1 (hp.subset List.mem_cons_self)).resolve_left he)
  have hmem := (List.mem_cons.1 (hp.symm.subset List.mem_cons_self)).resolve_left (Ne.symm he)
  obtain ⟨⟨v, d⟩, hx, (rfl : v = w)⟩ := List.mem_map.1 hmem
  have hle : d ≤ D := hd d (List.mem_map_of_mem (f := Prod.snd) hx)
  obtain ⟨us, vs, rfl⟩ := List.append_of_mem hx
  simp only [List.map_append, List.map_cons] at hp
  refine ⟨us ++ (a, d) :: vs, ?_, by simp, ?_⟩
  · simp only [List.map_append, List.map_cons]
    refine List.Perm.cons_inv (a := v) (List.Perm.trans ?_ hp)
    calc (v :: (us.map Prod.fst ++ a :: vs.map Prod.fst)).Perm
          (v :: a :: (us.map Prod.fst ++ vs.map Prod.fst)) := List.perm_middle.cons v
      _ |>.Perm (a :: v :: (us.map Prod.fst ++ vs.map Prod.fst)) := List.Perm.swap _ _ _
      _ |>.Perm (a :: (us.map Prod.fst ++ v :: vs.map Prod.fst)) := List.perm_middle.symm.cons a
  · have := mul_add_mul_le_mul_add_mul ha hle
    simp only [pathLength_append, pathLength_cons]
    omega

theorem exists_perm_of_depth_mem {D : Nat} {xs : List (Nat × Nat)} (h : D ∈ xs.map Prod.snd) :
    ∃ a zs, xs.Perm ((a, D) :: zs) := by
  obtain ⟨⟨a, _⟩, hx, rfl⟩ := List.mem_map.1 h
  exact ⟨a, _, List.perm_cons_erase hx⟩

theorem exists_perm_of_depth_twice {D : Nat} {xs : List (Nat × Nat)} (h : 2 ≤ (xs.map Prod.snd).count D) :
    ∃ a b zs, xs.Perm ((a, D) :: (b, D) :: zs) := by
  obtain ⟨a, zs, hz⟩ := exists_perm_of_depth_mem (List.count_pos_iff.1 (show 0 < (xs.map Prod.snd).count D by omega))
  rw [(hz.map Prod.snd).count_eq, List.map_cons, List.count_cons_self] at h
  obtain ⟨b, us, hu⟩ := exists_perm_of_depth_mem (List.count_pos_iff.1 (show 0 < (zs.map Prod.snd).count D by omega))
  exact ⟨a, b, us, hz.trans (hu.cons _)⟩

/-- The greedy step: weights at depths can give up their two least weights `x` and `y` for the one weight `x + y`, and the
weighted path length goes down by `x + y` at least. -/
theorem greedy_step {N x y : Nat} {xs : List (Nat × Nat)} {ws : List Nat} (hk : KraftOne N (xs.map Prod.snd))
    (hp : (xs.map Prod.fst).Perm (x :: y :: ws)) (hx : ∀ v ∈ y :: ws, x ≤ v) (hy : ∀ v ∈ ws, y ≤ v) :
    ∃ M, ∃ ys : List (Nat × Nat), KraftOne M (ys.map Prod.snd) ∧ (ys.map Prod.fst).Perm ((x + y) :: ws) ∧
      pathLength ys + (x + y) ≤ pathLength xs := by
  have hlen : 2 ≤ (xs.map Prod.snd).length := by
    have := hp.length_eq
    simp only [List.length_map, List.length_cons] at this ⊢
    omega
  obtain ⟨D, hD, hcount⟩ := hk.deepest_two hlen
  obtain ⟨a, b, zs, hz⟩ := exists_perm_of_depth_twice hcount
  have hdeep : KraftOne (D + 1) ((D + 1) :: (D + 1) :: zs.map Prod.snd) := hD.perm (hz.map Prod.snd)
  obtain ⟨us, hus, hud, huc⟩ := exchange_least (a := a) (w := x) (ws := y :: ws) (xs := (b, D + 1) :: zs)
    (fun d hd => hdeep.1 d (List.mem_cons_of_mem _ hd)) ((hz.map Prod.fst).symm.trans hp) hx
  obtain ⟨⟨c, _⟩, vs, rfl, rfl, hvd⟩ := List.map_eq_cons_iff.1 hud
  obtain ⟨ys, hys, hyd, hyc⟩ := exchange_least (a := c) (w := y) (ws := ws) (xs := vs)
    (fun d hd => hdeep.1 d (by rw [hvd] at hd; simp [hd])) hus hy
  refine ⟨D + 1, (x + y, D) :: ys, ?_, hys.cons _, ?_⟩
  · rw [List.map_cons, hyd, hvd]
    exact hdeep.collapse
  · rw [pathLength_perm hz]
    simp only [pathLength_cons, Nat.mul_succ, Nat.add_mul] at huc hyc ⊢
    omega

end Sys2Proof.Machine

/-! ### The trees of the claim -/

namespace Sys2Proof.Claims

open Sys2Proof.Machine

/-- The counts of the leaves with their depths, where its root stands at depth `d`. -/
def PrefixTree.leafDepths (f : FreqTable) : Nat → PrefixTree → List (Nat × Nat)
  | d, .leaf s => [((freqOf f s).toNat, d)]
  | d, .node l r => l.leafDepths f (d + 1) ++ r.leafDepths f (d + 1)

theorem PrefixTree.pathLength_leafDepths (f : FreqTable) (t : PrefixTree) (d : Nat) :
    pathLength (t.leafDepths f d) = t.cost f d := by
  induction t generalizing d with
  | leaf s => simp [leafDepths, cost, pathLength]
  | node l r ihl ihr => simp [leafDepths, cost, ihl, ihr]

theorem PrefixTree.leafDepths_weights (f : FreqTable) (t : PrefixTree) (d : Nat) :
    (t.leafDepths f d).map Prod.fst = t.leaves.map fun s => (freqOf f s).toNat := by
  induction t generalizing d with
  | leaf s => rfl
  | node l r ihl ihr => simp [leafDepths, leaves, ihl, ihr]

theorem PrefixTree.leaves_length_pos (t : PrefixTree) : 0 < t.leaves.length := by
  cases t with
  | leaf s => simp [leaves]
  | node l r => simpa [leaves] using .inl (leaves_length_pos l)

/-- The leaves of a tree at depth `d` have the Kraft sum of one leaf of depth `d`. -/
theorem PrefixTree.leafDepths_kraft (f : FreqTable) (t : PrefixTree) {d N : Nat} (h : d + t.leaves.length ≤ N + 1) :
    (∀ e ∈ (t.leafDepths f d).map Prod.snd, e ≤ N) ∧
      (((t.leafDepths f d).map Prod.snd).map fun e => 2 ^ (N - e)).sum = 2 ^ (N - d) := by
  induction t generalizing d with
  | leaf s => simpa [leafDepths, leaves] using h
  | node l r ihl ihr =>
    have hl := l.leaves_length_pos
    have hr := r.leaves_length_pos
    rw [leaves, List.length_append] at h
    obtain ⟨hle, hls⟩ := ihl (d := d + 1) (by omega)
    obtain ⟨hre, hrs⟩ := ihr (d := d + 1) (by omega)
    simp only [leafDepths, List.map_append, List.sum_append, hls, hrs]
    refine ⟨fun e he => (List.mem_append.1 he).elim (hle e) (hre e), ?_⟩
    rw [← two_mul, ← pow_succ']
    congr 1
    omega

theorem PrefixTree.kraftOne (f : FreqTable) (t : PrefixTree) :
    KraftOne t.leaves.length ((t.leafDepths f 0).map Prod.snd) :=
  t.leafDepths_kraft f (by omega)

end Sys2Proof.Claims

/-! ### BuildTree's tree -/

namespace Sys2Proof.Machine

open Sys2Proof.Claims

/-- The weighted path length of a tree: the sum of the weights of its internal nodes. -/
def HTree.cost : HTree → Nat
  | .leaf _ _ => 0
  | .node l r => l.cost + r.cost + (HTree.node l r).weight

/-- It is the sum of count times path length over the leaves, where `g` says the count of a symbol (R11). -/
theorem HTree.sum_paths {g : Byte → Nat} (t : HTree) (h : ∀ p ∈ t.leaves, g p.1 = p.2.toNat) :
    (t.paths.map fun x => g x.1 * x.2.length).sum = t.cost := by
  have hweight {t : HTree} (h : ∀ p ∈ t.leaves, g p.1 = p.2.toNat) : (t.paths.map fun x => g x.1).sum = t.weight := by
    rw [t.weight_eq, ← List.map_congr_left h]
    simpa [Function.comp_def] using congrArg (fun l => (l.map g).sum) t.paths_symbols
  induction t with
  | leaf s c => simp [HTree.paths, HTree.cost]
  | node l r ihl ihr =>
    obtain ⟨hl, hr⟩ := List.forall_mem_append.1 h
    have hstep (u : HTree) : (u.paths.map fun x => g x.1 * (x.2.length + 1)).sum =
        (u.paths.map fun x => g x.1 * x.2.length).sum + (u.paths.map fun x => g x.1).sum := by
      rw [← List.sum_map_add]
      rfl
    simp only [HTree.paths, List.map_append, List.map_map, Function.comp_def, List.length_cons, List.sum_append, hstep,
      ihl hl, ihr hr, hweight hl, hweight hr, HTree.cost, HTree.weight]
    omega

/-- The node a pass adds stands for the tree made of the two it took. -/
theorem Represents.merge {nodes : List Node} {i j : Key} {t u : HTree} (hi : i.idx < 512) (hj : j.idx < 512)
    (ht : Represents nodes i t) (hu : Represents nodes j u) :
    Represents (nodes ++ [mergeNode i j]) ⟨i.freq + j.freq, nodes.length⟩ (.node t u) := by
  obtain ⟨hl, hr⟩ := mergeNode_children hi hj
  obtain ⟨htd, htw⟩ := ht
  obtain ⟨hud, huw⟩ := hu
  refine ⟨.node (l := (mergeNode i j).left) (r := (mergeNode i j).right) List.getElem?_concat_length
    (by rw [hl]; exact htd.append _) (by rw [hr]; exact hud.append _) ?_, ?_⟩
  · rw [htw, huw]
  · rw [HTree.weight, htw, huw]

theorem Key.freq_le_of_before {a b : Key} (h : a.before b = true) : a.freq ≤ b.freq := by
  rw [Key.before_iff] at h
  omega

/-- `c` is no less than what the trees of the queue cost so far with the weighted path length of some weights at depths, the
weights of the queue's members. -/
def CostBound (c : Nat) (nodes : List Node) (q : List Key) : Prop :=
  ∃ (ts : List HTree) (N : Nat) (xs : List (Nat × Nat)), List.Forall₂ (Represents nodes) q ts ∧
    KraftOne N (xs.map Prod.snd) ∧ (xs.map Prod.fst).Perm (q.map Key.freq) ∧
    pathLength xs + (ts.map HTree.cost).sum ≤ c

/-- The queue's two first keys have the two least weights, so a pass is a greedy step. -/
theorem CostBound.pass {c : Nat} {pairs : List (Byte × Word)} {nodes : List Node} {q q₁ q₂ : List Key} {i j : Key}
    (hn : pairs.length ≤ 256) (hinv : MergeInv pairs nodes q) (h : CostBound c nodes q)
    (hi : extractMin q = some (i, q₁)) (hj : extractMin q₁ = some (j, q₂)) :
    CostBound c (nodes ++ [mergeNode i j]) (q₂ ++ [⟨i.freq + j.freq, nodes.length⟩]) := by
  obtain ⟨ts, N, xs, hts, hk, hw, hle⟩ := h
  have hp : (i :: j :: q₂).Perm q := ((extractMin_perm hj).cons i).trans (extractMin_perm hi)
  have hlt {k : Key} (hk : k ∈ i :: j :: q₂) : k.idx < 512 := by
    have := hinv.idx_lt (hp.subset hk)
    have := hinv.nodes_length_lt hn (hp.subset hk)
    omega
  have hx : ∀ v ∈ (j :: q₂).map Key.freq, i.freq ≤ v := by
    rintro _ hv
    obtain ⟨k, hk, rfl⟩ := List.mem_map.1 hv
    exact Key.freq_le_of_before (extractMin_before hinv.idx_nodup hi ((extractMin_perm hj).subset hk))
  have hy : ∀ v ∈ q₂.map Key.freq, j.freq ≤ v := by
    rintro _ hv
    obtain ⟨k, hk, rfl⟩ := List.mem_map.1 hv
    have hq₁ := (((extractMin_perm hi).map Key.idx).nodup_iff.2 hinv.idx_nodup).of_cons
    exact Key.freq_le_of_before (extractMin_before hq₁ hj hk)
  obtain ⟨us, hus, hperm⟩ := forall₂_perm hts hp
  obtain ⟨t, _, ht, hus', rfl⟩ := List.forall₂_cons_left_iff.1 hus
  obtain ⟨u, us, hu, hrest, rfl⟩ := List.forall₂_cons_left_iff.1 hus'
  obtain ⟨M, ys, hM, hys, hcost⟩ := greedy_step hk (hw.trans (hp.map Key.freq).symm) hx hy
  refine ⟨us ++ [.node t u], M, ys, ?_, hM, ?_, ?_⟩
  · exact List.rel_append (hrest.imp fun _ _ h => h.append _) (.cons (ht.merge (hlt (by simp)) (hlt (by simp)) hu) .nil)
  · rw [List.map_append]
    exact hys.trans (List.perm_append_singleton _ _).symm
  · rw [← (hperm.map HTree.cost).sum_eq] at hle
    simp only [List.map_append, List.map_cons, List.map_nil, List.sum_append, List.sum_cons, List.sum_nil, HTree.cost,
      HTree.weight, ht.2, hu.2] at hle ⊢
    omega

theorem sum_cost_of_leaves {f : FreqTable} {q : List Key} {ts : List HTree}
    (h : List.Forall₂ (Represents (leafNodes f)) q ts) : (ts.map HTree.cost).sum = 0 := by
  induction h with
  | nil => rfl
  | cons hr _ ih =>
    rw [List.map_cons, List.sum_cons, ih]
    cases hr.1 with
    | leaf => rfl
    | node h => simp [leafNodes] at h

theorem leafKeys_freq (f : FreqTable) : (leafKeys f).map Key.freq = (presentPairs f).map fun p => p.2.toNat := by
  apply List.ext_getElem <;> simp [leafKeys]

/-- Before the first pass every `PrefixTree` over the present symbols gives a bound: its leaves with their depths. -/
theorem costBound_leaves {f : FreqTable} {t : PrefixTree} (ht : t.leaves.Perm (presentSymbols f)) :
    CostBound (t.cost f 0) (leafNodes f) (leafKeys f) := by
  obtain ⟨ts, hts, _⟩ := (mergeInv_start f).forest
  refine ⟨ts, _, t.leafDepths f 0, hts, t.kraftOne f, ?_, ?_⟩
  · rw [t.leafDepths_weights, leafKeys_freq, presentPairs_eq_map, List.map_map]
    exact ht.map _
  · rw [t.pathLength_leafDepths, sum_cost_of_leaves hts, Nat.add_zero]

/-- BuildTree's tree costs no more than any `PrefixTree` over the present symbols: its root alone is left in the queue. -/
theorem buildTree_cost_le {f : FreqTable} {t : PrefixTree} (hne : presentPairs f ≠ [])
    (ht : t.leaves.Perm (presentSymbols f)) {u : HTree}
    (hu : Denotes (buildTree f).nodes (buildTree f).root.toNat u) : u.cost ≤ t.cost f 0 := by
  obtain ⟨k, _, hroot, ts, _, xs, hts, _, _, hle⟩ := buildTree_keeps (P := CostBound (t.cost f 0)) hne
    (costBound_leaves ht) fun hinv h hi hj => h.pass (presentPairs_length_le f) hinv hi hj
  obtain ⟨u', us, hu', hus, rfl⟩ := List.forall₂_cons_left_iff.1 hts
  obtain rfl := (hroot ▸ hu).unique hu'.1
  rw [List.map_cons, List.sum_cons] at hle
  omega

/-- Settles O37: the codes are the paths of the tree at the root, which costs no more than any `PrefixTree`. -/
theorem buildTreeIsOptimal : Obligations.BuildTreeIsOptimal := by
  intro f c h hc t ht
  rw [presentSymbols_length] at h
  obtain ⟨u, _, _, _, hd, hleaves, hg, hnodup⟩ := genCodes_buildTree_tree h
  obtain rfl := Except.ok.inj (hg.symm.trans hc)
  have hperm : (u.paths.map Prod.fst).Perm (presentSymbols f) := by
    rw [HTree.paths_symbols, presentSymbols_eq_map]
    exact hleaves.map _
  have hlen : ∀ x ∈ u.paths, codeLen (codeOf (setPaths emptyCodes [] u.paths) x.1) = x.2.length := by
    intro x hx
    rw [(codeOf_setPaths_empty hnodup).2 hx, codeLen]
  have hcount : ∀ p ∈ u.leaves, (freqOf f p.1).toNat = p.2.toNat := by
    intro p hp
    rw [(mem_presentPairs.1 (hleaves.subset hp)).1]
  calc ((presentSymbols f).map fun y => (freqOf f y).toNat * codeLen (codeOf (setPaths emptyCodes [] u.paths) y)).sum
    _ = (u.paths.map fun x => (freqOf f x.1).toNat * x.2.length).sum := by
      rw [← (hperm.map _).sum_eq, List.map_map]
      exact congrArg List.sum (List.map_congr_left fun x hx => by rw [Function.comp_apply, hlen x hx])
    _ = u.cost := u.sum_paths (g := fun y => (freqOf f y).toNat) hcount
    _ ≤ t.cost f 0 := buildTree_cost_le (List.length_pos_iff.1 (by omega)) ht hd

end Sys2Proof.Machine
end

section
/-! PROOFS. The code table (R78–R83): the codes of a table are the paths of BuildTree's tree, listed with their symbols,
and each part of R81 is a fact about the paths of a tree. -/

namespace Sys2Proof.Machine

open Sys2Proof.Claims

/-! ### The paths of a tree -/

/-- Following the bits `p` from the root of a tree ends at a leaf of `y` exactly if `p` is a path of `y` (R78). -/
theorem Denotes.followPath_eq_leaf {nodes : List Node} {k : Nat} {t : HTree} (h : Denotes nodes k t) {i : NodeIdx}
    (hi : i.toNat = k) {y : Byte} {p : Bits} :
    (∃ w, followPath nodes i p = some (.leaf y w)) ↔ (y, p) ∈ t.paths := by
  induction h generalizing i p with
  | leaf h =>
    rw [← hi] at h
    cases p with
    | nil => simp [followPath, h, HTree.paths, eq_comm]
    | cons b p => simp [followPath, h, HTree.paths]
  | node h _ _ _ ihl ihr =>
    rw [← hi] at h
    cases p with
    | nil => simp [followPath, h, HTree.paths]
    | cons b p =>
      cases b
      · simp [followPath, h, HTree.paths, ihl rfl]
      · simp [followPath, h, HTree.paths, ihr rfl]

/-- No bit-string of the list begins another entry's (R81). -/
def PrefixFree (xs : List (Byte × Bits)) : Prop := ∀ x ∈ xs, ∀ y ∈ xs, x.2 <+: y.2 → x = y

theorem HTree.paths_prefixFree (t : HTree) : PrefixFree t.paths := by
  induction t with
  | leaf s c => simp [PrefixFree, HTree.paths]
  | node l r ihl ihr =>
    simp only [PrefixFree, HTree.paths, List.mem_append, List.mem_map]
    rintro _ (⟨x, hx, rfl⟩ | ⟨x, hx, rfl⟩) _ (⟨y, hy, rfl⟩ | ⟨y, hy, rfl⟩) hp
    · rw [ihl x hx y hy (List.cons_prefix_cons.1 hp).2]
    · simp at hp
    · simp at hp
    · rw [ihr x hx y hy (List.cons_prefix_cons.1 hp).2]

/-- The path lengths have Kraft sum 1, and none is greater than the height. -/
theorem HTree.kraftOne {t : HTree} {N : Nat} (h : t.height ≤ N) : KraftOne N (t.paths.map fun x => x.2.length) := by
  induction t generalizing N with
  | leaf s c => simp [KraftOne, HTree.paths]
  | node l r ihl ihr =>
    rw [HTree.height] at h
    obtain ⟨N, rfl⟩ : ∃ M, N = M + 1 := ⟨N - 1, by omega⟩
    obtain ⟨hl, hls⟩ := ihl (N := N) (by omega)
    obtain ⟨hr, hrs⟩ := ihr (N := N) (by omega)
    simp only [List.forall_mem_map] at hl hr
    simp only [List.map_map, Function.comp_def] at hls hrs
    simp only [KraftOne, HTree.paths, List.map_append, List.map_map, Function.comp_def, List.length_cons, List.sum_append,
      Nat.add_sub_add_right, hls, hrs]
    refine ⟨?_, by omega⟩
    simp only [List.forall_mem_append, List.forall_mem_map]
    exact ⟨fun x hx => Nat.succ_le_succ (hl x hx), fun x hx => Nat.succ_le_succ (hr x hx)⟩

/-! ### The codes of a table -/

/-- `xs` lists the codes of the table `c`: one entry for each present symbol of `f`, prefix-free, none longer than
MAX_CODE_LEN (R81, R82). -/
structure CodeList (f : FreqTable) (c : CodeTable) (xs : List (Byte × Bits)) : Prop where
  codeOf_eq_some : ∀ {y p}, codeOf c y = some p ↔ (y, p) ∈ xs
  symbols : (xs.map Prod.fst).Perm (presentSymbols f)
  prefixFree : PrefixFree xs
  length_le : ∀ x ∈ xs, x.2.length ≤ Config.maxCodeLen

/-- For two or more leaves the codes are listed by the paths of BuildTree's tree. -/
theorem genCodes_codeList_tree {f : FreqTable} {c : CodeTable} (h : 2 ≤ (presentPairs f).length)
    (hc : genCodes (buildTree f).nodes (buildTree f).n (buildTree f).root = .ok c) :
    ∃ l r, Denotes (buildTree f).nodes (buildTree f).root.toNat (.node l r) ∧
      (HTree.node l r).height ≤ (presentPairs f).length - 1 ∧ CodeList f c (HTree.node l r).paths := by
  obtain ⟨_, l, r, rfl, hd, hleaves, hg, hnodup⟩ := genCodes_buildTree_tree h
  obtain rfl := Except.ok.inj (hg.symm.trans hc)
  have hheight := (HTree.node l r).height_lt
  rw [hleaves.length_eq] at hheight
  have hle := presentPairs_length_le f
  refine ⟨l, r, hd, by omega, codeOf_setPaths_empty hnodup, ?_, HTree.paths_prefixFree _, ?_⟩
  · rw [HTree.paths_symbols, presentSymbols_eq_map]
    exact hleaves.map _
  · exact List.forall_mem_map.1 (HTree.kraftOne (by rw [Config.maxCodeLen]; omega)).1

/-- Every table that GenCodes gives for BuildTree's tree has such a list (R78, R79, R81). -/
theorem genCodes_codeList {f : FreqTable} {c : CodeTable}
    (hc : genCodes (buildTree f).nodes (buildTree f).n (buildTree f).root = .ok c) : ∃ xs, CodeList f c xs := by
  rcases hp : presentPairs f with _ | ⟨⟨s, w⟩, _ | ⟨q, ps⟩⟩
  · rw [buildTree_empty hp] at hc
    obtain rfl : emptyCodes = c := Except.ok.inj hc
    exact ⟨[], by simp, by simp [presentSymbols_eq_map, hp], by simp [PrefixFree], by simp⟩
  · obtain rfl := Except.ok.inj ((genCodes_buildTree_single hp).2.symm.trans hc)
    exact ⟨[(s, [false])], codeOf_setPaths_empty (xs := [(s, [false])]) (by simp), by simp [presentSymbols_eq_map, hp],
      by simp [PrefixFree], by simp [Config.maxCodeLen]⟩
  · obtain ⟨_, _, _, _, hxs⟩ := genCodes_codeList_tree (by rw [hp]; simp) hc
    exact ⟨_, hxs⟩

theorem CodeList.isSome_iff {f : FreqTable} {c : CodeTable} {xs : List (Byte × Bits)} (h : CodeList f c xs) {y : Byte} :
    (codeOf c y).isSome = true ↔ freqOf f y ≠ 0#32 := by
  rw [← mem_presentSymbols, ← h.symbols.mem_iff, Option.isSome_iff_exists]
  simp [h.codeOf_eq_some]

/-- The code lengths of the present symbols are the lengths of the list. -/
theorem CodeList.lengths_perm {f : FreqTable} {c : CodeTable} {xs : List (Byte × Bits)} (h : CodeList f c xs) :
    (xs.map fun x => x.2.length).Perm ((presentSymbols f).map fun y => codeLen (codeOf c y)) := by
  have hlen : (xs.map fun x => x.2.length) = (xs.map Prod.fst).map fun y => codeLen (codeOf c y) := by
    rw [List.map_map]
    exact List.map_congr_left fun x hx => by rw [Function.comp_apply, h.codeOf_eq_some.2 hx, codeLen]
  rw [hlen]
  exact h.symbols.map _

/-- Settles O39: the codes are listed by the paths of the tree at the root, and following a path ends at its leaf. -/
theorem codesAreThePathsToTheLeaves : Obligations.CodesAreThePathsToTheLeaves := by
  intro f c h hc y p
  rw [presentSymbols_length] at h
  obtain ⟨l, r, hd, _, hxs⟩ := genCodes_codeList_tree h hc
  rw [hxs.codeOf_eq_some, hd.followPath_eq_leaf rfl]

/-- Settles O40: (a) and (c) are read off the list of the codes, (b) from the Kraft sum of the tree's paths, (d) from
O39. -/
theorem codeTableProperties : Obligations.CodeTableProperties := by
  intro f c n hn hc
  rw [presentSymbols_length] at hn
  subst hn
  obtain ⟨xs, hxs⟩ := genCodes_codeList hc
  refine ⟨fun y => hxs.isSome_iff, fun h2 y p hp => ?_, fun h2 => ?_, fun x y p q hxy hp hq hpq => ?_,
    fun h2 y p q w hp hq => ?_⟩
  · obtain ⟨l, r, _, hheight, hps⟩ := genCodes_codeList_tree h2 hc
    have hmem := hps.codeOf_eq_some.1 hp
    refine ⟨?_, List.forall_mem_map.1 (HTree.kraftOne hheight).1 _ hmem⟩
    rw [Nat.one_le_iff_ne_zero, Ne, List.length_eq_zero_iff]
    rintro rfl
    simp [HTree.paths] at hmem
  · obtain ⟨l, r, _, hheight, hps⟩ := genCodes_codeList_tree h2 hc
    have hle := presentPairs_length_le f
    have hkraft := ((HTree.kraftOne (N := 255) (by omega)).perm hps.lengths_perm).2
    rwa [List.map_map] at hkraft
  · exact hxy (congrArg Prod.fst (hxs.prefixFree _ (hxs.codeOf_eq_some.1 hp) _ (hxs.codeOf_eq_some.1 hq) hpq))
  · rw [← presentSymbols_length] at h2
    have hcode := (codesAreThePathsToTheLeaves f c h2 hc y q).2 ⟨w, hq⟩
    rw [Option.some.inj (hp.symm.trans hcode)]

/-! ### The largest code length -/

theorem mem_toList_iff_codeOf {c : CodeTable} {e : Option Bits} : e ∈ c.toList ↔ ∃ y, codeOf c y = e := by
  rw [List.mem_iff_getElem]
  constructor
  · rintro ⟨k, hk, rfl⟩
    have hk' : k < 256 := by simpa using hk
    exact ⟨BitVec.ofNat 8 k, by simp [codeOf, Nat.mod_eq_of_lt hk']⟩
  · rintro ⟨y, rfl⟩
    exact ⟨y.toNat, by simpa using y.isLt, by simp [codeOf]⟩

theorem maxLen_eq_max? (c : CodeTable) : (0 :: c.toList.map codeLen).max? = some (maxLen c) := by
  rw [List.max?_cons', List.foldl_map, maxLen]

theorem codeLen_le_maxLen (c : CodeTable) (y : Byte) : codeLen (codeOf c y) ≤ maxLen c :=
  (List.max?_eq_some_iff.1 (maxLen_eq_max? c)).2 _
    (List.mem_cons_of_mem _ (List.mem_map_of_mem (mem_toList_iff_codeOf.2 ⟨y, rfl⟩)))

theorem exists_codeLen_eq_maxLen (c : CodeTable) : ∃ y, codeLen (codeOf c y) = maxLen c := by
  rcases List.mem_cons.1 (List.max?_eq_some_iff.1 (maxLen_eq_max? c)).1 with h0 | hmem
  · have hle := codeLen_le_maxLen c 0#8
    exact ⟨0#8, by omega⟩
  · obtain ⟨e, he, hlen⟩ := List.mem_map.1 hmem
    obtain ⟨y, rfl⟩ := mem_toList_iff_codeOf.1 he
    exact ⟨y, hlen⟩

/-- The largest code length is that of a code, or there is no code. -/
theorem maxLen_cases (c : CodeTable) :
    (maxLen c = 0 ∧ ∀ y, codeOf c y = none) ∨ ∃ y p, codeOf c y = some p ∧ p.length = maxLen c := by
  obtain ⟨y, hy⟩ := exists_codeLen_eq_maxLen c
  cases hcode : codeOf c y with
  | some p => exact .inr ⟨y, p, hcode, by rw [← hy, hcode, codeLen]⟩
  | none =>
    have h0 : maxLen c = 0 := by rw [← hy, hcode, codeLen]
    by_cases hall : ∀ z, codeOf c z = none
    · exact .inl ⟨h0, hall⟩
    · obtain ⟨z, hz⟩ := not_forall.1 hall
      obtain ⟨p, hp⟩ := Option.ne_none_iff_exists'.1 hz
      have hle := codeLen_le_maxLen c z
      rw [hp, codeLen] at hle
      exact .inr ⟨z, p, hp, by omega⟩

/-! ### The command -/

/-- While TREE_VALID = 1, GEN_CODES runs on BuildTree(FREQ): NLEAF holds the leaf count (R34). -/
theorem State.Inv.genCodes_eq {s : State} (h : s.Inv) (hv : s.treeValid = true) :
    s.nleaf.toNat = (buildTree s.freq).n ∧ genCodes s.nodes s.nleaf.toNat s.root =
      genCodes (buildTree s.freq).nodes (buildTree s.freq).n (buildTree s.freq).root := by
  obtain ⟨hn, hl, hr⟩ := h.tree hv
  have hle := presentPairs_length_le s.freq
  have hnl : s.nleaf.toNat = (buildTree s.freq).n := by
    rw [hl, BitVec.toNat_ofNat, Nat.mod_eq_of_lt (by rw [buildTree_n]; omega)]
  exact ⟨hnl, by rw [hnl, hn, hr]⟩

theorem exec_genCodes_complete {s : State} {l : Latch} {c : CodeTable} (hl : s.latch = some l) (hv : s.treeValid = true)
    (hc : genCodes s.nodes s.nleaf.toNat s.root = .ok c) :
    exec .genCodes s = .next (complete { s with
      codes := c, codesValid := true, res0 := s.nleaf.setWidth 32, res1 := BitVec.ofNat 32 (maxLen c) }) := by
  rw [exec_eq_runCommand]
  exact runCommand_complete hl hv rfl ((genCodesBody_eq_ok (l := l)).2 ⟨c, hc, rfl⟩)

/-- A success of GEN_CODES is the table GenCodes gives for a valid tree. -/
theorem genCodes_ok_of_exec {s t : State} (h : exec .genCodes s = .next t) (hok : t.err = .ok) :
    ∃ l c, s.latch = some l ∧ s.treeValid = true ∧ genCodes s.nodes s.nleaf.toNat s.root = .ok c := by
  rw [exec_eq_runCommand] at h
  obtain ⟨l, hl, ⟨hr, _, u, hb, _⟩ | ⟨_, rfl⟩ | ⟨_, _, rfl⟩ | ⟨_, _, e, n, hb, rfl⟩⟩ := runCommand_next h
  · obtain ⟨c, hc, _⟩ := (genCodesBody_eq_ok (l := l)).1 hb
    exact ⟨l, c, hl, hr, hc⟩
  · cases hok
  · cases hok
  · obtain rfl : e = .ok := hok
    cases bodyOf_error_code hb

/-- Settles O38: GEN_CODES of a valid tree is GenCodes of BuildTree(FREQ), which has a table, and reads no earlier one. -/
theorem genCodesCompletes : Obligations.GenCodesCompletes := by
  refine ⟨fun s l hinv hl hv => ?_, fun s t c h hok => ?_⟩
  · obtain ⟨hn, hg⟩ := hinv.genCodes_eq hv
    obtain ⟨c, hc⟩ := genCodes_buildTree_ok s.freq
    obtain ⟨xs, hxs⟩ := genCodes_codeList hc
    refine ⟨c, maxLen c, hg.trans hc, ?_, ?_, fun y p hp => ?_, ?_⟩
    · rw [exec_genCodes_complete hl hv (hg.trans hc), BitVec.ofNat_toNat]
      rfl
    · rcases maxLen_cases c with ⟨h0, _⟩ | ⟨y, p, hp, hmax⟩
      · omega
      · rw [← hmax]
        exact hxs.length_le _ (hxs.codeOf_eq_some.1 hp)
    · have hle := codeLen_le_maxLen c y
      rwa [hp] at hle
    · refine (maxLen_cases c).imp_left fun ⟨h0, hnone⟩ => ⟨h0, BitVec.eq_of_toNat_eq ?_⟩
      have habsent : presentSymbols s.freq = [] := List.eq_nil_iff_forall_not_mem.2 fun y hy => by
        simpa [hnone y] using hxs.isSome_iff.2 (mem_presentSymbols.1 hy)
      rw [hn, buildTree_n, ← presentSymbols_length, habsent]
      rfl
  · obtain ⟨l, d, hl, hv, hd⟩ := genCodes_ok_of_exec h hok
    rw [← h, exec_genCodes_complete hl hv hd]
    exact exec_genCodes_complete hl hv hd

end Sys2Proof.Machine
end

section
/-! PROOFS. The command ENCODE (R84, R85, R87): what a packed payload reads as, the end of the encoder's loop at the first bad
symbol, and the two ends of the command. -/

namespace Sys2Proof.Machine

open Sys2Proof.Claims

/-! ### The written payload -/

/-- Every bit of the bytes of Pack(p) reads as the bit of p, and as 0 past the end of p (R47, R48). -/
theorem payloadBit_writeBytes_pack (m : Memory) (a : Nat) (p : Bits) {j : Nat} (hj : j < 8 * ceil8 p.length) :
    payloadBit (Memory.writeBytes m a (pack p)) a j = .ok (p.getD j false) := by
  have hk : j / 8 < (pack p).length := by rw [pack_length]; omega
  refine payloadBit_eq_ok.2 ⟨packByte p (j / 8), ?_, ?_⟩
  · rw [Memory.read_writeBytes_inside _ _ _ _ hk, pack_getElem]
  · rw [packByte_bit _ _ _ (Nat.mod_lt _ (by omega)), Nat.div_add_mod]

/-! ### The loop on a sequence of symbols -/

theorem holdsBytes_concat {m : Memory} {a : Nat} {bs : List Byte} {y : Byte} (h : HoldsBytes m a (bs ++ [y])) :
    HoldsBytes m a bs ∧ Memory.read m (a + bs.length) = some y := by
  refine ⟨fun k hk => ?_, ?_⟩
  · rw [h k (by simp; omega), List.getElem_append_left hk]
  · rw [h bs.length (by simp), List.getElem_concat_length rfl]

/-- Symbols with codes that fit take the loop from its start past them (R84, R87). -/
theorem encodeFrom_coded {c : CodeTable} {m : Memory} {a0 cap : Nat} {xs : List (Byte × Bits)} (n : Nat)
    (hm : HoldsBytes m a0 (xs.map Prod.fst)) (hc : Coded c xs)
    (hfit : xs = [] ∨ bytesFor (xs.flatMap Prod.snd).length ≤ cap) :
    encodeFrom c m a0 cap (xs.length + n) 0 [] = encodeFrom c m a0 cap n xs.length (xs.flatMap Prod.snd) := by
  have hr : ∀ k (h : k < xs.length), Memory.read m (a0 + 0 + k) = some xs[k].1 := fun k hk => by
    rw [Nat.add_zero, hm k (by simpa using hk), List.getElem_map]
  simpa using encodeFrom_run xs n 0 [] hr hc hfit

/-- A symbol without a code ends the loop at its index (R85). -/
theorem encodeFrom_of_noCode {c : CodeTable} {m : Memory} {a0 cap n i : Nat} {bits : Bits} {y : Byte}
    (hr : Memory.read m (a0 + i) = some y) (hc : codeOf c y = none) :
    encodeFrom c m a0 cap (n + 1) i bits = .error (.error .unknownSymbol i) := by
  rw [encodeFrom, readByte_eq_ok.2 hr]
  simp only [Run.ok_bind, hc]

/-- A code that does not fit ends the loop at the index of its symbol (R87). -/
theorem encodeFrom_of_noRoom {c : CodeTable} {m : Memory} {a0 cap n i : Nat} {bits q : Bits} {y : Byte}
    (hr : Memory.read m (a0 + i) = some y) (hc : codeOf c y = some q) (hcap : cap < ceil8 (bits ++ q).length) :
    encodeFrom c m a0 cap (n + 1) i bits = .error (.error .outputOverflow i) := by
  rw [encodeFrom, readByte_eq_ok.2 hr]
  simp only [Run.ok_bind, hc]
  exact if_pos hcap

/-! ### The command -/

section Ends

variable {s : State} {l : Latch} (hl : s.latch = some l) (hr : s.codesValid = true)
  (hv : RangesOk (Config.memBytes s.memSize) l.a0.toNat l.a1.toNat l.a2.toNat l.a3.toNat)

include hl hr hv

/-- A loop that encodes every symbol completes the command with the packed payload (R87). -/
theorem exec_encode_complete {p : Bits}
    (hp : encodeFrom s.codes s.mem l.a0.toNat l.a3.toNat l.a1.toNat 0 [] = .ok p) :
    exec .encode s = .next (complete { s with
      mem := Memory.writeBytes s.mem l.a2.toNat (pack p)
      res0 := BitVec.ofNat 32 (ceil8 p.length)
      res1 := BitVec.ofNat 32 p.length }) := by
  rw [exec_eq_runCommand]
  exact runCommand_complete hl hr ((rangesValid_iff_rangesOk rfl rfl).2 hv) (encodeBody_eq_ok.2 ⟨p, hp, rfl⟩)

/-- An error of the loop is the error of the command, with the effects of R123. -/
theorem exec_encode_fails {c : ErrCode} {n : Nat}
    (he : encodeFrom s.codes s.mem l.a0.toNat l.a3.toNat l.a1.toNat 0 [] = .error (.error c n)) :
    FailsSpoiled s l c n (exec .encode s) :=
  failsSpoiled_of_body hl hr rfl ((rangesValid_iff_rangesOk rfl rfl).2 hv) (Run.bind_eq_error.2 (.inl he))

end Ends

/-- Settles O41: the loop passes all the symbols, and the payload is Pack of their codes. -/
theorem encodeCompletes : Obligations.EncodeCompletes := by
  rintro s l xs p hl hr hv hlen hm hc rfl hfit
  have hloop := encodeFrom_coded 0 hm hc hfit
  rw [Nat.add_zero, hlen, encodeFrom] at hloop
  refine ⟨_, exec_encode_complete hl hr hv hloop, rfl, fun j hj => ?_, fun j hp hj => ?_, ?_⟩
  · rw [complete_mem, payloadBit_writeBytes_pack _ _ _ (by unfold ceil8; omega), List.getD_eq_getElem _ _ hj]
  · rw [complete_mem, payloadBit_writeBytes_pack _ _ _ hj, List.getD_eq_default _ _ hp]
  · exact sameOutside_writeBytes _ _ (pack_length _).le

/-- Settles O42: the loop passes the symbols before the bad one and ends at its index. -/
theorem encodeStopsAtTheFirstError : Obligations.EncodeStopsAtTheFirstError := by
  intro s l xs y hl hr hv hlt hm hc hfit
  obtain ⟨hxs, hy⟩ := holdsBytes_concat hm
  rw [List.length_map] at hy
  obtain ⟨n, hn⟩ := Nat.exists_eq_add_of_lt hlt
  have hloop := encodeFrom_coded (n + 1) hxs hc hfit
  rw [← Nat.add_assoc, ← hn] at hloop
  exact ⟨fun hnone => exec_encode_fails hl hr hv (hloop.trans (encodeFrom_of_noCode hy hnone)),
    fun q hq hcap => exec_encode_fails hl hr hv (hloop.trans (encodeFrom_of_noRoom hy hq hcap))⟩

end Sys2Proof.Machine
end

section
/-! PROOFS. The command DECODE (R88–R94): the tree it runs on by the number of its leaves, the loop of a single leaf, whole
payloads of codes, the round trip with ENCODE, and the stops of the whole machine (R110, U4). -/

namespace Sys2Proof.Machine

open Sys2Proof.Claims

/-! ### The tree and its codes, by the number of leaves -/

/-- The tree at `root` has `n` leaves, and `c` holds their codes: no code for the empty tree, [0] for a single leaf, the paths
of the tree for two leaves or more (R73, R78, R79). -/
inductive TreeCodes (nodes : List Node) (root : NodeIdx) (c : CodeTable) : Nat → Prop
  | empty (hc : ∀ y, codeOf c y = none) : TreeCodes nodes root c 0
  | single {s : Byte} {w : NodeFreq} (hroot : nodes[root.toNat]? = some (.leaf s w))
      (hc : ∀ {y p}, codeOf c y = some p → (y, p) = (s, [false])) : TreeCodes nodes root c 1
  | branching {n : Nat} {l r : HTree} (hn : 2 ≤ n) (hroot : Denotes nodes root.toNat (.node l r))
      (hc : ∀ {y p}, codeOf c y = some p → (y, p) ∈ (HTree.node l r).paths ∧ p ≠ []) : TreeCodes nodes root c n

theorem treeCodes_buildTree {f : FreqTable} {c : CodeTable}
    (hc : genCodes (buildTree f).nodes (buildTree f).n (buildTree f).root = .ok c) :
    TreeCodes (buildTree f).nodes (buildTree f).root c (buildTree f).n := by
  rcases hp : presentPairs f with _ | ⟨⟨s, w⟩, _ | ⟨q, ps⟩⟩
  · rw [buildTree_empty hp] at hc ⊢
    obtain rfl : emptyCodes = c := Except.ok.inj hc
    exact .empty codeOf_emptyCodes
  · obtain ⟨hb, hg⟩ := genCodes_buildTree_single hp
    obtain rfl := Except.ok.inj (hg.symm.trans hc)
    rw [hb]
    refine .single rfl fun {y p} h => ?_
    simpa [codeOf_setCode, eq_comm] using h
  · have h2 : 2 ≤ (presentPairs f).length := by simp [hp]
    obtain ⟨_, _, hd, _, hxs⟩ := genCodes_codeList_tree h2 hc
    refine .branching (by rwa [buildTree_n]) hd fun {y p} h => ?_
    have hmem := hxs.codeOf_eq_some.1 h
    exact ⟨hmem, by rintro rfl; simp [HTree.paths] at hmem⟩

/-- While TREE_VALID = 1 the block holds a tree, and GenCodes gives its codes (R34). -/
theorem State.Inv.treeCodes {s : State} {c : CodeTable} (h : s.Inv) (hv : s.treeValid = true)
    (hc : genCodes s.nodes s.nleaf.toNat s.root = .ok c) : TreeCodes s.nodes s.root c s.nleaf.toNat := by
  obtain ⟨hnodes, _, hroot⟩ := h.tree hv
  obtain ⟨hn, hg⟩ := h.genCodes_eq hv
  rw [hnodes, hroot, hn]
  exact treeCodes_buildTree (hg.symm.trans hc)

/-- Both children of an inner node are the roots of trees (R75). -/
theorem Denotes.children {nodes : List Node} {i : NodeIdx} {l r : HTree} (h : Denotes nodes i.toNat (.node l r)) :
    ∃ nd, nodeAt nodes i = .ok nd ∧
      ∀ b : Bool, ∃ t, Denotes nodes (if b then nd.right else nd.left).toNat t := by
  cases h with
  | node hat hl hr _ => exact ⟨_, nodeAt_eq_ok.2 hat, Bool.forall_bool.2 ⟨⟨_, hl⟩, ⟨_, hr⟩⟩⟩

/-! ### The decoder's start -/

theorem decodePayload_single {nodes : List Node} {root : NodeIdx} {s : Byte} {w : NodeFreq}
    (h : nodes[root.toNat]? = some (.leaf s w)) (m : Memory) (a0 len cap : Nat) :
    decodePayload nodes 1 root m a0 len cap = decodeLeafFrom s m a0 cap len 0 [] := by
  simp [decodePayload, nodeAt_eq_ok.2 h, Node.symbol]

theorem decodePayload_branching {n : Nat} (hn : 2 ≤ n) (nodes : List Node) (root : NodeIdx) (m : Memory) (a0 len cap : Nat) :
    decodePayload nodes n root m a0 len cap = (decodeFrom nodes root m a0 cap len 0 root [] >>= fun x =>
      if x.1 = root then .ok x.2 else .error (.error .malformedPayload len)) := by
  rw [decodePayload, if_neg (by omega), if_neg (by omega)]
  rfl

/-! ### The loop of a single leaf -/

theorem decodeLeafFrom_bit {m : Memory} {a0 j : Nat} {b : Bool} (h : payloadBit m a0 j = .ok b) (s : Byte) (cap n : Nat)
    (out : List Byte) :
    decodeLeafFrom s m a0 cap (n + 1) j out =
      if b then .error (.error .malformedPayload j)
      else if out.length = cap then .error (.error .outputOverflow j)
      else decodeLeafFrom s m a0 cap n (j + 1) (out ++ [s]) := by
  rw [decodeLeafFrom, h, Run.ok_bind]

/-- A run of 0 bits emits the leaf's symbol once for each, if there is room (R89). -/
theorem decodeLeafFrom_zeros {m : Memory} {a0 cap : Nat} (s : Byte) (k n j : Nat) (out : List Byte)
    (hbits : PayloadAt m a0 j (List.replicate k false)) (hcap : out.length + k ≤ cap) :
    decodeLeafFrom s m a0 cap (k + n) j out = decodeLeafFrom s m a0 cap n (j + k) (out ++ List.replicate k s) := by
  induction k generalizing j out with
  | zero => simp
  | succ k ih =>
    rw [List.replicate_succ] at hbits
    have hbit : payloadBit m a0 j = .ok false := hbits 0 (by simp)
    rw [Nat.add_right_comm, decodeLeafFrom_bit hbit, if_neg (by simp), if_neg (by omega),
      ih _ _ hbits.tail (by simp; omega), List.append_assoc, Nat.add_assoc, Nat.add_comm 1]
    rfl

/-- From the start, a run of 0 bits and the bit `b` after it. -/
theorem decodeLeafFrom_zeros_bit {m : Memory} {a0 cap k : Nat} {b : Bool} (s : Byte) (n : Nat)
    (hbits : HoldsBits m a0 (List.replicate k false ++ [b])) (hcap : k ≤ cap) :
    decodeLeafFrom s m a0 cap (k + 1 + n) 0 [] =
      if b then .error (.error .malformedPayload k)
      else if k = cap then .error (.error .outputOverflow k)
      else decodeLeafFrom s m a0 cap n (k + 1) (List.replicate (k + 1) s) := by
  obtain ⟨hzeros, hb⟩ := ((holdsBits_iff_payloadAt _ _ _).1 hbits).append
  rw [List.length_replicate] at hb
  rw [Nat.add_assoc, Nat.add_comm 1, decodeLeafFrom_zeros s k _ 0 [] hzeros (by simpa using hcap),
    decodeLeafFrom_bit (by simpa using hb 0 (by simp))]
  simp [List.replicate_succ']

/-- A payload of 0 bits that fits decodes to as many symbols (R89). -/
theorem decodePayload_zeros {nodes : List Node} {root : NodeIdx} {s : Byte} {w : NodeFreq}
    (h : nodes[root.toNat]? = some (.leaf s w)) {m : Memory} {a0 k cap : Nat}
    (hbits : HoldsBits m a0 (List.replicate k false)) (hcap : k ≤ cap) :
    decodePayload nodes 1 root m a0 k cap = .ok (List.replicate k s) := by
  have hloop := decodeLeafFrom_zeros s k 0 0 [] ((holdsBits_iff_payloadAt _ _ _).1 hbits) (by simpa using hcap)
  rw [Nat.add_zero] at hloop
  rw [decodePayload_single h, hloop, decodeLeafFrom, List.nil_append]

/-! ### Payloads of whole codes -/

theorem flatMap_replicate_code (s : Byte) (k : Nat) :
    (List.replicate k (s, [false])).flatMap Prod.snd = List.replicate k false := by
  induction k with
  | zero => rfl
  | succ k ih => rw [List.replicate_succ, List.flatMap_cons, ih]; rfl

section Codes

variable {nodes : List Node} {root : NodeIdx} {c : CodeTable} {n : Nat} {m : Memory} {a0 cap : Nat}
  {xs : List (Byte × Bits)} (h : TreeCodes nodes root c n) (hx : Coded c xs)

include h hx

/-- A payload of whole codes that fits decodes to their symbols (R88–R90). -/
theorem TreeCodes.decodePayload_codes (hbits : HoldsBits m a0 (xs.flatMap Prod.snd)) (hcap : xs.length ≤ cap) :
    decodePayload nodes n root m a0 (xs.flatMap Prod.snd).length cap = .ok (xs.map Prod.fst) := by
  cases h with
  | empty hc =>
    obtain rfl : xs = [] := List.eq_nil_iff_forall_not_mem.2 fun x hmem => by simpa [hc] using hx x hmem
    rfl
  | @single s w hroot hc =>
    obtain ⟨k, rfl⟩ : ∃ k, xs = List.replicate k (s, [false]) := ⟨_, List.eq_replicate_of_mem fun x hmem => hc (hx x hmem)⟩
    rw [flatMap_replicate_code] at hbits ⊢
    rw [List.length_replicate] at hcap ⊢
    rw [decodePayload_zeros hroot hbits hcap, List.map_replicate]
  | @branching _ l r hn hroot hc =>
    have hrun := decodeFrom_run hroot xs (fun x hmem => hc (hx x hmem)) 0 0 []
      ((holdsBits_iff_payloadAt _ _ _).1 hbits) (by simpa using hcap)
    rw [Nat.add_zero, decodeFrom] at hrun
    rw [decodePayload_branching hn, hrun]
    simp

/-- A code completed when the output is full ends the loop at the index of its last bit (R92). -/
theorem TreeCodes.decodePayload_full {y : Byte} {p : Bits} {len : Nat} (hy : codeOf c y = some p)
    (hbits : HoldsBits m a0 (xs.flatMap Prod.snd ++ p)) (hlen : (xs.flatMap Prod.snd ++ p).length ≤ len)
    (hcap : xs.length = cap) :
    decodePayload nodes n root m a0 len cap =
      .error (.error .outputOverflow ((xs.flatMap Prod.snd ++ p).length - 1)) := by
  obtain ⟨k, rfl⟩ := Nat.exists_eq_add_of_le hlen
  subst hcap
  cases h with
  | empty hc => simp [hc] at hy
  | @single s w hroot hc =>
    obtain ⟨rfl, rfl⟩ := Prod.mk.inj (hc hy)
    obtain ⟨i, rfl⟩ : ∃ i, xs = List.replicate i (y, [false]) := ⟨_, List.eq_replicate_of_mem fun x hmem => hc (hx x hmem)⟩
    rw [flatMap_replicate_code] at hbits ⊢
    rw [decodePayload_single hroot]
    simp [decodeLeafFrom_zeros_bit y k hbits le_rfl]
  | @branching _ l r hn hroot hc =>
    obtain ⟨hxs, hp⟩ := ((holdsBits_iff_payloadAt _ _ _).1 hbits).append
    rw [decodePayload_branching hn, List.length_append, Nat.add_assoc,
      decodeFrom_run hroot xs (fun x hmem => hc (hx x hmem)) _ 0 [] hxs
        (by simp),
      decodeFrom_path hroot root rfl (hc hy).1 (hc hy).2 k _ _ hp, if_pos (by simp)]
    simp

/-- A payload that ends inside a code leaves the walk below the root (R91). -/
theorem TreeCodes.decodePayload_inside {y : Byte} {p q : Bits} (hn : 2 ≤ n) (hy : codeOf c y = some p) (hq : q <+: p)
    (hne : q ≠ []) (hqp : q ≠ p) (hbits : HoldsBits m a0 (xs.flatMap Prod.snd ++ q)) (hcap : xs.length ≤ cap) :
    decodePayload nodes n root m a0 (xs.flatMap Prod.snd ++ q).length cap =
      .error (.error .malformedPayload (xs.flatMap Prod.snd ++ q).length) := by
  cases h with
  | empty => omega
  | single => omega
  | @branching _ l r _ hroot hc =>
    obtain ⟨hxs, hqbits⟩ := ((holdsBits_iff_payloadAt _ _ _).1 hbits).append
    obtain ⟨cur, u, hwalk, hu, _, hlt⟩ := decodeFrom_inside (root := root) (cap := cap) hroot root rfl (hc hy).1 hq hqp _
      ([] ++ xs.map Prod.fst) hqbits
    have hcur : cur ≠ root := by
      rintro rfl
      have := hlt hne
      rw [hroot.unique hu] at this
      exact lt_irrefl _ this
    rw [decodePayload_branching hn, List.length_append,
      decodeFrom_run hroot xs (fun x hmem => hc (hx x hmem)) _ 0 [] hxs
        (by simpa using hcap), hwalk, Run.ok_bind, if_neg hcur]

end Codes

/-! ### The command -/

section Ends

variable {s : State} {l : Latch} (hl : s.latch = some l) (hr : s.treeValid = true)
  (hv : RangesOk (Config.memBytes s.memSize) l.a0.toNat (bytesFor l.a1.toNat) l.a2.toNat l.a3.toNat)

include hl hr hv

/-- A payload that decodes completes the command with its symbols at a2 (R94). -/
theorem exec_decode_complete {out : List Byte}
    (ho : decodePayload s.nodes s.nleaf.toNat s.root s.mem l.a0.toNat l.a1.toNat l.a3.toNat = .ok out) :
    exec .decode s = .next (complete { s with
      mem := Memory.writeBytes s.mem l.a2.toNat out, res0 := BitVec.ofNat 32 out.length, res1 := l.a1 }) := by
  rw [exec_eq_runCommand]
  exact runCommand_complete hl hr ((rangesValid_iff_rangesOk rfl rfl).2 hv) (decodeBody_eq_ok.2 ⟨out, ho, rfl⟩)

/-- An error of the payload is the error of the command, with the effects of R123. -/
theorem exec_decode_fails {c : ErrCode} {n : Nat}
    (he : decodePayload s.nodes s.nleaf.toNat s.root s.mem l.a0.toNat l.a1.toNat l.a3.toNat = .error (.error c n)) :
    FailsSpoiled s l c n (exec .decode s) :=
  failsSpoiled_of_body hl hr rfl ((rangesValid_iff_rangesOk rfl rfl).2 hv) (Run.bind_eq_error.2 (.inl he))

end Ends

/-- Settles O44: the payload decodes to the symbols of its codes, by the number of leaves. -/
theorem decodeInvertsTheCodes : Obligations.DecodeInvertsTheCodes := by
  intro s l c xs hinv hl hr hc hx hv hlen hbits hcap
  have hout := (hinv.treeCodes hr hc).decodePayload_codes hx hbits hcap
  rw [hlen] at hout
  have hexec := exec_decode_complete hl hr hv hout
  rw [List.length_map] at hexec
  exact ⟨_, hexec, rfl, fun k hk => Memory.read_writeBytes_inside _ _ _ k hk,
    sameOutside_writeBytes _ _ (List.length_map _).le⟩

/-- Settles O47: the codes before take the decoder to the code that the payload cuts off, or that has no room. -/
theorem decodeStopsAtTheFirstError : Obligations.DecodeStopsAtTheFirstError := by
  intro s l c xs p y hinv hl hr hc hx hy hv
  have htree := hinv.treeCodes hr hc
  refine ⟨fun q hn hq hne hqp hlen hbits hcap => exec_decode_fails hl hr hv ?_,
    fun hlen hbits hcap => exec_decode_fails hl hr hv (htree.decodePayload_full hx hy hbits hlen hcap)⟩
  rw [← hlen]
  exact htree.decodePayload_inside hx hn hy hq hne hqp hbits hcap

/-- Settles O46: no loop runs for the empty tree, and a single leaf's loop passes the 0 bits. -/
theorem decodeOfEmptyAndSingleLeafTrees : Obligations.DecodeOfEmptyAndSingleLeafTrees := by
  intro s l hl hr hv
  refine ⟨fun h0 => ⟨fun hlen => ?_, fun hlen => exec_decode_fails hl hr hv ?_⟩,
    fun y w h1 hroot => ⟨fun hbits hcap => ?_, fun j hj hcap hbits => exec_decode_fails hl hr hv ?_⟩⟩
  · have hout : decodePayload s.nodes s.nleaf.toNat s.root s.mem l.a0.toNat l.a1.toNat l.a3.toNat = .ok [] := by
      rw [h0, hlen]
      rfl
    rw [exec_decode_complete hl hr hv hout, hlen]
    rfl
  · have hpos : l.a1.toNat ≠ 0 := fun h => hlen (BitVec.eq_of_toNat_eq h)
    rw [h0]
    exact if_neg hpos
  · have hout : decodePayload s.nodes s.nleaf.toNat s.root s.mem l.a0.toNat l.a1.toNat l.a3.toNat =
        .ok (List.replicate l.a1.toNat y) := by
      rw [h1]
      exact decodePayload_zeros hroot hbits hcap
    have hexec := exec_decode_complete hl hr hv hout
    rw [List.length_replicate, BitVec.ofNat_toNat, BitVec.setWidth_eq] at hexec
    exact ⟨_, hexec, rfl, fun k hk => Memory.read_writeBytes_inside _ _ _ k hk,
      sameOutside_writeBytes _ _ List.length_replicate.le⟩
  · obtain ⟨n, hn⟩ := Nat.exists_eq_add_of_le hj
    rw [h1, hn]
    exact (decodePayload_single hroot _ _ _ _).trans (decodeLeafFrom_zeros_bit y n hbits hcap)

/-! ### The round trip -/

/-- A command that ends with ERR = 0 passed its checks and its body succeeded. -/
theorem exec_succeeded {i : Instr} {s t : State} {l : Latch} (hl : s.latch = some l) (h : exec i s = .next t)
    (hok : t.err = .ok) :
    ready i s = true ∧ rangesValid (Config.memBytes s.memSize) i l = true ∧ ∃ u, bodyOf i l s = .ok u ∧ t = complete u := by
  rw [exec_eq_runCommand] at h
  obtain ⟨l', hl', h⟩ := runCommand_next h
  obtain rfl : l = l' := Option.some.inj (hl.symm.trans hl')
  rcases h with h | ⟨_, rfl⟩ | ⟨_, _, rfl⟩ | ⟨_, _, c, n, hb, rfl⟩
  · exact h
  · cases hok
  · cases hok
  · obtain rfl : c = .ok := hok
    cases bodyOf_error_code hb

/-- What a successful ENCODE of the symbols `ys` leaves: their codes, packed at a2, with their sizes in RES0 and RES1, which
do not wrap because the payload lies in MEM (R84, R87). -/
theorem encode_succeeded {s t : State} {l : Latch} {ys : List Byte} (hl : s.latch = some l) (hlen : ys.length = l.a1.toNat)
    (hm : HoldsBytes s.mem l.a0.toNat ys) (h : exec .encode s = .next t) (hok : t.err = .ok) :
    ∃ xs : List (Byte × Bits), xs.map Prod.fst = ys ∧ Coded s.codes xs ∧
      t.res0.toNat = (pack (xs.flatMap Prod.snd)).length ∧ t.res1.toNat = (xs.flatMap Prod.snd).length ∧
      HoldsBytes t.mem l.a2.toNat (pack (xs.flatMap Prod.snd)) := by
  obtain ⟨_, hv, u, hb, rfl⟩ := exec_succeeded hl h hok
  obtain ⟨bits, hloop, rfl⟩ := encodeBody_eq_ok.1 hb
  obtain ⟨xs, hn, hx, rfl, hfit⟩ := encodeFrom_eq_ok.1 hloop
  rw [List.nil_append] at hfit ⊢
  have hM : Config.memBytes s.memSize ≤ 65536 := by cases s.memSize <;> decide
  have hdst := destRange_inMem hv rfl
  have hsmall : (xs.flatMap Prod.snd).length ≤ 8 * 65536 := by
    rcases hfit with h0 | hfit
    · obtain rfl := List.length_eq_zero_iff.1 (hn.trans h0)
      simp
    · rw [← ceil8_le]
      omega
  refine ⟨xs, ?_, ?_, ?_, ?_, fun k hk => Memory.read_writeBytes_inside _ _ _ k hk⟩
  · refine List.ext_getElem (by rw [List.length_map, hn, hlen]) fun k h1 h2 => ?_
    have hread := (hx k (by simpa using h1)).1
    rw [Nat.add_zero, hm k h2] at hread
    rw [List.getElem_map, Option.some.inj hread]
  · intro x hmem
    obtain ⟨k, hk, rfl⟩ := List.getElem_of_mem hmem
    exact (hx k hk).2
  · rw [complete_res0, BitVec.toNat_ofNat, pack_length, ceil8]
    omega
  · rw [complete_res1, BitVec.toNat_ofNat]
    omega

/-- Settles O45: ENCODE leaves the codes of the symbols, packed; two trees of one FREQ have the same codes, so O44 gives the
symbols back. -/
theorem encodeDecodeRoundTrip : Obligations.EncodeDecodeRoundTrip := by
  intro s t u l k ys hs hl hcv hlen hm h hok hu hk htv hfreq ha1 hcopy hv hcap
  obtain ⟨xs, rfl, hx, h0, h1, hpack⟩ := encode_succeeded hl hlen hm h hok
  have hsv : s.treeValid = true := by
    by_contra hf
    have hclear := (hs.noTree (Bool.eq_false_of_not_eq_true hf)).1
    rw [hcv] at hclear
    cases hclear
  have hgen : genCodes u.nodes u.nleaf.toNat u.root = .ok s.codes := by
    rw [(hu.genCodes_eq htv).2, hfreq, ← (hs.genCodes_eq hsv).2]
    exact hs.codes hcv
  have hbits : HoldsBits u.mem k.a0.toNat (xs.flatMap Prod.snd) := fun j hj =>
    payloadBit_pack (fun i hi => by rw [hcopy i (h0 ▸ hi), hpack i hi]) hj
  rw [List.length_map] at hlen hcap
  obtain ⟨v, hexec, he, hout, _⟩ := decodeInvertsTheCodes u k s.codes xs hu hk htv hgen hx hv (by rw [ha1, h1]) hbits hcap
  refine ⟨v, hexec, by rw [he], ?_, hout⟩
  rw [he, BitVec.toNat_ofNat, Nat.mod_eq_of_lt (by rw [hlen]; exact l.a1.isLt), List.length_map]

/-! ### The stops of the whole machine -/

theorem decodeLeafFrom_fault {s : Byte} {m : Memory} {a0 cap n j : Nat} {out : List Byte} {f : Fault}
    (h : decodeLeafFrom s m a0 cap n j out = .error (.fault f)) : ∃ a, f = .unwrittenRead a := by
  induction n generalizing j out with
  | zero => cases h
  | succ n ih =>
    cases hb : payloadBit m a0 j with
    | error e =>
      rw [decodeLeafFrom, hb] at h
      obtain ⟨a, rfl⟩ := payloadBit_eq_error hb
      cases h
      exact ⟨a, rfl⟩
    | ok b =>
      rw [decodeLeafFrom_bit hb] at h
      split at h
      · cases h
      · split at h
        · cases h
        · exact ih h

/-- The walk goes from inner node to inner node, so it meets no missing child (R75, R88). -/
theorem decodeFrom_fault {nodes : List Node} {root : NodeIdx} {m : Memory} {a0 cap : Nat} {l₀ r₀ : HTree}
    (hroot : Denotes nodes root.toNat (.node l₀ r₀)) {n j : Nat} {cur : NodeIdx} {out : List Byte} {l r : HTree} {f : Fault}
    (hcur : Denotes nodes cur.toNat (.node l r))
    (h : decodeFrom nodes root m a0 cap n j cur out = .error (.fault f)) : ∃ a, f = .unwrittenRead a := by
  induction n generalizing j cur out l r with
  | zero => cases h
  | succ n ih =>
    rw [decodeFrom] at h
    rcases Run.bind_eq_error.1 h with hb | ⟨b, _, h⟩
    · obtain ⟨a, ha⟩ := payloadBit_eq_error hb
      cases ha
      exact ⟨a, rfl⟩
    · obtain ⟨nd, hnd, hchild⟩ := hcur.children
      rw [hnd] at h
      obtain ⟨t, ht⟩ := hchild b
      cases ht with
      | leaf hat =>
        simp only [Run.ok_bind, nodeAt_eq_ok.2 hat] at h
        split at h
        · cases h
        · exact ih hroot h
      | node hat hl hr hw =>
        simp only [Run.ok_bind, nodeAt_eq_ok.2 hat] at h
        exact ih (.node hat hl hr hw) h

/-- DECODE on a tree stops only at an unwritten byte (R88, U4). -/
theorem TreeCodes.decodePayload_fault {nodes : List Node} {root : NodeIdx} {c : CodeTable} {n : Nat}
    (htree : TreeCodes nodes root c n) {m : Memory} {a0 len cap : Nat} {f : Fault}
    (h : decodePayload nodes n root m a0 len cap = .error (.fault f)) : ∃ a, f = .unwrittenRead a := by
  cases htree with
  | empty =>
    rw [decodePayload, if_pos rfl] at h
    split at h <;> cases h
  | single hroot =>
    rw [decodePayload_single hroot] at h
    exact decodeLeafFrom_fault h
  | branching hn hroot =>
    rw [decodePayload_branching hn] at h
    rcases Run.bind_eq_error.1 h with h | ⟨x, _, h⟩
    · exact decodeFrom_fault hroot hroot h
    · split at h <;> cases h

/-- A ready command's effects stop only at a read of an unwritten byte, while the invariant holds (R82, R88, U4). -/
theorem bodyOf_fault {i : Instr} {l : Latch} {s : State} {f : Fault} (hs : s.Inv) (hr : ready i s = true)
    (h : bodyOf i l s = .error (.fault f)) : ∃ a, f = .unwrittenRead a := by
  have hgen (hv : s.treeValid = true) : ∃ c, genCodes s.nodes s.nleaf.toNat s.root = .ok c := by
    rw [(hs.genCodes_eq hv).2]
    exact genCodes_buildTree_ok s.freq
  cases i with
  | buildTree => cases h
  | genCodes =>
    obtain ⟨c, hc⟩ := hgen hr
    rw [bodyOf, genCodesBody, hc] at h
    cases h
  | encode =>
    rcases Run.bind_eq_error.1 h with h | ⟨_, _, h⟩
    · rcases encodeFrom_eq_error h with ⟨_, _, _, he | he⟩ | ⟨a, he⟩ <;> cases he
      exact ⟨a, rfl⟩
    · cases h
  | decode =>
    obtain ⟨c, hc⟩ := hgen hr
    rcases Run.bind_eq_error.1 h with h | ⟨_, _, h⟩
    · exact (hs.treeCodes hr hc).decodePayload_fault h
    · cases h
  | serialize =>
    simp only [bodyOf, serializeBody] at h
    split at h
    · cases h
    · rcases Run.bind_eq_error.1 h with h | ⟨_, _, h⟩
      · obtain ⟨a, he, _⟩ := readBytes_eq_error h
        cases he
        exact ⟨a, rfl⟩
      · cases h
  | deserialize =>
    rcases Run.bind_eq_error.1 h with h | ⟨_, _, h⟩
    · rcases parse_eq_error h with ⟨_, he | he⟩ | ⟨a, he⟩ <;> cases he
      exact ⟨a, rfl⟩
    · simp only at h
      split at h <;> cases h

theorem exec_onlyUnwrittenStops {i : Instr} {s : State} {l : Latch} (hs : s.Inv) (hl : s.latch = some l) :
    OnlyUnwrittenStops (exec i s) := by
  rw [exec_eq_runCommand]
  cases h : runCommand i (bodyOf i) s with
  | next t => exact .inl ⟨t, rfl⟩
  | fault f =>
    rcases runCommand_fault h with ⟨hnone, _⟩ | ⟨_, _, hr, _, hb⟩
    · rw [hl] at hnone
      cases hnone
    · obtain ⟨a, rfl⟩ := bodyOf_fault hs hr hb
      exact .inr ⟨a, rfl⟩
  | refused r => exact absurd h runCommand_refused

theorem engineStep_onlyUnwrittenStops {s : State} (hs : s.Inv) : OnlyUnwrittenStops (engineStep s) := by
  rcases engineStep_cases s with ⟨_, he⟩ | ⟨l, hl, ⟨i, _, he⟩ | ⟨_, he⟩⟩ <;> rw [he]
  · exact .inl ⟨_, rfl⟩
  · exact exec_onlyUnwrittenStops hs hl
  · exact .inl ⟨_, rfl⟩

theorem hostRead_onlyUnwrittenStops (off : HostOffset) (sz : AccessSize) (s : State) :
    OnlyUnwrittenStops (hostRead off sz s) := by
  rcases hostRead_cases off sz s with ⟨_, he⟩ | ⟨_, _, ⟨_, _, he⟩ | ⟨_, ⟨_, _, he⟩ | ⟨x, _, he⟩⟩⟩ <;> rw [he]
  · exact .inl ⟨_, rfl⟩
  · exact .inl ⟨_, rfl⟩
  · exact .inl ⟨_, rfl⟩
  · exact .inr ⟨x, rfl⟩

theorem hostWrite_onlyUnwrittenStops (off : HostOffset) (sz : AccessSize) (d : Word) (s : State) :
    OnlyUnwrittenStops (hostWrite off sz d s) := by
  rcases hostWrite_cases off sz d s with ⟨_, he⟩ | ⟨_, _, ⟨_, _, he⟩ | ⟨_, he⟩⟩ <;> exact .inl ⟨_, he⟩

/-- Taking an event off the queue touches nothing that the invariant speaks of. -/
theorem State.Inv.takeEvent {s : State} (h : s.Inv) : s.takeEvent.Inv :=
  ⟨h.memWf, h.memWithin, h.tree, h.noTree, h.codes, h.running, h.lastOpc⟩

/-- Settles O60: by the kind of the step; the bodies of the commands walk BuildTree's tree only. -/
theorem onlyUnwrittenReadsStop : Obligations.OnlyUnwrittenReadsStop := by
  intro s hs
  cases hq : s.hostQueue with
  | nil =>
    rw [step_nil hq]
    exact engineStep_onlyUnwrittenStops hs
  | cons e es =>
    rw [step_cons hq]
    cases e with
    | read off sz => exact hostRead_onlyUnwrittenStops off sz _
    | write off sz d => exact hostWrite_onlyUnwrittenStops off sz d _
    | hardwareReset => exact .inl ⟨_, rfl⟩
    | engineTurn => exact engineStep_onlyUnwrittenStops hs.takeEvent

end Sys2Proof.Machine
end

section
/-! PROOFS. The container codec (R95–R106): the layout of a container field by field, its padding bits, SERIALIZE, Parse on a
table that passes and on each payload, DESERIALIZE with every failure, and the round trip. -/

namespace Sys2Proof.Machine

open Sys2Proof.Claims

/-! ### The padding bits -/

/-- Bit 7 − m is in the payload mask exactly for the payload bits of the last byte (R97). -/
theorem payloadMask_bit {len m : Nat} (h : len % 8 ≠ 0) (hm : m < 8) :
    (payloadMask len).getLsbD (7 - m) = decide (m < len % 8) := by
  have all : ∀ r m : Fin 8, (r : Nat) ≠ 0 →
      (BitVec.ofNat 8 (0xFF <<< (8 - (r : Nat)))).getLsbD (7 - m) = decide ((m : Nat) < r) := by decide
  exact all ⟨len % 8, Nat.mod_lt _ (by decide)⟩ ⟨m, hm⟩ h

/-- No bit is both a payload bit and a padding bit (R97, R99). -/
theorem payloadMask_and_paddingMask (len : Nat) : payloadMask len &&& paddingMask len = 0#8 := by
  have all : ∀ r : Fin 8, BitVec.ofNat 8 (0xFF <<< (8 - (r : Nat))) &&& BitVec.ofNat 8 (0xFF >>> (r : Nat)) = 0#8 := by decide
  exact all ⟨len % 8, Nat.mod_lt _ (by decide)⟩

theorem clearPadding_idem (pb : List Byte) (len : Nat) : clearPadding (clearPadding pb len) len = clearPadding pb len := by
  unfold clearPadding
  split
  · rfl
  · rw [List.modify_modify_eq]
    congr 1
    funext b
    exact (BitVec.and_assoc b _ _).trans (congrArg _ (BitVec.and_self))

/-- Clearing masks the last byte of a payload that has padding bits, and no other (R97). -/
theorem clearPadding_getElem {pb : List Byte} {len k : Nat} (hk : k < (clearPadding pb len).length) :
    (clearPadding pb len)[k] =
      if len % 8 ≠ 0 ∧ ceil8 len - 1 = k then pb[k]'(by rwa [clearPadding_length] at hk) &&& payloadMask len
      else pb[k]'(by rwa [clearPadding_length] at hk) := by
  by_cases h : len % 8 = 0 <;> simp [clearPadding, h, List.getElem_modify]

/-- Clearing keeps the payload bits and makes the padding bits 0 (R97). -/
theorem clearPadding_bit {pb : List Byte} {len k m : Nat} (hlen : pb.length = ceil8 len) (hk : k < pb.length) (hm : m < 8) :
    ((clearPadding pb len)[k]'(by rwa [clearPadding_length])).getLsbD (7 - m) =
      if 8 * k + m < len then pb[k].getLsbD (7 - m) else false := by
  have hk8 : k < ceil8 len := hlen ▸ hk
  rw [clearPadding_getElem]
  unfold ceil8 at hk8 ⊢
  by_cases hlast : len % 8 ≠ 0 ∧ (len + 7) / 8 - 1 = k
  · have hbit : m < len % 8 ↔ 8 * k + m < len := by omega
    rw [if_pos hlast, BitVec.getLsbD_and, payloadMask_bit hlast.1 hm]
    by_cases hin : 8 * k + m < len <;> simp [hin, hbit]
  · rw [if_neg hlast, if_pos (by omega)]

/-- A written payload with its padding bits cleared passes the check of the padding bits (R99, R103). -/
theorem paddingClear_of_bytesAt {m : Memory} {a len : Nat} {pb : List Byte} (hlen : pb.length = ceil8 len)
    (hb : BytesAt m (a + 1) (clearPadding pb len)) : PaddingClear m (a + ceil8 len) len := by
  by_cases h : len % 8 = 0
  · exact .inl h
  · have hpos : 0 < ceil8 len := by unfold ceil8; omega
    have hlast : ceil8 len - 1 < (clearPadding pb len).length := by rw [clearPadding_length]; omega
    refine .inr ⟨_, (congrArg (Memory.read m) (by omega)).trans (hb _ hlast), (and_paddingMask_eq_zero _ h).1 ?_⟩
    rw [clearPadding_getElem, if_pos ⟨h, rfl⟩, BitVec.and_assoc, payloadMask_and_paddingMask, BitVec.and_zero]

/-! ### The layout -/

/-- A container is its table, BITLEN and the payload with its padding bits cleared (R95, R97). -/
theorem containerOf_eq (ps : List (Byte × Word)) (pb : List Byte) (len : Nat) :
    containerOf ps pb len = tableBytes ps.length ps ++ be32Bytes len ++ clearPadding pb len := rfl

theorem tableBytes_length (n : Nat) (ps : List (Byte × Word)) : (tableBytes n ps).length = 2 + 5 * ps.length := by
  rw [tableBytes_eq, List.length_append, flatMap_pairBytes_length, toBe16_length]

theorem containerOf_clearPadding (ps : List (Byte × Word)) (pb : List Byte) (len : Nat) :
    containerOf ps (clearPadding pb len) len = containerOf ps pb len := by
  rw [containerOf_eq, containerOf_eq, clearPadding_idem]

/-- Pair k stands at offset 2 + 5k (R95). -/
theorem drop_containerOf_pair {ps : List (Byte × Word)} (pb : List Byte) (len : Nat) {k : Nat} (h : k < ps.length) :
    ∃ rest, (containerOf ps pb len).drop (2 + 5 * k) = pairBytes ps[k] ++ rest := by
  refine ⟨(ps.drop (k + 1)).flatMap pairBytes ++ be32Bytes len ++ clearPadding pb len, ?_⟩
  have hsplit : containerOf ps pb len = tableBytes ps.length (ps.take k) ++
      (pairBytes ps[k] ++ ((ps.drop (k + 1)).flatMap pairBytes ++ be32Bytes len ++ clearPadding pb len)) := by
    have hps : ps.flatMap pairBytes =
        (ps.take k).flatMap pairBytes ++ (pairBytes ps[k] ++ (ps.drop (k + 1)).flatMap pairBytes) := by
      rw [← List.flatMap_cons, ← List.drop_eq_getElem_cons h, ← List.flatMap_append, List.take_append_drop]
    rw [containerOf_eq, tableBytes_eq, tableBytes_eq, hps]
    simp only [List.append_assoc]
  rw [hsplit]
  exact List.drop_left' (by rw [tableBytes_length, List.length_take_of_le h.le])

/-- BITLEN stands at offset 2 + 5N, before the payload (R95). -/
theorem drop_containerOf_len (ps : List (Byte × Word)) (pb : List Byte) (len : Nat) :
    (containerOf ps pb len).drop (2 + 5 * ps.length) = be32Bytes len ++ clearPadding pb len := by
  rw [containerOf_eq, List.append_assoc]
  exact List.drop_left' (tableBytes_length _ _)

/-- Settles O48: COUNT is the first two bytes, and each later field is at the front of what is left at its offset. -/
theorem containerLayout : Obligations.ContainerLayout := by
  intro ps pb len hps hlen hpb
  refine ⟨containerOf_length ps pb len hpb, beNat_toBe16 (by omega), fun k h => ?_, ?_, fun k m h hm => ?_⟩
  · obtain ⟨rest, hrest⟩ := drop_containerOf_pair pb len h
    constructor
    · rw [← Nat.add_zero (2 + 5 * k), ← List.getElem?_drop, hrest]
      rfl
    · rw [show 3 + 5 * k = 2 + 5 * k + 1 by omega, ← List.drop_drop, hrest]
      exact beNat_toBe32 ps[k].2.isLt
  · rw [drop_containerOf_len]
    exact beNat_toBe32 hlen
  · refine ⟨(clearPadding pb len)[k]'(by rwa [clearPadding_length]), ?_, clearPadding_bit hpb h hm⟩
    rw [show 6 + 5 * ps.length + k = 2 + 5 * ps.length + (4 + k) by omega, ← List.getElem?_drop, drop_containerOf_len,
      List.getElem?_append_right (Nat.le_add_right 4 k)]
    simp [be32Bytes, h]

/-! ### SERIALIZE -/

/-- Settles O49: the body writes the container of the present pairs, which are the present symbols with their counts. -/
theorem serializeCompletes : Obligations.SerializeCompletes := by
  rintro s l pb T hl hv rfl hfit hlen hm
  rw [presentSymbols_length] at hfit ⊢
  have hbody := serializeBody_eq_ok.2 ⟨hfit, pb, BytesAt.readBytes hm hlen, rfl⟩
  have hexec := runCommand_complete hl rfl ((rangesValid_iff_rangesOk (i := .serialize) rfl rfl).2 hv) hbody
  refine ⟨_, hexec, rfl, ?_, sameOutside_writeBytes _ _ (containerOf_length _ _ _ hlen).le⟩
  rw [← presentPairs_eq_map]
  exact fun k hk => Memory.read_writeBytes_inside _ _ _ k hk

/-- Settles O50: the size is checked before the payload is read, and is the position of the error. -/
theorem serializeOverflowGivesTheSize : Obligations.SerializeOverflowGivesTheSize := by
  rintro s l T hl hv rfl hlt
  rw [presentSymbols_length] at hlt ⊢
  exact failsSpoiled_of_body hl rfl rfl ((rangesValid_iff_rangesOk rfl rfl).2 hv) (if_pos hlt)

/-- What a successful SERIALIZE leaves: the container of the present pairs at a2, with its size in RES0, which does not wrap
because the container fits in a3 bytes (R98). -/
theorem serialize_succeeded {s t : State} {l : Latch} (hl : s.latch = some l) (h : exec .serialize s = .next t)
    (hok : t.err = .ok) :
    ∃ pb, readBytes s.mem l.a0.toNat (ceil8 l.a1.toNat) = .ok pb ∧
      t.res0.toNat = 6 + 5 * (presentPairs s.freq).length + ceil8 l.a1.toNat ∧
      BytesAt t.mem l.a2.toNat (containerOf (presentPairs s.freq) pb l.a1.toNat) := by
  obtain ⟨_, _, u, hb, rfl⟩ := exec_succeeded hl h hok
  obtain ⟨hfit, pb, hpb, rfl⟩ := serializeBody_eq_ok.1 hb
  refine ⟨pb, hpb, ?_, fun k hk => Memory.read_writeBytes_inside _ _ _ k hk⟩
  rw [complete_res0, BitVec.toNat_ofNat, Nat.mod_eq_of_lt (hfit.trans_lt l.a3.isLt), containerSize]

/-! ### The pairs of a table -/

theorem goodPairs_length_le {ps : List (Byte × Word)} (h : GoodPairs ps) : ps.length ≤ 256 := by
  simpa using (h.1.map BitVec.toFin_injective).length_le_card

theorem goodPairs_presentPairs (f : FreqTable) : GoodPairs (presentPairs f) :=
  ⟨presentPairs_symbols_nodup f, fun _ hp => (mem_presentPairs.1 hp).2⟩

theorem freqOf_presentPairs_of_notMem {f : FreqTable} {y : Byte} (h : y ∉ (presentPairs f).map Prod.fst) :
    freqOf f y = 0#32 := by
  rw [← presentSymbols_eq_map, mem_presentSymbols] at h
  exact not_not.1 h

/-! ### Parse -/

theorem beNat_pair (b0 b1 : Byte) : beNat [b0, b1] = b0.toNat * 256 + b1.toNat := by simp [beNat]

section Parse

variable {m : Memory} {a0 size : Nat}

/-- A COUNT above 256 is impossible (R99). -/
theorem parse_of_badCount {b0 b1 : Byte} (h2 : 2 ≤ size) (hb : BytesAt m a0 [b0, b1])
    (h : 256 < b0.toNat * 256 + b1.toNat) : parse m a0 size = .error (.error .corruptContainer 0) :=
  (parse_count h2 hb).trans (if_pos h)

/-- A size that cuts the table or BITLEN short is itself the position of the error (R99, R101). -/
theorem parse_of_shortTable {b0 b1 : Byte} (h2 : 2 ≤ size) (hb : BytesAt m a0 [b0, b1])
    (hn : b0.toNat * 256 + b1.toNat ≤ 256) (h : size < 6 + 5 * (b0.toNat * 256 + b1.toNat)) :
    parse m a0 size = .error (.error .corruptContainer size) :=
  (parse_count h2 hb).trans ((if_neg (by omega)).trans (if_pos h))

/-- After pairs that pass, the next pair decides: its symbol is repeated, or its count is 0, or the loop goes on (R99). -/
theorem parsePairs_next {ps : List (Byte × Word)} (p : Byte × Word) (n : Nat) (hp : GoodPairs ps)
    (hb : BytesAt m (a0 + 2) ((ps ++ [p]).flatMap pairBytes)) :
    parsePairs m a0 (ps.length + (n + 1)) 0 emptyFreq [] =
      if p.1 ∈ ps.map Prod.fst then .error (.error .corruptContainer (2 + 5 * ps.length))
      else if p.2 = 0#32 then .error (.error .corruptContainer (3 + 5 * ps.length))
      else parsePairs m a0 n (ps.length + 1) (setFreq (loadPairs emptyFreq ps) p.1 p.2)
        (p.1 :: (ps.map Prod.fst).reverse) := by
  rw [List.flatMap_append] at hb
  obtain ⟨hps, hlast⟩ := hb.append
  rw [flatMap_pairBytes_length, List.flatMap_singleton] at hlast
  rw [parsePairs_run ps (n + 1) 0 emptyFreq [] hps hp.1 (by simp) hp.2, Nat.zero_add, parsePairs_pair p n _ _ _ hlast]
  simp only [List.append_nil, List.mem_reverse]

/-- Parse ends with an error of its pair loop (R99). -/
theorem parse_of_badPair {N : Nat} {e : Abort} (hN : N ≤ 256) (hs : 6 + 5 * N ≤ size) (hb : BytesAt m a0 (toBe16 N))
    (he : parsePairs m a0 N 0 emptyFreq [] = .error e) : parse m a0 size = .error e := by
  rw [parse_table hN hs hb, he, Run.error_bind]

/-- Parse past a table that passes and its BITLEN is what it makes of the payload (R99, R100). -/
theorem parse_goodTable {ps : List (Byte × Word)} {len : Nat} (hp : GoodPairs ps) (hlen : len < 2 ^ 32)
    (hs : 6 + 5 * ps.length ≤ size) (hb : BytesAt m a0 (tableBytes ps.length ps ++ be32Bytes len)) :
    parse m a0 size = (parsePayload m a0 size ps.length len >>= fun pb =>
      .ok { freq := loadPairs emptyFreq ps, count := ps.length, len := len, payload := pb }) := by
  obtain ⟨htable, hbitlen⟩ := hb.append
  rw [tableBytes_length, ← Nat.add_assoc] at hbitlen
  obtain ⟨hcount, hpairs⟩ := BytesAt.append (xs := toBe16 ps.length) htable
  rw [parse_table (goodPairs_length_le hp) hs hcount, parsePairs_all ps hpairs hp.1 hp.2, Run.ok_bind,
    BytesAt.readBytes (n := 4) hbitlen rfl, Run.ok_bind, be32Bytes_eq, beNat_toBe32 hlen]
  rfl

/-! ### The payload -/

variable {n len : Nat}

theorem parsePayload_short (h : size < 6 + 5 * n + ceil8 len) :
    parsePayload m a0 size n len = .error (.error .malformedPayload (2 + 5 * n)) := if_pos h

theorem parsePayload_trailing (h : 6 + 5 * n + ceil8 len < size) :
    parsePayload m a0 size n len = .error (.error .corruptContainer (6 + 5 * n + ceil8 len)) :=
  (if_neg (by omega)).trans (if_pos h)

/-- In a container of the right size the padding bits are checked first, then that a table goes with the payload (R99). -/
theorem parsePayload_exact (h : size = 6 + 5 * n + ceil8 len) :
    parsePayload m a0 size n len = (checkPadding m (a0 + 6 + 5 * n) (5 + 5 * n + ceil8 len) len >>= fun _ =>
      if n = 0 ∧ len ≠ 0 then .error (.error .malformedPayload 2)
      else readBytes m (a0 + 6 + 5 * n) (ceil8 len)) :=
  (if_neg (by omega)).trans (if_neg (by omega))

theorem checkPadding_of_clear {a base off : Nat} (ha : base + ceil8 len - 1 = a) (h : PaddingClear m a len) :
    checkPadding m base off len = .ok () := by
  rcases h with h | ⟨b, hb, h0⟩
  · exact if_neg fun hc => hc.2 h
  · unfold checkPadding
    split
    · next hc => rw [ha, readByte_eq_ok.2 hb, Run.ok_bind, if_neg (not_not.2 ((and_paddingMask_eq_zero b hc.2).2 h0))]
    · rfl

theorem checkPadding_of_set {a base off : Nat} {b : Byte} (ha : base + ceil8 len - 1 = a) (hb : Memory.read m a = some b)
    (h8 : len % 8 ≠ 0) (h0 : b.toNat % 2 ^ (8 - len % 8) ≠ 0) :
    checkPadding m base off len = .error (.error .corruptContainer off) := by
  have hpos : 0 < ceil8 len := by unfold ceil8; omega
  rw [checkPadding, if_pos ⟨hpos, h8⟩, ha, readByte_eq_ok.2 hb, Run.ok_bind,
    if_pos fun h => h0 ((and_paddingMask_eq_zero b h8).1 h)]

theorem parsePayload_of_paddingSet {b : Byte} (hs : size = 6 + 5 * n + ceil8 len)
    (hb : Memory.read m (a0 + (5 + 5 * n + ceil8 len)) = some b) (h8 : len % 8 ≠ 0)
    (h0 : b.toNat % 2 ^ (8 - len % 8) ≠ 0) :
    parsePayload m a0 size n len = .error (.error .corruptContainer (5 + 5 * n + ceil8 len)) := by
  rw [parsePayload_exact hs, checkPadding_of_set (by omega) hb h8 h0, Run.error_bind]

/-- A payload with no table is MALFORMED_PAYLOAD at BITLEN (R103). -/
theorem parsePayload_of_noTable (hs : size = 6 + 5 * n + ceil8 len)
    (hclear : PaddingClear m (a0 + (5 + 5 * n + ceil8 len)) len) (hn : n = 0) (h0 : len ≠ 0) :
    parsePayload m a0 size n len = .error (.error .malformedPayload 2) := by
  rw [parsePayload_exact hs, checkPadding_of_clear (by omega) hclear, Run.ok_bind, if_pos ⟨hn, h0⟩]

/-- A payload that passes every check is returned (R99). -/
theorem parsePayload_ok {pb : List Byte} (hs : size = 6 + 5 * n + ceil8 len) (hn : n = 0 → len = 0)
    (hclear : PaddingClear m (a0 + (5 + 5 * n + ceil8 len)) len) (hlen : pb.length = ceil8 len)
    (hb : BytesAt m (a0 + (6 + 5 * n)) pb) : parsePayload m a0 size n len = .ok pb := by
  rw [← Nat.add_assoc] at hb
  exact parsePayload_eq_ok.2 ⟨hs, checkPadding_of_clear (by omega) hclear, hn, hb.readBytes hlen⟩

/-- Parse of a whole container of pairs that pass, in any order, gives their counts and the payload with its padding bits
cleared (R99, R100). -/
theorem parse_containerOf {ps : List (Byte × Word)} {pb : List Byte} (hp : GoodPairs ps) (hlen : len < 2 ^ 32)
    (hpb : pb.length = ceil8 len) (hn : ps = [] → len = 0) (hs : size = 6 + 5 * ps.length + ceil8 len)
    (hb : BytesAt m a0 (containerOf ps pb len)) :
    parse m a0 size = .ok
      { freq := loadPairs emptyFreq ps, count := ps.length, len := len, payload := clearPadding pb len } := by
  rw [containerOf_eq] at hb
  obtain ⟨htable, hpay⟩ := hb.append
  rw [List.length_append, tableBytes_length, be32Bytes_eq, toBe32_length,
    show 2 + 5 * ps.length + 4 = 6 + 5 * ps.length by omega] at hpay
  have hclear : PaddingClear m (a0 + (5 + 5 * ps.length + ceil8 len)) len := by
    rw [← Nat.add_assoc]
    refine paddingClear_of_bytesAt hpb ?_
    rwa [show a0 + (5 + 5 * ps.length) + 1 = a0 + (6 + 5 * ps.length) by omega]
  rw [parse_goodTable hp hlen (by omega) htable, parsePayload_ok hs (fun h => hn (List.eq_nil_of_length_eq_zero h)) hclear
    ((clearPadding_length _ _).trans hpb) hpay, Run.ok_bind]

end Parse

/-! ### DESERIALIZE -/

section Ends

variable {s : State} {l : Latch} (hl : s.latch = some l)
  (hv : RangesOk (Config.memBytes s.memSize) l.a0.toNat l.a1.toNat l.a2.toNat l.a3.toNat)

include hl hv

/-- A container that parses, with room for its payload, completes the command (R105). -/
theorem exec_deserialize_complete {c : Parsed} (hc : parse s.mem l.a0.toNat l.a1.toNat = .ok c)
    (hfit : ceil8 c.len ≤ l.a3.toNat) :
    exec .deserialize s = .next (complete { clearTree s with
      freq := c.freq
      mem := Memory.writeBytes s.mem l.a2.toNat c.payload
      res0 := BitVec.ofNat 32 (ceil8 c.len)
      res1 := BitVec.ofNat 32 c.len }) := by
  rw [exec_eq_runCommand]
  exact runCommand_complete hl rfl ((rangesValid_iff_rangesOk rfl rfl).2 hv) (deserializeBody_eq_ok.2 ⟨c, hc, hfit, rfl⟩)

/-- An error of Parse is the error of the command, with the effects of R123. -/
theorem exec_deserialize_fails {c : ErrCode} {n : Nat}
    (he : parse s.mem l.a0.toNat l.a1.toNat = .error (.error c n)) : FailsSpoiled s l c n (exec .deserialize s) :=
  failsSpoiled_of_body hl rfl rfl ((rangesValid_iff_rangesOk rfl rfl).2 hv) (Run.bind_eq_error.2 (.inl he))

/-- A payload that does not fit is OUTPUT_OVERFLOW at the offset of PAYLOAD (R105). -/
theorem exec_deserialize_overflows {c : Parsed} (hc : parse s.mem l.a0.toNat l.a1.toNat = .ok c)
    (hlt : l.a3.toNat < ceil8 c.len) : FailsSpoiled s l .outputOverflow (6 + 5 * c.count) (exec .deserialize s) :=
  failsSpoiled_of_body hl rfl rfl ((rangesValid_iff_rangesOk rfl rfl).2 hv)
    (Run.bind_eq_error.2 (.inr ⟨c, hc, if_pos hlt⟩))

/-- After a table that passes, an error of the payload is the error of the command. -/
theorem exec_deserialize_badPayload {ps : List (Byte × Word)} {len n : Nat} {c : ErrCode} (hp : GoodPairs ps)
    (hlen : len < 2 ^ 32) (hs : 6 + 5 * ps.length ≤ l.a1.toNat)
    (hb : BytesAt s.mem l.a0.toNat (tableBytes ps.length ps ++ be32Bytes len))
    (he : parsePayload s.mem l.a0.toNat l.a1.toNat ps.length len = .error (.error c n)) :
    FailsSpoiled s l c n (exec .deserialize s) :=
  exec_deserialize_fails hl hv ((parse_goodTable hp hlen hs hb).trans (by rw [he, Run.error_bind]))

end Ends

/-- Settles O51: Parse returns the counts of the pairs, whatever their order, and the payload. -/
theorem deserializeCompletes : Obligations.DeserializeCompletes := by
  intro s l ps pb len hl hnodup hne hlen hpb hclear hnil ha1 hv hm hfit
  have hparse := parse_containerOf ⟨hnodup, hne⟩ hlen hpb hnil ha1 hm
  rw [hclear] at hparse
  refine ⟨_, exec_deserialize_complete hl hv hparse hfit, rfl, fun p hp => freqOf_loadPairs ps _ hnodup hp, fun y hy => ?_,
    fun k hk => Memory.read_writeBytes_inside _ _ _ k hk, sameOutside_writeBytes _ _ le_rfl⟩
  exact (freqOf_loadPairs_of_notMem ps _ hy).trans (freqOf_emptyFreq y)

/-- Settles O54: each check of Parse in its order, and the check of the room for the payload after it. -/
theorem deserializeChecksSizeAndCount : Obligations.DeserializeChecksSizeAndCount := by
  intro s l b0 b1 hl hv
  refine ⟨fun h => exec_deserialize_fails hl hv (if_pos h), fun h2 hb => ?_, fun N ps y v hp hlt hN hs hb => ?_,
    fun ps N L P hp hN hL hP hs hb => ?_⟩
  · exact ⟨fun hbig => exec_deserialize_fails hl hv (parse_of_badCount h2 hb hbig),
      fun hn hshort => exec_deserialize_fails hl hv (parse_of_shortTable h2 hb hn hshort)⟩
  · obtain ⟨n, rfl⟩ := Nat.exists_eq_add_of_lt hlt
    obtain ⟨hcount, htable⟩ := BytesAt.append (xs := toBe16 (ps.length + n + 1)) hb
    have hpairs := parsePairs_next (y, v) n hp htable
    have hfails {x : Nat} (he : parsePairs s.mem l.a0.toNat (ps.length + n + 1) 0 emptyFreq [] =
        .error (.error .corruptContainer x)) := exec_deserialize_fails hl hv (parse_of_badPair hN hs hcount he)
    exact ⟨fun hy => hfails (hpairs.trans (if_pos hy)),
      fun hy hv0 => hfails (hpairs.trans ((if_neg hy).trans (if_pos hv0)))⟩
  · subst hN hP
    have hfails {c : ErrCode} {n : Nat} := exec_deserialize_badPayload (c := c) (n := n) hl hv hp hL hs hb
    refine ⟨fun h => hfails (parsePayload_short h), fun h => hfails (parsePayload_trailing h), fun ha1 =>
      ⟨fun b hread h8 hset => hfails (parsePayload_of_paddingSet ha1 hread h8 hset), fun hclear =>
        ⟨fun hN hL0 => hfails (parsePayload_of_noTable ha1 hclear hN hL0), fun hN pb hpb hpay hlt => ?_⟩⟩⟩
    have hparse := parse_goodTable hp hL hs hb
    rw [parsePayload_ok ha1 hN hclear hpb hpay, Run.ok_bind] at hparse
    exact exec_deserialize_overflows hl hv hparse hlt

/-! ### The round trip -/

/-- Settles O52: what SERIALIZE leaves is the container of the present pairs, and O51 loads their counts. -/
theorem serializeDeserializeRoundTrip : Obligations.SerializeDeserializeRoundTrip := by
  intro s t u l k pb hl h hok hpb hm hnil hk ha1 hcopy hv hcap
  obtain ⟨pb', hread, h0, hbytes⟩ := serialize_succeeded hl h hok
  obtain rfl : pb = pb' := Except.ok.inj ((BytesAt.readBytes hm hpb).symm.trans hread)
  have hgood := goodPairs_presentPairs s.freq
  have hlen : (clearPadding pb l.a1.toNat).length = bytesFor l.a1.toNat := (clearPadding_length _ _).trans hpb
  have hcontainer : HoldsBytes u.mem k.a0.toNat (containerOf (presentPairs s.freq) (clearPadding pb l.a1.toNat) l.a1.toNat) := by
    rw [containerOf_clearPadding]
    exact fun j hj => (hcopy j (by rw [h0]; rwa [containerOf_length _ _ _ hpb] at hj)).trans (hbytes j hj)
  obtain ⟨v, hexec, hv, hpresent, habsent, hout, _⟩ := deserializeCompletes u k _ _ _ hk hgood.1 hgood.2 l.a1.isLt hlen
    (clearPadding_idem _ _) (fun he => by rw [hnil (by rw [presentSymbols_eq_map, he]; rfl)]; rfl) (by rw [ha1, h0]; rfl) hv
    hcontainer hcap
  refine ⟨v, hexec, by rw [hv], freqTable_ext fun y => ?_, by rw [hv, BitVec.ofNat_toNat, BitVec.setWidth_eq], hout⟩
  by_cases hy : y ∈ (presentPairs s.freq).map Prod.fst
  · obtain ⟨p, hp, rfl⟩ := List.mem_map.1 hy
    rw [hpresent p hp, (mem_presentPairs.1 hp).1]
  · rw [habsent y hy, freqOf_presentPairs_of_notMem hy]

/-- Settles O53: with L > 0 the table and BITLEN are whole and the payload is one byte short; with L = 0 the size cuts BITLEN
short. -/
theorem truncatedContainerIsRejected : Obligations.TruncatedContainerIsRejected := by
  rintro s t u l k N hl h hok rfl hk ha1 hcopy hv
  obtain ⟨pb, hread, h0, hbytes⟩ := serialize_succeeded hl h hok
  have hgood := goodPairs_presentPairs s.freq
  have hcount := goodPairs_length_le hgood
  rw [presentSymbols_length]
  rw [containerOf_eq] at hbytes
  have hkept {bs : List Byte} (hlt : bs.length < t.res0.toNat) (hb : BytesAt t.mem l.a2.toNat bs) :
      BytesAt u.mem k.a0.toNat bs := fun j hj => (hcopy j (by omega)).trans (hb j hj)
  refine ⟨fun hL => ?_, fun hL => ?_⟩
  · have hpos : l.a1.toNat ≠ 0 := fun hz => hL (BitVec.eq_of_toNat_eq hz)
    have hpay : 0 < ceil8 l.a1.toNat := by unfold ceil8; omega
    refine exec_deserialize_badPayload hk hv hgood l.a1.isLt (by omega) (hkept ?_ hbytes.append.1)
      (parsePayload_short (by omega))
    rw [List.length_append, tableBytes_length, h0, be32Bytes_eq, toBe32_length]
    omega
  · have hP : ceil8 l.a1.toNat = 0 := by rw [hL]; rfl
    have hsize : k.a1.toNat = 5 + 5 * (presentPairs s.freq).length := by omega
    have hn := (beNat_pair _ _).symm.trans (beNat_toBe16 (v := (presentPairs s.freq).length) (by omega))
    have hbe := hkept (by rw [toBe16_length]; omega) (BytesAt.append (xs := toBe16 _) hbytes.append.1.append.1).1
    rw [← hsize]
    exact exec_deserialize_fails hk hv (parse_of_shortTable (by omega) hbe (by omega) (by omega))

end Sys2Proof.Machine
end

section
/-! PROOFS. The life of a command (R108–R112, R124): its issue, its end in the engine's turn, the bound that the queue sets
for it, and the conflicting accesses while it runs. -/

namespace Sys2Proof.Machine

open Sys2Proof.Claims

/-! ### The issue and the engine's turn -/

/-- Settles O5: a write to CMD issues its word while BUSY = 0, and CMD is no window, so a refused write is answered. -/
theorem cmdWriteIssuesWhileIdle : Obligations.CmdWriteIssuesWhileIdle := by
  refine ⟨fun s es w hq hl => step_write_cmd_idle hq hl, fun s es w l hq hl => ?_⟩
  rw [step_write hq rfl (.inr rfl), writeTarget, writeCmd, if_pos (by simp [State.busy, hl])]
  rfl

/-- When the engine's turn comes, the step is the engine step once the turn is off the queue. -/
theorem step_of_engineNext {s : State} (h : EngineNext s) : step s = engineStep s.takeEvent := by
  rcases h with hq | hq
  · rw [step_nil hq, takeEvent_nil hq]
  · obtain ⟨es, hq⟩ := List.head?_eq_some_iff.1 hq
    rw [step_cons hq, hostEvent]

theorem engineStep_of_idle {s : State} (hl : s.latch = none) : engineStep s = .next s := by
  rw [engineStep, hl]

/-- Settles O4: by what the engine step does with a latched command, and by what it does while the latch is empty. -/
theorem stepRunsLatchedCommand : Obligations.StepRunsLatchedCommand := by
  refine ⟨fun s l i hturn hl hd => ?_, fun s es hq hl => ?_, fun s hq hl => ?_⟩
  · rw [step_of_engineNext hturn]
    exact engineStep_exec hl hd
  · rw [step_of_engineNext (.inr (by rw [hq]; rfl)), takeEvent_eq hq]
    exact engineStep_of_idle hl
  · rw [step_nil hq, engineStep_of_idle hl]

/-! ### The end of a command -/

/-- Everything the engine step of a latched word can do when it goes on: completion after effects that leave the host's
elements alone, or a failure with an error code that is not 0 (R109, R123). -/
theorem engineStep_ends {s t : State} {l : Latch} (hl : s.latch = some l) (h : engineStep s = .next t) :
    (∃ u, BodyFrame s u ∧ t = complete u) ∨ ∃ c n, c ≠ .ok ∧ t = raiseError l c n s := by
  rcases engineStep_cases s with ⟨hnone, _⟩ | ⟨l', hl', ⟨i, _, he⟩ | ⟨_, he⟩⟩
  · cases hnone.symm.trans hl
  · rw [he, exec_eq_runCommand] at h
    obtain ⟨l'', hl'', hend⟩ := runCommand_next h
    obtain rfl : l = l'' := Option.some.inj (hl.symm.trans hl'')
    rcases hend with ⟨_, _, u, hb, ht⟩ | ⟨_, ht⟩ | ⟨_, _, ht⟩ | ⟨_, _, c, n, hb, ht⟩
    · exact .inl ⟨u, bodyOf_frame hb, ht⟩
    · exact .inr ⟨.notReady, 0, nofun, ht⟩
    · exact .inr ⟨.badRange, 0, nofun, ht⟩
    · refine .inr ⟨c, n, ?_, ht⟩
      rintro rfl
      cases bodyOf_error_code hb
  · obtain rfl : l = l' := Option.some.inj (hl.symm.trans hl')
    rw [he] at h
    cases h
    exact .inr ⟨.badCommand, 0, nofun, rfl⟩

/-- Settles O7: completion sets ERR and ERR_INFO to 0, a failure sets RES0 and RES1 to 0, and neither writes the rest. -/
theorem engineStepEndsTheCommand : Obligations.EngineStepEndsTheCommand := by
  intro s t l hl h
  rcases engineStep_ends hl h with ⟨u, hu, rfl⟩ | ⟨c, n, hc, rfl⟩
  · exact ⟨rfl, rfl, fun _ => rfl, fun he => absurd rfl he, hu.irqEn, hu.hostConflict, hu.lastOpc, hu.arg0, hu.arg1, hu.arg2,
      hu.arg3, hu.memSize, hu.hostQueue, hu.response⟩
  · refine ⟨rfl, rfl, fun he => absurd he hc, fun _ => ⟨rfl, rfl⟩, ?_⟩
    simp

/-! ### The queue -/

/-- After the engine's turn no command is running (R109). -/
theorem engineStep_busy {s t : State} (h : engineStep s = .next t) : t.busy = false := by
  cases hl : s.latch with
  | none =>
    rw [engineStep_of_idle hl] at h
    cases h
    exact busy_eq_false.2 hl
  | some l => exact (engineStepEndsTheCommand s t l hl h).1

theorem engineStep_hostQueue {s t : State} (h : engineStep s = .next t) : t.hostQueue = s.hostQueue := by
  cases hl : s.latch with
  | none =>
    rw [engineStep_of_idle hl] at h
    cases h
    rfl
  | some l =>
    rcases engineStep_ends hl h with ⟨u, hu, rfl⟩ | ⟨c, n, _, rfl⟩
    · exact hu.hostQueue
    · exact raiseError_hostQueue l c n s

theorem writeTarget_hostQueue (tg : Target) (sz : AccessSize) (d : Word) (s : State) :
    (writeTarget tg sz d s).hostQueue = s.hostQueue := by
  cases tg with
  | cmd => rw [writeTarget, writeCmd]; split <;> rfl
  | ctrl =>
    rcases writeCtrl_cases d s with ⟨_, he⟩ | ⟨_, he⟩ <;> rw [writeTarget, he]
    exact softReset_hostQueue s
  | _ => rfl

/-- An event leaves the events after it in the queue. -/
theorem hostEvent_hostQueue {e : HostEvent} {s t : State} (h : hostEvent e s = .next t) : t.hostQueue = s.hostQueue := by
  cases e with
  | read off sz =>
    rcases hostRead_cases off sz s with ⟨_, he⟩ | ⟨_, _, ⟨_, _, he⟩ | ⟨_, ⟨_, _, he⟩ | ⟨_, _, he⟩⟩⟩ <;>
      rw [hostEvent, he] at h <;> cases h <;> rfl
  | write off sz d =>
    rcases hostWrite_cases off sz d s with ⟨_, he⟩ | ⟨tg, _, ⟨_, _, he⟩ | ⟨_, he⟩⟩ <;> rw [hostEvent, he] at h <;> cases h
    · rfl
    · rfl
    · exact writeTarget_hostQueue tg sz d s
  | hardwareReset => cases h; rfl
  | engineTurn => exact engineStep_hostQueue h

theorem step_hostQueue {s t : State} (h : step s = .next t) : t.hostQueue = s.hostQueue.tail := by
  cases hq : s.hostQueue with
  | nil =>
    rw [step_nil hq] at h
    rw [engineStep_hostQueue h, hq, List.tail_nil]
  | cons e es =>
    rw [step_cons hq] at h
    rw [hostEvent_hostQueue h, takeEvent_hostQueue, hq]

/-- A run that goes on takes its first step and goes on from there. -/
theorem run_succ_eq_next {M : Host.Core} {k : Nat} {s u : M.State} (h : M.run (k + 1) s = .next u) :
    ∃ t, M.step s = .next t ∧ M.run k t = .next u := by
  rw [Host.Core.run] at h
  split at h
  · next t hs => exact ⟨t, hs, h⟩
  · cases h
  · cases h

/-- Settles O9, by induction on the queue: every step takes one event off it, and the last step is the engine's turn. -/
theorem everyCommandEndsWithinTheQueue : Obligations.EveryCommandEndsWithinTheQueue := by
  intro s u h
  generalize hq : s.hostQueue = es at h
  induction es generalizing s with
  | nil =>
    obtain ⟨t, hstep, hrun⟩ := run_succ_eq_next h
    obtain rfl : t = u := Host.Outcome.next.inj hrun
    exact engineStep_busy ((step_nil hq).symm.trans hstep)
  | cons e es ih =>
    obtain ⟨t, hstep, hrun⟩ := run_succ_eq_next h
    exact ih t (by rw [step_hostQueue hstep, hq, List.tail_cons]) hrun

/-! ### The conflicting accesses -/

/-- From 0x400 on every mapped offset names a window (R112). -/
theorem hostTarget_isWindow_of_ge {m : MemSize} {n : Nat} {sz : AccessSize} {tg : Target}
    (h : hostTarget m n sz = some tg) (hn : 0x400 ≤ n) : tg.isWindow = true := by
  unfold hostTarget at h
  split at h
  · split at h <;> cases h
    rfl
  · split at h
    · rw [wordTarget, if_neg (by omega)] at h
      repeat' split at h
      all_goals cases h <;> rfl
    · cases h

/-- An accepted access to a window while BUSY = 1 is the conflicting access of R112. -/
theorem hostTarget_of_conflicting {s : State} {l : Latch} {off : Nat} {sz : AccessSize} (hl : s.latch = some l) (hw : InWindow off)
    (hacc : Accepted s.memSize off sz) :
    ∃ tg, hostTarget s.memSize off sz = some tg ∧ (s.busy && tg.isWindow) = true := by
  obtain ⟨tg, ht⟩ := Option.ne_none_iff_exists'.1 fun hn => (hostTarget_eq_none _ _ _).1 hn hacc
  exact ⟨tg, ht, by simp [State.busy, hl, hostTarget_isWindow_of_ge ht hw]⟩

theorem maskToSize_toNat (sz : AccessSize) (v : Word) : (maskToSize sz v).toNat = v.toNat % 256 ^ sz.bytes := by
  cases sz with
  | bits8 => exact (BitVec.toNat_and v _).trans (Nat.and_two_pow_sub_one_eq_mod v.toNat 8)
  | bits16 => exact (BitVec.toNat_and v _).trans (Nat.and_two_pow_sub_one_eq_mod v.toNat 16)
  | bits32 => exact (Nat.mod_eq_of_lt v.isLt).symm

/-- Settles O17: the port answers a conflicting write without a write, and a conflicting read with the next free value. -/
theorem conflictingAccessOnlySetsConflict : Obligations.ConflictingAccessOnlySetsConflict := by
  intro s es off sz d l hl hw hacc
  obtain ⟨tg, ht, hc⟩ := hostTarget_of_conflicting (s := { s with hostQueue := es }) hl hw hacc
  refine ⟨fun hq => ?_, fun hq => ⟨maskToSize sz (Config.drawWord s.drawCount), maskToSize_toNat _ _, ?_⟩⟩ <;>
    rw [step_cons hq, takeEvent_eq hq]
  · rw [hostEvent, hostWrite, ht]
    simp only [hc]
    rfl
  · rw [hostEvent, hostRead, ht]
    simp only [hc]
    rfl

/-! ### The command after a conflicting access -/

/-- `s` with HOST_CONFLICT set and `n` free values drawn: what a conflicting access does to a state, but for the answer. -/
def afterConflict (n : Nat) (s : State) : State := { s with hostConflict := true, drawCount := n }

/-- No command's effects read or write HOST_CONFLICT or depend on the free values drawn so far (R112). -/
theorem bodyOf_afterConflict (i : Instr) (l : Latch) (s : State) (n : Nat) :
    bodyOf i l (afterConflict n s) = afterConflict n <$> bodyOf i l s := by
  cases i with
  | buildTree => rfl
  | genCodes => simp only [bodyOf, genCodesBody, map_bind]; rfl
  | encode => simp only [bodyOf, encodeBody, map_bind]; rfl
  | decode => simp only [bodyOf, decodeBody, map_bind]; rfl
  | serialize => simp only [bodyOf, serializeBody, apply_ite (afterConflict n <$> ·), map_bind]; rfl
  | deserialize => simp only [bodyOf, deserializeBody, apply_ite (afterConflict n <$> ·), map_bind]; rfl

/-- The run of a command before its end: the common checks, then its effects (R63, R109). -/
def commandRun (i : Instr) (l : Latch) (s : State) : Run State := preCheck i l s >>= fun _ => bodyOf i l s

theorem exec_eq_finish {i : Instr} {s : State} {l : Latch} (hl : s.latch = some l) :
    exec i s = finish l s (commandRun i l s) := by
  rw [exec_eq_runCommand, runCommand_latch hl, commandRun]

theorem exec_of_idle {i : Instr} {s : State} (hl : s.latch = none) : exec i s = .fault .engineIdle := by
  rw [exec_eq_runCommand, runCommand, hl]

theorem commandRun_drawCount {i : Instr} {l : Latch} {s u : State} (h : commandRun i l s = .ok u) :
    u.drawCount = s.drawCount := by
  obtain ⟨_, _, hb⟩ := Run.bind_eq_ok.1 h
  exact (bodyOf_frame hb).drawCount

theorem commandRun_error_ne_ok {i : Instr} {l : Latch} {s : State} {c : ErrCode} {n : Nat}
    (h : commandRun i l s = .error (.error c n)) : c ≠ .ok := by
  rintro rfl
  rcases Run.bind_eq_error.1 h with h | ⟨_, _, hb⟩
  · rcases preCheck_eq_error.1 h with ⟨_, he⟩ | ⟨_, _, he⟩ <;> cases he
  · cases bodyOf_error_code hb

theorem commandRun_afterConflict (i : Instr) (l : Latch) (s : State) (n : Nat) :
    commandRun i l (afterConflict n s) = afterConflict n <$> commandRun i l s := by
  have hcheck : preCheck i l (afterConflict n s) = preCheck i l s := by cases i <;> rfl
  rw [commandRun, hcheck, commandRun, map_bind]
  simp only [bodyOf_afterConflict]

/-- Everything a command can do, with what it does after a conflicting access beside it: it succeeds, fails or stops in
both, and succeeds or fails alike. -/
theorem exec_afterConflict_cases (i : Instr) {s : State} {l : Latch} (hl : s.latch = some l) (n : Nat) :
    (∃ u, u.drawCount = s.drawCount ∧ exec i s = .next (complete u) ∧
      exec i (afterConflict n s) = .next (complete (afterConflict n u))) ∨
    (∃ c k, c ≠ .ok ∧ exec i s = .next (raiseError l c k s) ∧
      exec i (afterConflict n s) = .next (raiseError l c k (afterConflict n s))) ∨
    ∃ f, exec i s = .fault f ∧ exec i (afterConflict n s) = .fault f := by
  rw [exec_eq_finish hl, exec_eq_finish (s := afterConflict n s) hl, commandRun_afterConflict]
  cases hr : commandRun i l s with
  | ok u => exact .inl ⟨u, commandRun_drawCount hr, rfl, rfl⟩
  | error e =>
    cases e with
    | error c k => exact .inr (.inl ⟨c, k, commandRun_error_ne_ok hr, rfl, rfl⟩)
    | fault f => exact .inr (.inr ⟨f, rfl, rfl⟩)

/-- With the same free values to come, a failure has the same effects. -/
theorem raiseError_hostConflict_set (l : Latch) (c : ErrCode) (k : Nat) (s : State) :
    raiseError l c k { s with hostConflict := true } = { raiseError l c k s with hostConflict := true } := by
  cases c <;> rfl

/-- With other free values to come, a failure differs in the destination range only (R123). -/
theorem raiseError_afterConflict (l : Latch) (c : ErrCode) (k n : Nat) (s : State) :
    raiseError l c k (afterConflict n s) = { raiseError l c k s with
      hostConflict := true
      mem := (raiseError l c k (afterConflict n s)).mem
      drawCount := (raiseError l c k (afterConflict n s)).drawCount } := by
  cases c <;> rfl

theorem sameOutside_raiseError_afterConflict (l : Latch) (c : ErrCode) (k n : Nat) (s : State) :
    SameOutside (raiseError l c k s).mem (raiseError l c k (afterConflict n s)).mem l.a2.toNat l.a3.toNat := by
  intro b hb
  rw [sameOutside_raiseError l c k s b hb]
  exact sameOutside_raiseError l c k (afterConflict n s) b hb

/-- The first clause of O18: HOST_CONFLICT alone changes nothing in what a command does. -/
theorem exec_hostConflict_set (i : Instr) (s : State) :
    exec i { s with hostConflict := true } = mapNext (fun t => { t with hostConflict := true }) (exec i s) := by
  obtain hl | ⟨l, hl⟩ := s.latch.eq_none_or_eq_some
  · rw [exec_of_idle hl]
    exact exec_of_idle hl
  · rcases exec_afterConflict_cases i hl s.drawCount with ⟨u, hu, he, he'⟩ | ⟨c, k, _, he, he'⟩ | ⟨f, he, he'⟩ <;>
      rw [he] <;> refine Eq.trans he' ?_
    · rw [← hu]
      rfl
    · exact congrArg Host.Outcome.next (raiseError_hostConflict_set l c k s)
    · rfl

/-- Settles O18: the checks and the effects of a command are the same after the access, and only a failure draws. -/
theorem conflictDoesNotDisturbTheCommand : Obligations.ConflictDoesNotDisturbTheCommand := by
  refine ⟨exec_hostConflict_set, fun i s t n h hok => ?_, fun i s t l n hl h hne => ?_, fun i s f n h => ?_⟩
  · obtain ⟨l, hl, _⟩ := exec_next h
    rcases exec_afterConflict_cases i hl n with ⟨u, _, he, he'⟩ | ⟨c, k, hc, he, _⟩ | ⟨f, he, _⟩ <;> cases he.symm.trans h
    · exact he'
    · exact absurd hok hc
  · rcases exec_afterConflict_cases i hl n with ⟨u, _, he, _⟩ | ⟨c, k, _, he, he'⟩ | ⟨f, he, _⟩ <;> cases he.symm.trans h
    · exact absurd rfl hne
    · exact ⟨_, he', raiseError_afterConflict l c k n s, sameOutside_raiseError_afterConflict l c k n s⟩
  · obtain hl | ⟨l, hl⟩ := s.latch.eq_none_or_eq_some
    · cases (exec_of_idle hl).symm.trans h
      exact exec_of_idle hl
    · rcases exec_afterConflict_cases i hl n with ⟨u, _, he, _⟩ | ⟨c, k, _, he, _⟩ | ⟨g, he, he'⟩ <;> cases he.symm.trans h
      exact he'

end Sys2Proof.Machine
end

section
/-! PROOFS. The end of a command as the host sees it: the interrupt output (R127), what a failure changes (R123), and the
commands on empty input (R121). -/

namespace Sys2Proof.Machine

open Sys2Proof.Claims

/-! ### The interrupt output -/

/-- Settles O10: the engine step sets DONE and keeps IRQ_EN, and a write to CTRL sets IRQ_EN and keeps DONE. -/
theorem irqFollowsDoneAndEnable : Obligations.IrqFollowsDoneAndEnable := by
  refine ⟨fun s => Bool.and_eq_true_iff, fun s t l hl h => ?_, fun s t es d hq h0 h1 hdone h => ?_⟩
  · obtain ⟨_, hdone, _, _, hirq, _⟩ := engineStepEndsTheCommand s t l hl h
    rw [State.irq, hdone, Bool.true_and, hirq]
  · cases (ctrlWriteAndRead.1 s es d hq h1).symm.trans h
    exact Bool.and_eq_true_iff.2 ⟨hdone, h0⟩

/-! ### The effects of a failure -/

/-- The codes whose failure draws the destination range (R123). -/
theorem ErrCode.spoilsDestination_iff {c : ErrCode} : c.spoilsDestination = true ↔
    c = .outputOverflow ∨ c = .unknownSymbol ∨ c = .malformedPayload ∨ c = .corruptContainer := by
  cases c <;> decide

/-- Only a command with a destination range raises an error after its checks (R61). -/
theorem destRange_of_bodyOf_error {i : Instr} {l : Latch} {s : State} {c : ErrCode} {n : Nat}
    (h : bodyOf i l s = .error (.error c n)) : destRange i l = some (l.a2.toNat, l.a3.toNat) := by
  cases i with
  | buildTree | genCodes => exact absurd h (bodyOf_ne_error rfl s c n)
  | encode | decode | serialize | deserialize => rfl

/-- Everything a failed engine step can be: a check before the command's effects failed, with a code of 1..3 and position 0, or
the command failed after its ranges were found valid, with a code of 4..7 (R63, R123). -/
theorem engineStep_fails {s t : State} {l : Latch} (hl : s.latch = some l) (h : engineStep s = .next t) (hne : t.err ≠ .ok) :
    ∃ c n, t = raiseError l c n s ∧ (c.spoilsDestination = false ∧ n = 0 ∨
      c.spoilsDestination = true ∧ InMem (Config.memBytes s.memSize) l.a2.toNat l.a3.toNat) := by
  rcases engineStep_cases s with ⟨hnone, _⟩ | ⟨l', hl', ⟨i, _, he⟩ | ⟨_, he⟩⟩
  · cases hnone.symm.trans hl
  · rw [he, exec_eq_runCommand] at h
    obtain ⟨l'', hl'', hend⟩ := runCommand_next h
    obtain rfl : l = l'' := Option.some.inj (hl.symm.trans hl'')
    rcases hend with ⟨_, _, u, _, rfl⟩ | ⟨_, ht⟩ | ⟨_, _, ht⟩ | ⟨_, hv, c, n, hb, ht⟩
    · exact absurd rfl hne
    · exact ⟨.notReady, 0, ht, .inl ⟨rfl, rfl⟩⟩
    · exact ⟨.badRange, 0, ht, .inl ⟨rfl, rfl⟩⟩
    · exact ⟨c, n, ht, .inr ⟨bodyOf_error_code hb, destRange_inMem hv (destRange_of_bodyOf_error hb)⟩⟩
  · obtain rfl : l = l' := Option.some.inj (hl.symm.trans hl')
    exact ⟨.badCommand, 0, (Host.Outcome.next.inj (he.symm.trans h)).symm, .inl ⟨rfl, rfl⟩⟩

/-- A failure that draws a destination range of MEM draws every byte of it, and no other (R123). -/
theorem spoiled_raiseError {l : Latch} {c : ErrCode} {s : State} (n : Nat) (hc : c.spoilsDestination = true)
    (hin : InMem (Config.memBytes s.memSize) l.a2.toNat l.a3.toNat) : Spoiled l s (raiseError l c n s) := by
  refine ⟨fun a h1 h2 => ?_, sameOutside_raiseError l c n s⟩
  rw [read_raiseError, if_pos ⟨hc, h1, h2, by omega⟩]

/-- Settles O28: a failure keeps the tables, and whether it draws the destination range is told by its code. -/
theorem failureEffects : Obligations.FailureEffects := by
  intro s t l hl h hne
  obtain ⟨c, n, rfl, hend⟩ := engineStep_fails hl h hne
  have htab := sameTables_raiseError l c n s
  refine ⟨rfl, rfl, rfl, rfl, htab.freq, htab.nodes, htab.nleaf, htab.root, htab.codes, htab.treeValid, htab.codesValid, ?_, ?_⟩
  · rw [raiseError_err]
    intro hcode
    have hkeeps : c.spoilsDestination = false := by rcases hcode with rfl | rfl | rfl <;> rfl
    rcases hend with ⟨_, rfl⟩ | ⟨hspoils, _⟩
    · rw [raiseError_mem, spoilDestination, hkeeps]
      exact ⟨rfl, rfl⟩
    · cases hkeeps.symm.trans hspoils
  · rw [raiseError_err, ← ErrCode.spoilsDestination_iff]
    intro hspoils
    rcases hend with ⟨hkeeps, _⟩ | ⟨_, hin⟩
    · cases hkeeps.symm.trans hspoils
    · exact spoiled_raiseError n hspoils hin

/-! ### Empty input -/

theorem presentSymbols_eq_nil {f : FreqTable} (h : ∀ y, freqOf f y = 0#32) : presentSymbols f = [] :=
  List.eq_nil_iff_forall_not_mem.2 fun y hy => mem_presentSymbols.1 hy (h y)

/-- An empty source range is valid beside every destination range in MEM (R60). -/
theorem rangesOk_empty {M a b k : Nat} (h : InMem M b k) : RangesOk M a 0 b k :=
  ⟨.inl rfl, h, fun ho => absurd ho.1 (Nat.lt_irrefl 0)⟩

/-- Zero bits decode to zero symbols on every tree (R89, R90, R121). -/
theorem decodePayload_noBits {s : State} (hs : s.Inv) (hv : s.treeValid = true) (a0 cap : Nat) :
    decodePayload s.nodes s.nleaf.toNat s.root s.mem a0 0 cap = .ok [] := by
  obtain ⟨_, hg⟩ := hs.genCodes_eq hv
  obtain ⟨c, hc⟩ := genCodes_buildTree_ok s.freq
  exact (hs.treeCodes hv (hg.trans hc)).decodePayload_codes (xs := []) nofun nofun (Nat.zero_le cap)

/-- The container of the empty table and no payload: COUNT and BITLEN are 0 (R95). -/
theorem containerOf_empty : containerOf [] [] 0 = [0, 0, 0, 0, 0, 0] := by decide

/-- Settles O43: no loop of a command takes a turn, and the container of the empty table is six bytes 0. -/
theorem emptyInputSucceeds : Obligations.EmptyInputSucceeds := by
  rintro s l M hs hl rfl
  refine ⟨fun hf => ?buildTree, fun hv h0 => ?genCodes, fun hr h0 hin => ?encode, fun hv h0 hin => ?decode,
    fun hf h0 hin hfit => ?serialize, fun h6 hranges hm => ?deserialize⟩
  case buildTree =>
    have hroot : (buildTree s.freq).root = 0x1FF#9 := by rw [emptyAndSingleLeafTables.1 s.freq hf]
    exact ⟨_, buildTreeCompletes s l hl, rfl, by rw [presentSymbols_eq_nil hf]; rfl, hroot⟩
  case genCodes =>
    have hc : genCodes s.nodes s.nleaf.toNat s.root = .ok emptyCodes := by rw [h0]; rfl
    exact ⟨_, exec_genCodes_complete hl hv hc, rfl, codeOf_emptyCodes⟩
  case encode =>
    have hbits : encodeFrom s.codes s.mem l.a0.toNat l.a3.toNat l.a1.toNat 0 [] = .ok [] := by rw [h0]; rfl
    exact exec_encode_complete hl hr (by rw [h0]; exact rangesOk_empty hin) hbits
  case decode =>
    have hout := decodePayload_noBits hs hv l.a0.toNat l.a3.toNat
    rw [exec_decode_complete hl hv (by rw [h0]; exact rangesOk_empty hin) (by rw [h0]; exact hout), h0]
    rfl
  case serialize =>
    have hnil := presentSymbols_eq_nil hf
    obtain ⟨t, ht, he, hbytes, _⟩ := serializeCompletes s l [] 6 hl (by rw [h0]; exact rangesOk_empty hin)
      (by rw [hnil, h0]; rfl) hfit (by rw [h0]; rfl) nofun
    rw [hnil, h0] at hbytes
    exact ⟨t, ht, by rw [he], containerOf_empty ▸ hbytes⟩
  case deserialize =>
    have hlen : l.a1.toNat = 6 := by rw [h6]; rfl
    obtain ⟨t, ht, he, _, hzero, _⟩ := deserializeCompletes s l [] [] 0 hl .nil nofun (by decide) rfl rfl (fun _ => rfl)
      hlen (hlen.symm ▸ hranges) (containerOf_empty ▸ hm) (Nat.zero_le _)
    exact ⟨t, ht, by rw [he], fun y => hzero y List.not_mem_nil⟩

end Sys2Proof.Machine
end

section
/-! PROOFS. The two resets (R137–R140), the arguments a command uses (R147), and that no stale tree or code table is used
(R144). -/

namespace Sys2Proof.Machine

open Sys2Proof.Claims

/-! ### The event rst_n -/

/-- The event rst_n is the hardware reset of the state it meets, whether or not a command runs (R137). -/
theorem step_hardwareReset {s : State} {es : List HostEvent} (hq : s.hostQueue = .hardwareReset :: es) :
    step s = .next (hardwareReset { s with hostQueue := es }) := by
  rw [step_cons hq, takeEvent_eq hq, hostEvent]

/-- Settles O24: rst_n puts every element at its reset value, MEM with them, and `State.reset` is its own hardware reset. -/
theorem hardwareResetFromAnyState : Obligations.HardwareReset :=
  ⟨fun _ _ hq => ⟨_, step_hardwareReset hq, atReset_hardwareReset rfl, rfl, fun _ => rfl⟩,
    atReset_hardwareReset (u := State.reset) rfl, fun _ => rfl⟩

/-- Settles O58, by the three parts of the invariant: MEM is empty, the tree is cleared and no command is latched. -/
theorem resetMeetsTheInvariant : Obligations.ResetMeetsTheInvariant :=
  (inv_iff State.reset).2 ⟨⟨wf_reset, List.forall_mem_nil _⟩, .of_cleared ⟨rfl, rfl, rfl, rfl⟩, latchTrue_of_idle rfl⟩

/-! ### The soft reset -/

/-- The destination range of a latched word: (a2, a3) for the words 3..6, none for every other (R59, R61). -/
theorem runningDest_eq {s : State} {l : Latch} (hl : s.latch = some l) :
    runningDest s = if 3 ≤ l.word.toNat ∧ l.word.toNat ≤ 6 then some (l.a2.toNat, l.a3.toNat) else none := by
  simp only [runningDest, hl]
  cases hd : Sys2Proof.decode l.word with
  | ok i =>
    rw [eq_encode_of_decode hd]
    cases i <;> rfl
  | error e =>
    have hreserved : ¬ (3 ≤ l.word.toNat ∧ l.word.toNat ≤ 6) := by
      rcases decode_cases l.word with ⟨hrsvd, _⟩ | ⟨_, hopc, _⟩ | ⟨_, _, i, hi⟩
      · omega
      · omega
      · cases hd.symm.trans hi
    rw [if_neg hreserved]

theorem abandon_of_noDest {s : State} (h : runningDest s = none) : abandon s = s := by
  rw [abandon, h]

theorem abandon_of_dest {s : State} {a n : Nat} (h : runningDest s = some (a, n)) : abandon s = drawRange a n s := by
  rw [abandon, h]

/-- A write to CTRL with bit 1 set is the soft reset, while BUSY is 0 or 1 (R19). -/
theorem step_softReset {s : State} {es : List HostEvent} {d : Word}
    (hq : s.hostQueue = .write 0x0000C#17 .bits32 d :: es) (hd : d.getLsbD 1 = true) :
    step s = .next (answerWrite .okay (softReset { s with hostQueue := es })) := by
  rw [step_write hq rfl (.inr rfl), writeTarget, writeCtrl, if_pos hd]

/-- Settles O25: MEM after the reset is MEM after the running command was abandoned, which draws its destination range. -/
theorem softResetKeepsMemory : Obligations.SoftResetKeepsMemory := by
  intro s es d hq hd
  refine ⟨_, step_softReset hq hd, atReset_softReset { s with hostQueue := es }, ?_, rfl, fun hl => ?_, fun l hl => ?_⟩
  · rw [answerWrite_hostQueue, softReset_hostQueue]
  · rw [answerWrite_mem, softReset_mem, abandon_of_noDest (by rw [runningDest, hl])]
  · have hdest := runningDest_eq (s := { s with hostQueue := es }) hl
    rw [answerWrite_mem, softReset_mem]
    refine ⟨fun hw => ?_, fun hlo hhi => ?_⟩
    · rw [abandon_of_noDest (hdest.trans (if_neg hw))]
    · rw [abandon_of_dest (hdest.trans (if_pos ⟨hlo, hhi⟩))]
      refine ⟨fun a h1 h2 h3 => ?_, fun a ha => ?_⟩ <;> rw [read_drawRange]
      · exact if_pos ⟨h1, h2, h3⟩
      · exact if_neg (by dsimp only; omega)

/-! ### The captured arguments -/

/-- `s` with other values in the argument registers. -/
def withArgs (b0 b1 b2 b3 : Word) (s : State) : State := { s with arg0 := b0, arg1 := b1, arg2 := b2, arg3 := b3 }

/-- No command's effects read or write the argument registers (R147). -/
theorem bodyOf_withArgs (i : Instr) (l : Latch) (b0 b1 b2 b3 : Word) (s : State) :
    bodyOf i l (withArgs b0 b1 b2 b3 s) = withArgs b0 b1 b2 b3 <$> bodyOf i l s := by
  cases i with
  | buildTree => rfl
  | genCodes => simp only [bodyOf, genCodesBody, map_bind]; rfl
  | encode => simp only [bodyOf, encodeBody, map_bind]; rfl
  | decode => simp only [bodyOf, decodeBody, map_bind]; rfl
  | serialize => simp only [bodyOf, serializeBody, apply_ite (withArgs b0 b1 b2 b3 <$> ·), map_bind]; rfl
  | deserialize => simp only [bodyOf, deserializeBody, apply_ite (withArgs b0 b1 b2 b3 <$> ·), map_bind]; rfl

/-- Nor do the common checks (R63). -/
theorem commandRun_withArgs (i : Instr) (l : Latch) (b0 b1 b2 b3 : Word) (s : State) :
    commandRun i l (withArgs b0 b1 b2 b3 s) = withArgs b0 b1 b2 b3 <$> commandRun i l s := by
  have hcheck : preCheck i l (withArgs b0 b1 b2 b3 s) = preCheck i l s := by cases i <;> rfl
  rw [commandRun, hcheck, commandRun, map_bind]
  simp only [bodyOf_withArgs]

/-- Nor does a failure (R123). -/
theorem raiseError_withArgs (l : Latch) (c : ErrCode) (n : Nat) (b0 b1 b2 b3 : Word) (s : State) :
    raiseError l c n (withArgs b0 b1 b2 b3 s) = withArgs b0 b1 b2 b3 (raiseError l c n s) := by
  cases c <;> rfl

/-- The end of the engine step keeps the argument registers (R109, R123). -/
theorem finish_withArgs (l : Latch) (b0 b1 b2 b3 : Word) (s : State) (r : Run State) :
    finish l (withArgs b0 b1 b2 b3 s) (withArgs b0 b1 b2 b3 <$> r) = mapNext (withArgs b0 b1 b2 b3) (finish l s r) := by
  cases r with
  | ok u => rfl
  | error e =>
    cases e with
    | error c n => exact congrArg Host.Outcome.next (raiseError_withArgs l c n b0 b1 b2 b3 s)
    | fault f => rfl

/-- Settles O8: the checks, the effects and the end of a command take its arguments from the latch alone. -/
theorem commandUsesCapturedArguments : Obligations.CommandUsesCapturedArguments := by
  intro i s b0 b1 b2 b3
  show exec i (withArgs b0 b1 b2 b3 s) = mapNext (withArgs b0 b1 b2 b3) (exec i s)
  cases hl : s.latch with
  | none =>
    rw [exec_of_idle hl, exec_of_idle (s := withArgs b0 b1 b2 b3 s) hl]
    rfl
  | some l =>
    rw [exec_eq_finish hl, exec_eq_finish (s := withArgs b0 b1 b2 b3 s) hl, commandRun_withArgs, finish_withArgs]

/-! ### Stale trees -/

/-- A write to FREQ while BUSY = 0 clears the tree (R27). -/
theorem step_setFreq_clears {s t : State} {es : List HostEvent} {y : Byte} {v : Word} (hl : s.latch = none)
    (hq : s.hostQueue = HostProgram.setFreq y v :: es) (h : step s = .next t) : TreeCleared t := by
  cases (step_write hq (hostTarget_freq _ y) (.inl hl)).symm.trans h
  exact (treeCleared_writeFreq y v _).of_same (sameTables_answerWrite _ _)

/-- A command that ends with ERR = 0 is one whose effects took place (R109, R123). -/
theorem exec_eq_complete_of_ok {i : Instr} {s t : State} (h : exec i s = .next t) (hok : t.err = .ok) :
    ∃ l u, bodyOf i l s = .ok u ∧ t = complete u := by
  rw [exec_eq_runCommand] at h
  obtain ⟨l, _, ⟨_, _, u, hb, ht⟩ | ⟨_, rfl⟩ | ⟨_, _, rfl⟩ | ⟨_, _, c, n, hb, rfl⟩⟩ := runCommand_next h
  · exact ⟨l, u, hb, ht⟩
  · cases hok
  · cases hok
  · obtain rfl : c = .ok := hok
    cases bodyOf_error_code hb

/-- A successful DESERIALIZE clears the tree (R105). -/
theorem exec_deserialize_clears {s t : State} (h : exec .deserialize s = .next t) (hok : t.err = .ok) : TreeCleared t := by
  obtain ⟨l, u, hb, rfl⟩ := exec_eq_complete_of_ok h hok
  obtain ⟨c, _, _, rfl⟩ := deserializeBody_eq_ok.1 hb
  exact ⟨rfl, rfl, rfl, rfl⟩

/-- BUILD_TREE always ends with CODES_VALID = 0 (R77). -/
theorem exec_buildTree_codesValid {s t : State} (h : exec .buildTree s = .next t) : t.codesValid = false := by
  obtain ⟨l, hl, _⟩ := exec_next h
  cases (buildTreeCompletes s l hl).symm.trans h
  rfl

/-- Settles O55: the two changes of FREQ clear the tree, a new tree clears the codes, and ENCODE and DECODE are not ready
without them. -/
theorem staleTreesAreNeverUsed : Obligations.StaleTreesAreNeverUsed := by
  refine ⟨fun s t es y v hl hq h => ?freq, fun s t h hok => ?deserialize, fun s t h => exec_buildTree_codesValid h,
    fun s l hl hv => ⟨_, exec_of_notReady hl hv, rfl⟩, fun s l hl hv => ⟨_, exec_of_notReady hl hv, rfl⟩⟩
  case freq =>
    have hc := step_setFreq_clears hl hq h
    exact ⟨hc.treeValid, hc.codesValid⟩
  case deserialize =>
    have hc := exec_deserialize_clears h hok
    exact ⟨hc.treeValid, hc.codesValid⟩

end Sys2Proof.Machine
end
